-- ==== Sys2Proof/Word.lean ====
section
/-! DEFINITION. The machine words of the block: widths only (spec/00_scope.md R9, R11; spec/10_state.md R30). -/

namespace Sys2Proof

/-- One byte: the unit of every bus access (R103) and the width of `A`, `X`, `Y`, `S`, `P` (R30). -/
abbrev Byte := BitVec 8

/-- A CPU bus address, and the width of `PC` (R30, R70). -/
abbrev Word := BitVec 16

/-- An address of the picture unit's own 14-bit space (R70, R370). -/
abbrev PpuAddr := BitVec 14

/-- The picture unit's scroll/address registers `v` and `t` (R352). -/
abbrev ScrollReg := BitVec 15

/-- A 6-bit colour index, what the frame buffer holds (R354, R437, R438). -/
abbrev Colour := BitVec 6

/-- A memory: a sparse array of (index, value) pairs. `Memory 8` is a list of `Host.Cell`. Its canonical form, and the
one value an unlisted index reads as, are in `Sys2Proof/Machine/Memory.lean`. -/
abbrev Memory (w : Nat) := List (Nat × BitVec w)

end Sys2Proof
end

