-- ==== Sys2Proof/Syntax.lean ====
section
/-! DEFINITION. The instruction set as syntax (spec/30_encoding.md R131, R132, R136). A row of
spec/opcode_table.json is one constructor of `Instr` together with one operand form of that constructor's own
operand type, so a pair of mnemonic and addressing mode that is no row cannot be written down; the 105 rows
`XXX` are the constructor `xxx` with the row's opcode byte (R137, R140). -/

namespace Sys2Proof

/-- The 13 addressing modes (R160), which are also the 13 instruction formats (R132). -/
inductive Mode where
  | imp | acc | imm | zp0 | zpx | zpy | rel | abs | abx | aby | ind | izx | izy
  deriving DecidableEq, Repr

/-- An addressing mode with its operand bytes, assembled as R132 and R134 say: what the shared operand
operations of the machine work on. -/
inductive Operand where
  | imp
  | acc
  | imm (value : Byte)
  | zp0 (zp : Byte)
  | zpx (zp : Byte)
  | zpy (zp : Byte)
  | rel (displacement : Byte)
  | abs (addr : Word)
  | abx (base : Word)
  | aby (base : Word)
  | ind (ptr : Word)
  | izx (zp : Byte)
  | izy (zp : Byte)
  deriving DecidableEq, Repr

/-- The forms of LDA, ADC, SBC, AND, ORA, EOR and CMP (R136). -/
inductive ReadOperand where
  | imm (value : Byte) | zp0 (zp : Byte) | zpx (zp : Byte) | abs (addr : Word)
  | abx (base : Word) | aby (base : Word) | izx (zp : Byte) | izy (zp : Byte)
  deriving DecidableEq, Repr

/-- The forms of LDX (R192). -/
inductive LdxOperand where
  | imm (value : Byte) | zp0 (zp : Byte) | zpy (zp : Byte) | abs (addr : Word) | aby (base : Word)
  deriving DecidableEq, Repr

/-- The forms of LDY (R193). -/
inductive LdyOperand where
  | imm (value : Byte) | zp0 (zp : Byte) | zpx (zp : Byte) | abs (addr : Word) | abx (base : Word)
  deriving DecidableEq, Repr

/-- The forms of STA (R194). -/
inductive StaOperand where
  | zp0 (zp : Byte) | zpx (zp : Byte) | abs (addr : Word) | abx (base : Word) | aby (base : Word)
  | izx (zp : Byte) | izy (zp : Byte)
  deriving DecidableEq, Repr

/-- The forms of STX (R195). -/
inductive StxOperand where
  | zp0 (zp : Byte) | zpy (zp : Byte) | abs (addr : Word)
  deriving DecidableEq, Repr

/-- The forms of STY (R196). -/
inductive StyOperand where
  | zp0 (zp : Byte) | zpx (zp : Byte) | abs (addr : Word)
  deriving DecidableEq, Repr

/-- The forms of CPX and CPY (R229, R230). -/
inductive IndexCompareOperand where
  | imm (value : Byte) | zp0 (zp : Byte) | abs (addr : Word)
  deriving DecidableEq, Repr

/-- The forms of BIT (R231). -/
inductive BitOperand where
  | zp0 (zp : Byte) | abs (addr : Word)
  deriving DecidableEq, Repr

/-- The forms of INC and DEC (R232, R233). -/
inductive StepOperand where
  | zp0 (zp : Byte) | zpx (zp : Byte) | abs (addr : Word) | abx (base : Word)
  deriving DecidableEq, Repr

/-- The forms of ASL, LSR, ROL and ROR (R260). -/
inductive ShiftOperand where
  | acc | zp0 (zp : Byte) | zpx (zp : Byte) | abs (addr : Word) | abx (base : Word)
  deriving DecidableEq, Repr

/-- The forms of JMP (R289). -/
inductive JmpOperand where
  | abs (addr : Word) | ind (ptr : Word)
  deriving DecidableEq, Repr

/-- The operand of an unassigned opcode, in the mode `UNDOC_MODE` gives it (R140). The form `imm` carries no
byte: the mode only steps `PC` over it (R163) and `Exec_XXX` does not fetch it (R325), so it is never read. -/
inductive UndocOperand where
  | imp
  | acc
  | imm
  | zp0 (zp : Byte)
  | zpx (zp : Byte)
  | zpy (zp : Byte)
  | rel (displacement : Byte)
  | abs (addr : Word)
  | abx (base : Word)
  | aby (base : Word)
  | ind (ptr : Word)
  | izx (zp : Byte)
  | izy (zp : Byte)
  deriving DecidableEq, Repr

/-- What `TABLE` says of one unassigned opcode: `UNDOC_MODE`, `UNDOC_CYCLES` and `UNDOC_PEN` of it (R10, R141). -/
structure UndocRow where
  opcode : Nat
  mode : Mode
  cycles : Nat
  penalty : Bool
  deriving DecidableEq, Repr

/-- The three functions `UNDOC_MODE`, `UNDOC_CYCLES` and `UNDOC_PEN` of R10 as plain data: the rows in which a run
departs from the defaults of R141, the first row of an opcode counting. `[]` is the defaults; every choice of the
three functions is such a list. -/
abbrev UndocParams := List UndocRow

/-- The instructions: the 56 mnemonics of R136 and the placeholder XXX of R137 and R325. -/
inductive Instr where
  -- loads, stores, transfers (spec/41_load_store_transfer.md)
  | lda (o : ReadOperand)
  | ldx (o : LdxOperand)
  | ldy (o : LdyOperand)
  | sta (o : StaOperand)
  | stx (o : StxOperand)
  | sty (o : StyOperand)
  | tax
  | tay
  | txa
  | tya
  | tsx
  | txs
  -- arithmetic, logic, compare, increment (spec/42_arithmetic_logic.md)
  | adc (o : ReadOperand)
  | sbc (o : ReadOperand)
  | and (o : ReadOperand)
  | ora (o : ReadOperand)
  | eor (o : ReadOperand)
  | cmp (o : ReadOperand)
  | cpx (o : IndexCompareOperand)
  | cpy (o : IndexCompareOperand)
  | bit (o : BitOperand)
  | inc (o : StepOperand)
  | dec (o : StepOperand)
  | inx
  | iny
  | dex
  | dey
  -- shifts and rotates (spec/43_shift_rotate.md)
  | asl (o : ShiftOperand)
  | lsr (o : ShiftOperand)
  | rol (o : ShiftOperand)
  | ror (o : ShiftOperand)
  -- branches, jumps, calls (spec/44_branch_jump.md)
  | bcc (displacement : Byte)
  | bcs (displacement : Byte)
  | beq (displacement : Byte)
  | bne (displacement : Byte)
  | bmi (displacement : Byte)
  | bpl (displacement : Byte)
  | bvc (displacement : Byte)
  | bvs (displacement : Byte)
  | jmp (o : JmpOperand)
  | jsr (target : Word)
  | rts
  -- stack, flags, system (spec/45_stack_flags_system.md)
  | pha
  | php
  | pla
  | plp
  | clc
  | cld
  | cli
  | clv
  | sec
  | sed
  | sei
  | brk
  | rti
  | nop
  | xxx (op : Byte) (o : UndocOperand)
  deriving DecidableEq, Repr

end Sys2Proof
end

