-- ==== Sys2Proof/Decode.lean ====
section
/-! DEFINITION. The decoder and, after it, the encoder (spec/30_encoding.md). The decoder is a look-up of the
first byte in the matrix of R135 and, for an unassigned byte, in the table of R141; the encoder is written from
the list by mnemonic of R136. The byte-order helpers of R100 stand here too. -/

namespace Sys2Proof

/-! ## Byte order (R100) -/

/-- `{hi, lo}` of R11: a 16-bit quantity from its two bytes. -/
def wordOf (hi lo : Byte) : Word := hi ++ lo

/-- `w[15:8]`. -/
def hiByte (w : Word) : Byte := w.extractLsb' 8 8

/-- `w[7:0]`. -/
def loByte (w : Word) : Byte := w.extractLsb' 0 8

/-! ## Formats -/

/-- What follows an opcode byte, and the instruction it makes (R130, R132). -/
inductive Format where
  /-- no operand byte -/
  | alone (i : Instr)
  /-- one byte that `PC` steps over and nothing reads: mode IMM of an unassigned opcode (R163, R325) -/
  | skipByte (i : Instr)
  /-- one operand byte -/
  | oneByte (f : Byte → Instr)
  /-- two operand bytes, low byte first, assembled `{byte2, byte1}` (R134) -/
  | twoBytes (f : Word → Instr)

/-- The instruction's length in bytes (R130, R132). -/
def Format.length : Format → Nat
  | .alone _ => 1
  | .skipByte _ => 2
  | .oneByte _ => 2
  | .twoBytes _ => 3

/-- A matrix cell of mode IMP or ACC. -/
def cell0 (i : Instr) : Option Format := some (.alone i)

/-- A matrix cell of a mode with one operand byte. -/
def cell1 (f : Byte → Instr) : Option Format := some (.oneByte f)

/-- A matrix cell of a mode with two operand bytes. -/
def cell2 (f : Word → Instr) : Option Format := some (.twoBytes f)

/-! ## The opcode matrix (R135): the opcode is `(row << 4) | column`; `none` is an unassigned opcode -/

/-- Row `0x` of the matrix of R135. -/
def matrixRow0 : List (Option Format) := [
  cell0 .brk, cell1 (.ora <| .izx ·), none, none,
  none, cell1 (.ora <| .zp0 ·), cell1 (.asl <| .zp0 ·), none,
  cell0 .php, cell1 (.ora <| .imm ·), cell0 (.asl .acc), none,
  none, cell2 (.ora <| .abs ·), cell2 (.asl <| .abs ·), none]

/-- Row `1x` of the matrix of R135. -/
def matrixRow1 : List (Option Format) := [
  cell1 .bpl, cell1 (.ora <| .izy ·), none, none,
  none, cell1 (.ora <| .zpx ·), cell1 (.asl <| .zpx ·), none,
  cell0 .clc, cell2 (.ora <| .aby ·), none, none,
  none, cell2 (.ora <| .abx ·), cell2 (.asl <| .abx ·), none]

/-- Row `2x` of the matrix of R135. -/
def matrixRow2 : List (Option Format) := [
  cell2 .jsr, cell1 (.and <| .izx ·), none, none,
  cell1 (.bit <| .zp0 ·), cell1 (.and <| .zp0 ·), cell1 (.rol <| .zp0 ·), none,
  cell0 .plp, cell1 (.and <| .imm ·), cell0 (.rol .acc), none,
  cell2 (.bit <| .abs ·), cell2 (.and <| .abs ·), cell2 (.rol <| .abs ·), none]

/-- Row `3x` of the matrix of R135. -/
def matrixRow3 : List (Option Format) := [
  cell1 .bmi, cell1 (.and <| .izy ·), none, none,
  none, cell1 (.and <| .zpx ·), cell1 (.rol <| .zpx ·), none,
  cell0 .sec, cell2 (.and <| .aby ·), none, none,
  none, cell2 (.and <| .abx ·), cell2 (.rol <| .abx ·), none]

/-- Row `4x` of the matrix of R135. -/
def matrixRow4 : List (Option Format) := [
  cell0 .rti, cell1 (.eor <| .izx ·), none, none,
  none, cell1 (.eor <| .zp0 ·), cell1 (.lsr <| .zp0 ·), none,
  cell0 .pha, cell1 (.eor <| .imm ·), cell0 (.lsr .acc), none,
  cell2 (.jmp <| .abs ·), cell2 (.eor <| .abs ·), cell2 (.lsr <| .abs ·), none]

/-- Row `5x` of the matrix of R135. -/
def matrixRow5 : List (Option Format) := [
  cell1 .bvc, cell1 (.eor <| .izy ·), none, none,
  none, cell1 (.eor <| .zpx ·), cell1 (.lsr <| .zpx ·), none,
  cell0 .cli, cell2 (.eor <| .aby ·), none, none,
  none, cell2 (.eor <| .abx ·), cell2 (.lsr <| .abx ·), none]

/-- Row `6x` of the matrix of R135. -/
def matrixRow6 : List (Option Format) := [
  cell0 .rts, cell1 (.adc <| .izx ·), none, none,
  none, cell1 (.adc <| .zp0 ·), cell1 (.ror <| .zp0 ·), none,
  cell0 .pla, cell1 (.adc <| .imm ·), cell0 (.ror .acc), none,
  cell2 (.jmp <| .ind ·), cell2 (.adc <| .abs ·), cell2 (.ror <| .abs ·), none]

/-- Row `7x` of the matrix of R135. -/
def matrixRow7 : List (Option Format) := [
  cell1 .bvs, cell1 (.adc <| .izy ·), none, none,
  none, cell1 (.adc <| .zpx ·), cell1 (.ror <| .zpx ·), none,
  cell0 .sei, cell2 (.adc <| .aby ·), none, none,
  none, cell2 (.adc <| .abx ·), cell2 (.ror <| .abx ·), none]

/-- Row `8x` of the matrix of R135. -/
def matrixRow8 : List (Option Format) := [
  none, cell1 (.sta <| .izx ·), none, none,
  cell1 (.sty <| .zp0 ·), cell1 (.sta <| .zp0 ·), cell1 (.stx <| .zp0 ·), none,
  cell0 .dey, none, cell0 .txa, none,
  cell2 (.sty <| .abs ·), cell2 (.sta <| .abs ·), cell2 (.stx <| .abs ·), none]

/-- Row `9x` of the matrix of R135. -/
def matrixRow9 : List (Option Format) := [
  cell1 .bcc, cell1 (.sta <| .izy ·), none, none,
  cell1 (.sty <| .zpx ·), cell1 (.sta <| .zpx ·), cell1 (.stx <| .zpy ·), none,
  cell0 .tya, cell2 (.sta <| .aby ·), cell0 .txs, none,
  none, cell2 (.sta <| .abx ·), none, none]

/-- Row `Ax` of the matrix of R135. -/
def matrixRowA : List (Option Format) := [
  cell1 (.ldy <| .imm ·), cell1 (.lda <| .izx ·), cell1 (.ldx <| .imm ·), none,
  cell1 (.ldy <| .zp0 ·), cell1 (.lda <| .zp0 ·), cell1 (.ldx <| .zp0 ·), none,
  cell0 .tay, cell1 (.lda <| .imm ·), cell0 .tax, none,
  cell2 (.ldy <| .abs ·), cell2 (.lda <| .abs ·), cell2 (.ldx <| .abs ·), none]

/-- Row `Bx` of the matrix of R135. -/
def matrixRowB : List (Option Format) := [
  cell1 .bcs, cell1 (.lda <| .izy ·), none, none,
  cell1 (.ldy <| .zpx ·), cell1 (.lda <| .zpx ·), cell1 (.ldx <| .zpy ·), none,
  cell0 .clv, cell2 (.lda <| .aby ·), cell0 .tsx, none,
  cell2 (.ldy <| .abx ·), cell2 (.lda <| .abx ·), cell2 (.ldx <| .aby ·), none]

/-- Row `Cx` of the matrix of R135. -/
def matrixRowC : List (Option Format) := [
  cell1 (.cpy <| .imm ·), cell1 (.cmp <| .izx ·), none, none,
  cell1 (.cpy <| .zp0 ·), cell1 (.cmp <| .zp0 ·), cell1 (.dec <| .zp0 ·), none,
  cell0 .iny, cell1 (.cmp <| .imm ·), cell0 .dex, none,
  cell2 (.cpy <| .abs ·), cell2 (.cmp <| .abs ·), cell2 (.dec <| .abs ·), none]

/-- Row `Dx` of the matrix of R135. -/
def matrixRowD : List (Option Format) := [
  cell1 .bne, cell1 (.cmp <| .izy ·), none, none,
  none, cell1 (.cmp <| .zpx ·), cell1 (.dec <| .zpx ·), none,
  cell0 .cld, cell2 (.cmp <| .aby ·), none, none,
  none, cell2 (.cmp <| .abx ·), cell2 (.dec <| .abx ·), none]

/-- Row `Ex` of the matrix of R135. -/
def matrixRowE : List (Option Format) := [
  cell1 (.cpx <| .imm ·), cell1 (.sbc <| .izx ·), none, none,
  cell1 (.cpx <| .zp0 ·), cell1 (.sbc <| .zp0 ·), cell1 (.inc <| .zp0 ·), none,
  cell0 .inx, cell1 (.sbc <| .imm ·), cell0 .nop, none,
  cell2 (.cpx <| .abs ·), cell2 (.sbc <| .abs ·), cell2 (.inc <| .abs ·), none]

/-- Row `Fx` of the matrix of R135. -/
def matrixRowF : List (Option Format) := [
  cell1 .beq, cell1 (.sbc <| .izy ·), none, none,
  none, cell1 (.sbc <| .zpx ·), cell1 (.inc <| .zpx ·), none,
  cell0 .sed, cell2 (.sbc <| .aby ·), none, none,
  none, cell2 (.sbc <| .abx ·), cell2 (.inc <| .abx ·), none]

/-- The matrix of R135. -/
def opcodeMatrix : List (List (Option Format)) :=
  [matrixRow0, matrixRow1, matrixRow2, matrixRow3] ++ [matrixRow4, matrixRow5, matrixRow6, matrixRow7] ++
  [matrixRow8, matrixRow9, matrixRowA, matrixRowB] ++ [matrixRowC, matrixRowD, matrixRowE, matrixRowF]

/-- The format of an assigned opcode, `none` for the 105 unassigned ones (R131). -/
def assignedFormat (op : Byte) : Option Format :=
  ((opcodeMatrix[op.toNat / 16]?).bind (·[op.toNat % 16]?)).join

/-! ## The unassigned opcodes (R140, R141) -/

/-- Rows 0x02 to 0x1F of the table of R141. -/
def undocRows0 : List UndocRow := [
  ⟨0x02, .imp, 2, false⟩, ⟨0x03, .izx, 8, false⟩, ⟨0x04, .zp0, 3, false⟩,
  ⟨0x07, .zp0, 5, false⟩, ⟨0x0B, .imm, 2, false⟩, ⟨0x0C, .abs, 4, false⟩,
  ⟨0x0F, .abs, 6, false⟩, ⟨0x12, .imp, 2, false⟩, ⟨0x13, .izy, 8, false⟩,
  ⟨0x14, .zpx, 4, false⟩, ⟨0x17, .zpx, 6, false⟩, ⟨0x1A, .imp, 2, false⟩,
  ⟨0x1B, .aby, 7, false⟩, ⟨0x1C, .abx, 4, true⟩, ⟨0x1F, .abx, 7, false⟩]

/-- Rows 0x22 to 0x43 of the table of R141. -/
def undocRows1 : List UndocRow := [
  ⟨0x22, .imp, 2, false⟩, ⟨0x23, .izx, 8, false⟩, ⟨0x27, .zp0, 5, false⟩,
  ⟨0x2B, .imm, 2, false⟩, ⟨0x2F, .abs, 6, false⟩, ⟨0x32, .imp, 2, false⟩,
  ⟨0x33, .izy, 8, false⟩, ⟨0x34, .zpx, 4, false⟩, ⟨0x37, .zpx, 6, false⟩,
  ⟨0x3A, .imp, 2, false⟩, ⟨0x3B, .aby, 7, false⟩, ⟨0x3C, .abx, 4, true⟩,
  ⟨0x3F, .abx, 7, false⟩, ⟨0x42, .imp, 2, false⟩, ⟨0x43, .izx, 8, false⟩]

/-- Rows 0x44 to 0x64 of the table of R141. -/
def undocRows2 : List UndocRow := [
  ⟨0x44, .zp0, 3, false⟩, ⟨0x47, .zp0, 5, false⟩, ⟨0x4B, .imm, 2, false⟩,
  ⟨0x4F, .abs, 6, false⟩, ⟨0x52, .imp, 2, false⟩, ⟨0x53, .izy, 8, false⟩,
  ⟨0x54, .zpx, 4, false⟩, ⟨0x57, .zpx, 6, false⟩, ⟨0x5A, .imp, 2, false⟩,
  ⟨0x5B, .aby, 7, false⟩, ⟨0x5C, .abx, 4, true⟩, ⟨0x5F, .abx, 7, false⟩,
  ⟨0x62, .imp, 2, false⟩, ⟨0x63, .izx, 8, false⟩, ⟨0x64, .zp0, 3, false⟩]

/-- Rows 0x67 to 0x87 of the table of R141. -/
def undocRows3 : List UndocRow := [
  ⟨0x67, .zp0, 5, false⟩, ⟨0x6B, .imm, 2, false⟩, ⟨0x6F, .abs, 6, false⟩,
  ⟨0x72, .imp, 2, false⟩, ⟨0x73, .izy, 8, false⟩, ⟨0x74, .zpx, 4, false⟩,
  ⟨0x77, .zpx, 6, false⟩, ⟨0x7A, .imp, 2, false⟩, ⟨0x7B, .aby, 7, false⟩,
  ⟨0x7C, .abx, 4, true⟩, ⟨0x7F, .abx, 7, false⟩, ⟨0x80, .imm, 2, false⟩,
  ⟨0x82, .imm, 2, false⟩, ⟨0x83, .izx, 6, false⟩, ⟨0x87, .zp0, 3, false⟩]

/-- Rows 0x89 to 0xB2 of the table of R141. -/
def undocRows4 : List UndocRow := [
  ⟨0x89, .imm, 2, false⟩, ⟨0x8B, .imm, 2, false⟩, ⟨0x8F, .abs, 4, false⟩,
  ⟨0x92, .imp, 2, false⟩, ⟨0x93, .izy, 6, false⟩, ⟨0x97, .zpy, 4, false⟩,
  ⟨0x9B, .aby, 5, false⟩, ⟨0x9C, .abx, 5, false⟩, ⟨0x9E, .aby, 5, false⟩,
  ⟨0x9F, .aby, 5, false⟩, ⟨0xA3, .izx, 6, false⟩, ⟨0xA7, .zp0, 3, false⟩,
  ⟨0xAB, .imm, 2, false⟩, ⟨0xAF, .abs, 4, false⟩, ⟨0xB2, .imp, 2, false⟩]

/-- Rows 0xB3 to 0xDB of the table of R141. -/
def undocRows5 : List UndocRow := [
  ⟨0xB3, .izy, 5, true⟩, ⟨0xB7, .zpy, 4, false⟩, ⟨0xBB, .aby, 4, true⟩,
  ⟨0xBF, .aby, 4, true⟩, ⟨0xC2, .imm, 2, false⟩, ⟨0xC3, .izx, 8, false⟩,
  ⟨0xC7, .zp0, 5, false⟩, ⟨0xCB, .imm, 2, false⟩, ⟨0xCF, .abs, 6, false⟩,
  ⟨0xD2, .imp, 2, false⟩, ⟨0xD3, .izy, 8, false⟩, ⟨0xD4, .zpx, 4, false⟩,
  ⟨0xD7, .zpx, 6, false⟩, ⟨0xDA, .imp, 2, false⟩, ⟨0xDB, .aby, 7, false⟩]

/-- Rows 0xDC to 0xFF of the table of R141. -/
def undocRows6 : List UndocRow := [
  ⟨0xDC, .abx, 4, true⟩, ⟨0xDF, .abx, 7, false⟩, ⟨0xE2, .imm, 2, false⟩,
  ⟨0xE3, .izx, 8, false⟩, ⟨0xE7, .zp0, 5, false⟩, ⟨0xEB, .imm, 2, false⟩,
  ⟨0xEF, .abs, 6, false⟩, ⟨0xF2, .imp, 2, false⟩, ⟨0xF3, .izy, 8, false⟩,
  ⟨0xF4, .zpx, 4, false⟩, ⟨0xF7, .zpx, 6, false⟩, ⟨0xFA, .imp, 2, false⟩,
  ⟨0xFB, .aby, 7, false⟩, ⟨0xFC, .abx, 4, true⟩, ⟨0xFF, .abx, 7, false⟩]

/-- The table of R141. -/
def undocTable : List UndocRow :=
  undocRows0 ++ undocRows1 ++ undocRows2 ++ undocRows3 ++ undocRows4 ++ undocRows5 ++ undocRows6

/-- The default row of R141 for an opcode; every opcode that the matrix leaves unassigned has one. -/
def undocDefault (op : Byte) : UndocRow :=
  (undocTable.find? (·.opcode == op.toNat)).getD ⟨op.toNat, .imp, 2, false⟩

/-- The row that a run's parameters give an opcode: the run's own, else the default. -/
def undocRow (u : UndocParams) (op : Byte) : UndocRow :=
  (u.find? (·.opcode == op.toNat)).getD (undocDefault op)

/-- `UNDOC_MODE(op)` (R10). -/
def undocMode (u : UndocParams) (op : Byte) : Mode := (undocRow u op).mode

/-- The format of an unassigned opcode: XXX in the mode `UNDOC_MODE` gives it (R140). -/
def undocFormat (u : UndocParams) (op : Byte) : Format :=
  match undocMode u op with
  | .imp => .alone (.xxx op .imp)
  | .acc => .alone (.xxx op .acc)
  | .imm => .skipByte (.xxx op .imm)
  | .zp0 => .oneByte (.xxx op <| .zp0 ·)
  | .zpx => .oneByte (.xxx op <| .zpx ·)
  | .zpy => .oneByte (.xxx op <| .zpy ·)
  | .rel => .oneByte (.xxx op <| .rel ·)
  | .izx => .oneByte (.xxx op <| .izx ·)
  | .izy => .oneByte (.xxx op <| .izy ·)
  | .abs => .twoBytes (.xxx op <| .abs ·)
  | .abx => .twoBytes (.xxx op <| .abx ·)
  | .aby => .twoBytes (.xxx op <| .aby ·)
  | .ind => .twoBytes (.xxx op <| .ind ·)

/-! ## The decoder -/

/-- `TABLE[opcode]` of R133 for a run's parameters: every one of the 256 opcode bytes has a format (R140). -/
def formatOf (u : UndocParams) (op : Byte) : Format := (assignedFormat op).getD (undocFormat u op)

/-- Why a list of bytes is no instruction: it ends too soon. No byte is an illegal opcode (R140). -/
inductive DecodeError where
  /-- no byte at all -/
  | empty
  /-- the bytes end before the operand of this opcode does -/
  | truncated (op : Byte)
  deriving DecidableEq, Repr

/-- The first instruction of a list of bytes, and the bytes after it (R130 to R134). The parameters of R141 matter
for an unassigned opcode only. -/
def decode (u : UndocParams) : List Byte → Except DecodeError (Instr × List Byte)
  | [] => .error .empty
  | op :: rest =>
    match formatOf u op, rest with
    | .alone i, rest => .ok (i, rest)
    | .skipByte i, _ :: rest => .ok (i, rest)
    | .oneByte f, b :: rest => .ok (f b, rest)
    | .twoBytes f, lo :: hi :: rest => .ok (f (wordOf hi lo), rest)
    | _, _ => .error (.truncated op)

/-- The bytes of an instruction given as a number, bit 0 the least significant bit of its first byte: three
bytes, the longest instruction (R130). -/
def tableWordBytes (nbits w : Nat) : List Byte :=
  let v := w % 2 ^ nbits
  [BitVec.ofNat 8 v, BitVec.ofNat 8 (v / 256), BitVec.ofNat 8 (v / 65536)]

/-- The instruction the decoder reads from an instruction word numbered as spec/opcode_table.json numbers it;
bits at and above `nbits` are 0. Unassigned opcodes have the table's rows, the defaults of R141. -/
def decodeTableWord (nbits w : Nat) : Option Instr :=
  match decode [] (tableWordBytes nbits w) with
  | .ok (i, _) => some i
  | .error _ => none

/-! ## The encoder (R136) -/

/-- The opcode byte of an instruction, from the list by mnemonic of R136; XXX carries its own. -/
def opcode : Instr → Byte
  | .lda (.izx _) => 0xA1
  | .lda (.zp0 _) => 0xA5
  | .lda (.imm _) => 0xA9
  | .lda (.abs _) => 0xAD
  | .lda (.izy _) => 0xB1
  | .lda (.zpx _) => 0xB5
  | .lda (.aby _) => 0xB9
  | .lda (.abx _) => 0xBD
  | .ldx (.imm _) => 0xA2
  | .ldx (.zp0 _) => 0xA6
  | .ldx (.abs _) => 0xAE
  | .ldx (.zpy _) => 0xB6
  | .ldx (.aby _) => 0xBE
  | .ldy (.imm _) => 0xA0
  | .ldy (.zp0 _) => 0xA4
  | .ldy (.abs _) => 0xAC
  | .ldy (.zpx _) => 0xB4
  | .ldy (.abx _) => 0xBC
  | .sta (.izx _) => 0x81
  | .sta (.zp0 _) => 0x85
  | .sta (.abs _) => 0x8D
  | .sta (.izy _) => 0x91
  | .sta (.zpx _) => 0x95
  | .sta (.aby _) => 0x99
  | .sta (.abx _) => 0x9D
  | .stx (.zp0 _) => 0x86
  | .stx (.abs _) => 0x8E
  | .stx (.zpy _) => 0x96
  | .sty (.zp0 _) => 0x84
  | .sty (.abs _) => 0x8C
  | .sty (.zpx _) => 0x94
  | .tax => 0xAA
  | .tay => 0xA8
  | .txa => 0x8A
  | .tya => 0x98
  | .tsx => 0xBA
  | .txs => 0x9A
  | .adc (.izx _) => 0x61
  | .adc (.zp0 _) => 0x65
  | .adc (.imm _) => 0x69
  | .adc (.abs _) => 0x6D
  | .adc (.izy _) => 0x71
  | .adc (.zpx _) => 0x75
  | .adc (.aby _) => 0x79
  | .adc (.abx _) => 0x7D
  | .sbc (.izx _) => 0xE1
  | .sbc (.zp0 _) => 0xE5
  | .sbc (.imm _) => 0xE9
  | .sbc (.abs _) => 0xED
  | .sbc (.izy _) => 0xF1
  | .sbc (.zpx _) => 0xF5
  | .sbc (.aby _) => 0xF9
  | .sbc (.abx _) => 0xFD
  | .and (.izx _) => 0x21
  | .and (.zp0 _) => 0x25
  | .and (.imm _) => 0x29
  | .and (.abs _) => 0x2D
  | .and (.izy _) => 0x31
  | .and (.zpx _) => 0x35
  | .and (.aby _) => 0x39
  | .and (.abx _) => 0x3D
  | .ora (.izx _) => 0x01
  | .ora (.zp0 _) => 0x05
  | .ora (.imm _) => 0x09
  | .ora (.abs _) => 0x0D
  | .ora (.izy _) => 0x11
  | .ora (.zpx _) => 0x15
  | .ora (.aby _) => 0x19
  | .ora (.abx _) => 0x1D
  | .eor (.izx _) => 0x41
  | .eor (.zp0 _) => 0x45
  | .eor (.imm _) => 0x49
  | .eor (.abs _) => 0x4D
  | .eor (.izy _) => 0x51
  | .eor (.zpx _) => 0x55
  | .eor (.aby _) => 0x59
  | .eor (.abx _) => 0x5D
  | .cmp (.izx _) => 0xC1
  | .cmp (.zp0 _) => 0xC5
  | .cmp (.imm _) => 0xC9
  | .cmp (.abs _) => 0xCD
  | .cmp (.izy _) => 0xD1
  | .cmp (.zpx _) => 0xD5
  | .cmp (.aby _) => 0xD9
  | .cmp (.abx _) => 0xDD
  | .cpx (.imm _) => 0xE0
  | .cpx (.zp0 _) => 0xE4
  | .cpx (.abs _) => 0xEC
  | .cpy (.imm _) => 0xC0
  | .cpy (.zp0 _) => 0xC4
  | .cpy (.abs _) => 0xCC
  | .bit (.zp0 _) => 0x24
  | .bit (.abs _) => 0x2C
  | .inc (.zp0 _) => 0xE6
  | .inc (.abs _) => 0xEE
  | .inc (.zpx _) => 0xF6
  | .inc (.abx _) => 0xFE
  | .dec (.zp0 _) => 0xC6
  | .dec (.abs _) => 0xCE
  | .dec (.zpx _) => 0xD6
  | .dec (.abx _) => 0xDE
  | .inx => 0xE8
  | .iny => 0xC8
  | .dex => 0xCA
  | .dey => 0x88
  | .asl (.zp0 _) => 0x06
  | .asl .acc => 0x0A
  | .asl (.abs _) => 0x0E
  | .asl (.zpx _) => 0x16
  | .asl (.abx _) => 0x1E
  | .lsr (.zp0 _) => 0x46
  | .lsr .acc => 0x4A
  | .lsr (.abs _) => 0x4E
  | .lsr (.zpx _) => 0x56
  | .lsr (.abx _) => 0x5E
  | .rol (.zp0 _) => 0x26
  | .rol .acc => 0x2A
  | .rol (.abs _) => 0x2E
  | .rol (.zpx _) => 0x36
  | .rol (.abx _) => 0x3E
  | .ror (.zp0 _) => 0x66
  | .ror .acc => 0x6A
  | .ror (.abs _) => 0x6E
  | .ror (.zpx _) => 0x76
  | .ror (.abx _) => 0x7E
  | .bcc _ => 0x90
  | .bcs _ => 0xB0
  | .beq _ => 0xF0
  | .bne _ => 0xD0
  | .bmi _ => 0x30
  | .bpl _ => 0x10
  | .bvc _ => 0x50
  | .bvs _ => 0x70
  | .jmp (.abs _) => 0x4C
  | .jmp (.ind _) => 0x6C
  | .jsr _ => 0x20
  | .rts => 0x60
  | .pha => 0x48
  | .php => 0x08
  | .pla => 0x68
  | .plp => 0x28
  | .clc => 0x18
  | .cld => 0xD8
  | .cli => 0x58
  | .clv => 0xB8
  | .sec => 0x38
  | .sed => 0xF8
  | .sei => 0x78
  | .brk => 0x00
  | .rti => 0x40
  | .nop => 0xEA
  | .xxx op _ => op

/-- The operand bytes of a shared operand, low byte first (R132, R134). -/
def Operand.bytes : Operand → List Byte
  | .imp => []
  | .acc => []
  | .imm v => [v]
  | .zp0 v => [v]
  | .zpx v => [v]
  | .zpy v => [v]
  | .rel v => [v]
  | .izx v => [v]
  | .izy v => [v]
  | .abs w => [loByte w, hiByte w]
  | .abx w => [loByte w, hiByte w]
  | .aby w => [loByte w, hiByte w]
  | .ind w => [loByte w, hiByte w]

/-- The form as one of the 13 shared operands. -/
def ReadOperand.operand : ReadOperand → Operand
  | .imm v => .imm v
  | .zp0 v => .zp0 v
  | .zpx v => .zpx v
  | .abs v => .abs v
  | .abx v => .abx v
  | .aby v => .aby v
  | .izx v => .izx v
  | .izy v => .izy v

/-- The form as one of the 13 shared operands. -/
def LdxOperand.operand : LdxOperand → Operand
  | .imm v => .imm v
  | .zp0 v => .zp0 v
  | .zpy v => .zpy v
  | .abs v => .abs v
  | .aby v => .aby v

/-- The form as one of the 13 shared operands. -/
def LdyOperand.operand : LdyOperand → Operand
  | .imm v => .imm v
  | .zp0 v => .zp0 v
  | .zpx v => .zpx v
  | .abs v => .abs v
  | .abx v => .abx v

/-- The form as one of the 13 shared operands. -/
def StaOperand.operand : StaOperand → Operand
  | .zp0 v => .zp0 v
  | .zpx v => .zpx v
  | .abs v => .abs v
  | .abx v => .abx v
  | .aby v => .aby v
  | .izx v => .izx v
  | .izy v => .izy v

/-- The form as one of the 13 shared operands. -/
def StxOperand.operand : StxOperand → Operand
  | .zp0 v => .zp0 v
  | .zpy v => .zpy v
  | .abs v => .abs v

/-- The form as one of the 13 shared operands. -/
def StyOperand.operand : StyOperand → Operand
  | .zp0 v => .zp0 v
  | .zpx v => .zpx v
  | .abs v => .abs v

/-- The form as one of the 13 shared operands. -/
def IndexCompareOperand.operand : IndexCompareOperand → Operand
  | .imm v => .imm v
  | .zp0 v => .zp0 v
  | .abs v => .abs v

/-- The form as one of the 13 shared operands. -/
def BitOperand.operand : BitOperand → Operand
  | .zp0 v => .zp0 v
  | .abs v => .abs v

/-- The form as one of the 13 shared operands. -/
def StepOperand.operand : StepOperand → Operand
  | .zp0 v => .zp0 v
  | .zpx v => .zpx v
  | .abs v => .abs v
  | .abx v => .abx v

/-- The form as one of the 13 shared operands. -/
def ShiftOperand.operand : ShiftOperand → Operand
  | .acc => .acc
  | .zp0 v => .zp0 v
  | .zpx v => .zpx v
  | .abs v => .abs v
  | .abx v => .abx v

/-- The form as one of the 13 shared operands. -/
def JmpOperand.operand : JmpOperand → Operand
  | .abs v => .abs v
  | .ind v => .ind v

/-- The operand of an unassigned opcode as a shared operand. The skipped byte of form `imm` makes no access and
no address (R163, R325), so it works as `imp` does. -/
def UndocOperand.operand : UndocOperand → Operand
  | .imp => .imp
  | .acc => .acc
  | .imm => .imp
  | .zp0 v => .zp0 v
  | .zpx v => .zpx v
  | .zpy v => .zpy v
  | .rel v => .rel v
  | .abs v => .abs v
  | .abx v => .abx v
  | .aby v => .aby v
  | .ind v => .ind v
  | .izx v => .izx v
  | .izy v => .izy v

/-- The addressing mode of an unassigned opcode's operand. -/
def UndocOperand.mode : UndocOperand → Mode
  | .imp => .imp
  | .acc => .acc
  | .imm => .imm
  | .zp0 _ => .zp0
  | .zpx _ => .zpx
  | .zpy _ => .zpy
  | .rel _ => .rel
  | .abs _ => .abs
  | .abx _ => .abx
  | .aby _ => .aby
  | .ind _ => .ind
  | .izx _ => .izx
  | .izy _ => .izy

/-- The operand bytes of an unassigned opcode; the skipped byte, which nothing reads, is written 0. -/
def UndocOperand.bytes : UndocOperand → List Byte
  | .imm => [0]
  | o => o.operand.bytes

/-- The bytes after the opcode (R132). BRK's padding byte is no part of the encoding: its row has length 1, and
its operation steps over the next byte (R130, R322). -/
def operandBytes : Instr → List Byte
  | .lda o => o.operand.bytes
  | .ldx o => o.operand.bytes
  | .ldy o => o.operand.bytes
  | .sta o => o.operand.bytes
  | .stx o => o.operand.bytes
  | .sty o => o.operand.bytes
  | .tax => []
  | .tay => []
  | .txa => []
  | .tya => []
  | .tsx => []
  | .txs => []
  | .adc o => o.operand.bytes
  | .sbc o => o.operand.bytes
  | .and o => o.operand.bytes
  | .ora o => o.operand.bytes
  | .eor o => o.operand.bytes
  | .cmp o => o.operand.bytes
  | .cpx o => o.operand.bytes
  | .cpy o => o.operand.bytes
  | .bit o => o.operand.bytes
  | .inc o => o.operand.bytes
  | .dec o => o.operand.bytes
  | .inx => []
  | .iny => []
  | .dex => []
  | .dey => []
  | .asl o => o.operand.bytes
  | .lsr o => o.operand.bytes
  | .rol o => o.operand.bytes
  | .ror o => o.operand.bytes
  | .bcc d => (Operand.rel d).bytes
  | .bcs d => (Operand.rel d).bytes
  | .beq d => (Operand.rel d).bytes
  | .bne d => (Operand.rel d).bytes
  | .bmi d => (Operand.rel d).bytes
  | .bpl d => (Operand.rel d).bytes
  | .bvc d => (Operand.rel d).bytes
  | .bvs d => (Operand.rel d).bytes
  | .jmp o => o.operand.bytes
  | .jsr target => (Operand.abs target).bytes
  | .rts => []
  | .pha => []
  | .php => []
  | .pla => []
  | .plp => []
  | .clc => []
  | .cld => []
  | .cli => []
  | .clv => []
  | .sec => []
  | .sed => []
  | .sei => []
  | .brk => []
  | .rti => []
  | .nop => []
  | .xxx _ o => o.bytes

/-- The bytes of an instruction (R132, R136). -/
def encode (i : Instr) : List Byte := opcode i :: operandBytes i

end Sys2Proof
end

