-- ==== Sys2Proof/Machine/Bits.lean ====
section
/-! DEFINITION. Bit helpers of the notation of spec/00_scope.md R11 and R12. -/

namespace Sys2Proof

/-- `b` with bit `i` set to `v`. -/
def setBit (b : Byte) (i : Nat) (v : Bool) : Byte :=
  if v then b ||| ((1 : Byte) <<< i) else b &&& ~~~((1 : Byte) <<< i)

/-- `sext_16` of R12. -/
def sext16 (b : Byte) : Word := wordOf (if b.getLsbD 7 then 0xFF else 0x00) b

/-- `zext_16` of R12. -/
def zext16 (b : Byte) : Word := wordOf 0x00 b

/-- `Reverse8` of R426. -/
def reverse8 (b : Byte) : Byte :=
  b.extractLsb' 0 1 ++ b.extractLsb' 1 1 ++ b.extractLsb' 2 1 ++ b.extractLsb' 3 1 ++
  b.extractLsb' 4 1 ++ b.extractLsb' 5 1 ++ b.extractLsb' 6 1 ++ b.extractLsb' 7 1

/-- One bit as a one-bit vector. -/
def bit1 (v : Bool) : BitVec 1 := BitVec.ofBool v

end Sys2Proof
end

