-- ==== Sys2Proof/Machine/Flags.lean ====
section
/-! DEFINITION. The status byte `P` (spec/10_state.md R35, R36) and every flag computation of the instruction
set (spec/40_addressing_modes.md R180; spec/42_arithmetic_logic.md R223, R224, R228, R231;
spec/43_shift_rotate.md R261 to R264). -/

namespace Sys2Proof.Machine

/-- The eight fields of `P` (R36). -/
inductive Flag where
  | c | z | i | d | b | u | v | n
  deriving DecidableEq, Repr

/-- The bit position of a field of `P` (R36). -/
def Flag.pos : Flag → Nat
  | .c => 0
  | .z => 1
  | .i => 2
  | .d => 3
  | .b => 4
  | .u => 5
  | .v => 6
  | .n => 7

/-- `P.f`. -/
def flag (f : Flag) (p : Byte) : Bool := p.getLsbD f.pos

/-- `P.f <- v`. -/
def setFlag (f : Flag) (v : Bool) (p : Byte) : Byte := setBit p f.pos v

/-- `SetZN(r)` (R180). -/
def setZN (r : Byte) (p : Byte) : Byte := setFlag .n (r.getLsbD 7) (setFlag .z (r == 0) p)

/-- The status byte that PLP and RTI load from a pulled byte (R314, R323): bit 4 dropped, bit 5 forced to 1. -/
def pulledStatus (v : Byte) : Byte := (v &&& 0xEF) ||| 0x20

/-- The status byte that an entry pushes (R505 step 3): bit 5 set, bit 4 is `b`. With `b` this is the
`P | 0x30` of PHP and BRK (R312, R322). -/
def pushedStatus (b : Bool) (p : Byte) : Byte := (p &&& 0xEF) ||| 0x20 ||| (if b then 0x10 else 0x00)

/-- The result of an 8-bit operation and the status byte it leaves. -/
structure Alu where
  result : Byte
  status : Byte
  deriving DecidableEq, Repr

/-- ADC's sum and flags (R223): the exact sum is taken first, then narrowed; `P.D` plays no part (R222). -/
def addWithCarry (a m p : Byte) : Alu :=
  let sum := a.toNat + m.toNat + (flag .c p).toNat
  let r := BitVec.ofNat 8 sum
  let overflow := (~~~(a ^^^ m) &&& (a ^^^ r)).getLsbD 7
  { result := r, status := setZN r (setFlag .v overflow (setFlag .c (decide (sum > 0xFF)) p)) }

/-- SBC's difference and flags (R224): ADC of the complemented operand. -/
def subWithCarry (a m p : Byte) : Alu := addWithCarry a (m ^^^ 0xFF) p

/-- The flags of CMP, CPX, CPY (R228 to R230) for register `r` and operand `m`. -/
def compareFlags (r m p : Byte) : Byte := setZN (r - m) (setFlag .c (decide (m.toNat ≤ r.toNat)) p)

/-- The flags of BIT (R231). -/
def bitFlags (a m p : Byte) : Byte :=
  setFlag .v (m.getLsbD 6) (setFlag .n (m.getLsbD 7) (setFlag .z (a &&& m == 0) p))

/-- A result with Z and N from it and no other flag (INC, DEC: R232, R233). -/
def withZN (r p : Byte) : Alu := { result := r, status := setZN r p }

/-- A shift result with C, Z and N (R260). -/
def shifted (r : Byte) (carry : Bool) (p : Byte) : Alu := { result := r, status := setZN r (setFlag .c carry p) }

/-- INC (R232). -/
def incOp (m p : Byte) : Alu := withZN (m + 1) p

/-- DEC (R233). -/
def decOp (m p : Byte) : Alu := withZN (m - 1) p

/-- ASL (R261). -/
def aslOp (m p : Byte) : Alu := shifted (m <<< 1) (m.getLsbD 7) p

/-- LSR (R262). -/
def lsrOp (m p : Byte) : Alu := shifted (m >>> 1) (m.getLsbD 0) p

/-- ROL (R263): the old carry enters at bit 0. -/
def rolOp (m p : Byte) : Alu := shifted ((m <<< 1) ||| (if flag .c p then 0x01 else 0x00)) (m.getLsbD 7) p

/-- ROR (R264): the old carry enters at bit 7. -/
def rorOp (m p : Byte) : Alu := shifted ((if flag .c p then 0x80 else 0x00) ||| (m >>> 1)) (m.getLsbD 0) p

end Sys2Proof.Machine
end

