-- ==== Sys2Proof/Config.lean ====
section
/-! DEFINITION. What the spec leaves open and this model does not choose: opaque constants without a body, so
that no proof can see a value of them. The parameters of spec/00_scope.md R10 that a run fixes as data (the
cartridge, `OAMDATA_WRITE_INCREMENT`) are in `State`; the opcode-map parameters of R141 are tables of
`Sys2Proof/Decode.lean` and `Sys2Proof/Machine/Timing.lean`. -/

namespace Sys2Proof

/-- `OPEN_BUS` (R10, R75): the byte a CPU bus read returns when no device answers. Free: it depends on the
address and on how many such reads went before (the model's stand-in for the "history" of R10), and nothing
constrains it, as R75 asks of a sound model. Assumption log 2. -/
opaque Config.openBus : Word → Nat → Byte

/-- `PALETTE_RGB` (R10, R438): the 32-bit colour of a colour index. No source has the table (N14), so nothing
constrains it. Assumption log 3. -/
opaque Config.paletteRgb : Colour → BitVec 32

/-- The value `7 - row` of R426 when `row > 7`: a vertically flipped 8x8 sprite whose record was selected while
sprites were 16 lines high. R426 says `row` is 0 to 7 there and states no value for this case. Free, a function
of `row`. Assumption log 4. -/
opaque Config.flippedRowPastTile : Nat → PpuAddr

end Sys2Proof
end

