-- ==== Sys2Proof/Machine/Memory.lean ====
section
/-! DEFINITION. Memories as canonical sparse lists: indices strictly rising, and no entry equal to what an
unlisted index reads as. System RAM, program and character ROM, nametable, pattern and palette memory, OAM and
the frame buffer (R42, R44, R354) are all held this way, each indexed from 0. -/

namespace Sys2Proof

/-- What an index that nothing has written reads as. The spec leaves power-on contents unspecified (R76, R356);
0 is the model's choice. Assumption log 5. -/
def Memory.unlisted {w : Nat} : BitVec w := 0

/-- The value at an index. -/
def Memory.read {w : Nat} : Memory w → Nat → BitVec w
  | [], _ => Memory.unlisted
  | (j, u) :: m, i => if j = i then u else Memory.read m i

/-- `m` with `(i, v)` before it, unless an unlisted index reads as `v` anyway. -/
def Memory.cons {w : Nat} (i : Nat) (v : BitVec w) (m : Memory w) : Memory w :=
  if v = Memory.unlisted then m else (i, v) :: m

/-- Store a value at an index, keeping the canonical form. -/
def Memory.write {w : Nat} : Memory w → Nat → BitVec w → Memory w
  | [], i, v => Memory.cons i v []
  | (j, u) :: m, i, v =>
    if j < i then (j, u) :: Memory.write m i v
    else if j = i then Memory.cons i v m
    else Memory.cons i v ((j, u) :: m)

/-- Canonical, with every index at least `lo` and below `size`. -/
def Memory.wfFrom {w : Nat} (lo size : Nat) : Memory w → Bool
  | [] => true
  | (j, u) :: m => decide (lo ≤ j) && decide (j < size) && (u != Memory.unlisted) && Memory.wfFrom (j + 1) size m

/-- The canonical form of a memory of `size` cells. -/
def Memory.wf {w : Nat} (size : Nat) (m : Memory w) : Bool := Memory.wfFrom 0 size m

end Sys2Proof
end

