-- ==== Sys2Proof/Machine/State.lean ====
section
/-! DEFINITION. Everything the spec gives the machine, as plain data (spec/10_state.md R30, R40, R42 to R46;
spec/47_ppu_registers.md R350 to R355; spec/48_ppu_rendering.md R401; spec/49_dma_orchestrator.md R460;
spec/20_memory.md R80, R88), and the state right after reset (spec/70_reset_and_hazards.md R540). INVENTORY.md
lists every field with its rule. -/

namespace Sys2Proof.Machine

/-! ## The cartridge: parameters of a run, held as data (R10, R44, R80) -/

/-- The nametable mirroring mode (R80, R374). -/
inductive Mirroring where
  | horizontal | vertical
  deriving DecidableEq, Repr

/-- An NROM cartridge and the remaining launch parameters of R10. No step of the machine changes it (R44, R82). -/
structure Cartridge where
  /-- `CART_PRESENT` -/
  present : Bool
  /-- `PRG_BANKS - 1`: the number of 16 KiB program banks is at least 1 (R10), so none with 0 banks exists (R81) -/
  extraPrgBanks : Nat
  /-- `PRG`, by offset -/
  prg : Memory 8
  /-- `CHR_BANKS` -/
  chrBanks : Nat
  /-- `CHR`, by offset -/
  chr : Memory 8
  /-- `MIRRORING` -/
  mirroring : Mirroring
  /-- `OAMDATA_WRITE_INCREMENT` (R363): a launch parameter of the picture unit, held with the others -/
  oamDataWriteIncrement : Bool
  /-- `UNDOC_MODE`, `UNDOC_CYCLES`, `UNDOC_PEN` (R141): launch parameters of the CPU's table -/
  undoc : UndocParams
  deriving DecidableEq, Repr

/-! ## The bus's own state (R42, R88, R460) -/

/-- The OAM DMA engine's registers (R460). -/
structure Dma where
  page : Byte
  addr : Byte
  data : Byte
  active : Bool
  dummy : Bool
  deriving DecidableEq, Repr

/-- One controller's button register and shift register (R88). -/
structure Pad where
  buttons : Byte
  shift : Byte
  deriving DecidableEq, Repr

/-! ## The picture unit (R45, R350 to R355, R401) -/

/-- Latches and shift registers of the background pipeline (R401). -/
structure Background where
  nextId : Byte
  nextAttr : BitVec 2
  nextLsb : Byte
  nextMsb : Byte
  patLo : BitVec 16
  patHi : BitVec 16
  attLo : BitVec 16
  attHi : BitVec 16
  deriving DecidableEq, Repr

/-- One record of the sprite scanline buffer with its two pattern shifters: `spr[i]`, `spr_pat_lo[i]`,
`spr_pat_hi[i]` of R401. -/
structure SpriteSlot where
  y : Byte
  id : Byte
  attr : Byte
  x : Byte
  patLo : Byte
  patHi : Byte
  deriving DecidableEq, Repr

/-- The sprite pipeline (R401). `slots` has 8 entries; `Safety.lean` states it and every step keeps it. -/
structure Sprites where
  slots : List SpriteSlot
  count : Nat
  zeroPossible : Bool
  zeroRendered : Bool
  deriving DecidableEq, Repr

/-- The picture unit (R45). -/
structure Ppu where
  /-- `ctrl`, `mask`, `status` (R351) -/
  ctrl : Byte
  mask : Byte
  status : Byte
  /-- the active and the temporary address register (R352) -/
  v : ScrollReg
  t : ScrollReg
  fineX : BitVec 3
  /-- the address-write toggle: false means the next write is the first of a pair (R352) -/
  w : Bool
  dataBuffer : Byte
  oamAddr : Byte
  /-- the dot coordinates (R353) -/
  scanline : Int
  cycle : Nat
  nmiLine : Bool
  frameComplete : Bool
  bg : Background
  sprites : Sprites
  /-- `NT[k][i]` at index `1024 k + i` (R354) -/
  nt : Memory 8
  /-- `PT[k][i]` at index `4096 k + i` (R354) -/
  pt : Memory 8
  pal : Memory 8
  oam : Memory 8
  /-- `FB[y][x]` at index `256 y + x` (R354, R438) -/
  fb : Memory 6
  deriving DecidableEq, Repr

/-! ## The whole machine -/

/-- The machine: the CPU's registers and cycle counter, the bus's RAM, DMA engine and controllers, the picture
unit, the cartridge, and the Orchestrator's tick counter (R30, R40, R42 to R45). -/
structure State where
  a : Byte
  x : Byte
  y : Byte
  sp : Byte
  pc : Word
  p : Byte
  /-- an unbounded natural (R40) -/
  cycles : Nat
  /-- `RAM[0..0x7FF]` (R76) -/
  ram : Memory 8
  dma : Dma
  pad0 : Pad
  pad1 : Pad
  ppu : Ppu
  cart : Cartridge
  /-- the system tick counter, an unbounded natural (R43, R521) -/
  tick : Nat
  /-- the model's own: how many bus reads no device answered so far; it indexes `Config.openBus` -/
  openReads : Nat
  deriving DecidableEq, Repr

/-! ## Why a step stops -/

/-- The machine's faults. It has none: "The hardware raises no synchronous exception" (R500), so the type has no
constructor and no step can answer a fault. -/
inductive Fault where
  deriving DecidableEq, Repr

/-- Why a step has no meaning. -/
inductive Refusal where
  /-- raised by an arm of `exec` for an instruction without a meaning (safe); no arm is of this kind -/
  | notModelled (mnemonic : String)
  deriving DecidableEq, Repr

/-- What a step answers. -/
abbrev Result := Host.Outcome State Fault Refusal

/-! ## Reset -/

/-- The DMA engine idle (R460, R475). -/
def Dma.idle : Dma := { page := 0, addr := 0, data := 0, active := false, dummy := true }

/-- Background latches and shifters after reset (R356). -/
def Background.zero : Background :=
  { nextId := 0, nextAttr := 0, nextLsb := 0, nextMsb := 0, patLo := 0, patHi := 0, attLo := 0, attHi := 0 }

/-- An empty record of the sprite buffer: all bytes 0xFF, shifters 0 (R356, R424). -/
def SpriteSlot.blank : SpriteSlot := { y := 0xFF, id := 0xFF, attr := 0xFF, x := 0xFF, patLo := 0, patHi := 0 }

/-- The sprite pipeline after reset (R356). -/
def Sprites.empty : Sprites :=
  { slots := List.replicate 8 SpriteSlot.blank, count := 0, zeroPossible := false, zeroRendered := false }

/-- The picture unit after reset, with the given memories, which reset leaves alone (R356). -/
def Ppu.afterReset (nt pt pal oam : Memory 8) (fb : Memory 6) : Ppu :=
  { ctrl := 0, mask := 0, status := 0, v := 0, t := 0, fineX := 0, w := false, dataBuffer := 0, oamAddr := 0,
    scanline := 0, cycle := 0, nmiLine := false, frameComplete := false, bg := .zero, sprites := .empty,
    nt, pt, pal, oam, fb }

/-- The cartridge of `State.reset`: present, with two program banks and one character bank whose bytes are the
value an unlisted byte reads as; vertical mirroring. A run's own cartridge is put in from outside the machine
(`State.insertCartridge`). Assumption log 6. -/
def Cartridge.blank : Cartridge :=
  { present := true, extraPrgBanks := 1, prg := [], chrBanks := 1, chr := [], mirroring := .vertical,
    oamDataWriteIncrement := true, undoc := [] }

/-- The machine right after `SystemReset()` (R474, R540) with the blank cartridge: `PC` is what the blank ROM
holds at the reset vector. `A`, `X`, `Y` are 0 (R41); the memories are at their power-on contents (assumption
log 5). -/
def State.reset : State :=
  { a := 0, x := 0, y := 0, sp := 0xFD, pc := 0, p := 0x24, cycles := 7, ram := [], dma := .idle,
    pad0 := { buttons := 0, shift := 0 }, pad1 := { buttons := 0, shift := 0 },
    ppu := .afterReset [] [] [] [] [], cart := .blank, tick := 0, openReads := 0 }

end Sys2Proof.Machine
end

