-- ==== Sys2Proof/Machine/Ppu.lean ====
section
/-! DEFINITION. The cartridge's NROM mapper (spec/20_memory.md R81 to R85) and the picture unit's registers, ports
and address space (spec/47_ppu_registers.md). The dot clock is in `Sys2Proof/Machine/PpuClock.lean`. -/

namespace Sys2Proof.Machine

/-! ## The NROM mapper -/

/-- `PRG_BANKS` (R10): at least 1. -/
def Cartridge.prgBanks (c : Cartridge) : Nat := c.extraPrgBanks + 1

/-- `PRG_MASK` (R81). -/
def Cartridge.prgMask (c : Cartridge) : Word := if c.prgBanks > 1 then 0x7FFF else 0x3FFF

/-- `CartCpuRead` (R81): the offset into `PRG` where the mapper accepts. -/
def Cartridge.cpuRead (c : Cartridge) (addr : Word) : Option Nat :=
  if 0x8000 ≤ addr then some (addr &&& c.prgMask).toNat else none

/-- `CartCpuWrite` (R82): whether the mapper accepts the write, which then changes nothing. -/
def Cartridge.cpuWrite (_c : Cartridge) (addr : Word) : Bool := decide (0x8000 ≤ addr)

/-- `CartPpuRead` (R83): the offset into `CHR` where the mapper accepts. -/
def Cartridge.ppuRead (_c : Cartridge) (a : PpuAddr) : Option Nat := if a ≤ 0x1FFF then some a.toNat else none

/-- `CartPpuWrite` (R84): rejects every address. -/
def Cartridge.ppuWrite (_c : Cartridge) (_a : PpuAddr) : Bool := false

/-- `PRG[offset]`. -/
def Cartridge.prgByte (c : Cartridge) (offset : Nat) : Byte := c.prg.read offset

/-- `CHR[offset]`: zero-filled when there are no character banks (R80, R85). -/
def Cartridge.chrByte (c : Cartridge) (offset : Nat) : Byte := if c.chrBanks = 0 then 0 else c.chr.read offset

/-! ## Bit fields of `ctrl`, `mask` and `status` (R351) -/

def Ppu.ctrlNametableX (p : Ppu) : Bool := p.ctrl.getLsbD 0
def Ppu.ctrlNametableY (p : Ppu) : Bool := p.ctrl.getLsbD 1
def Ppu.incrementMode (p : Ppu) : Bool := p.ctrl.getLsbD 2
def Ppu.patternSprite (p : Ppu) : Bool := p.ctrl.getLsbD 3
def Ppu.patternBackground (p : Ppu) : Bool := p.ctrl.getLsbD 4
def Ppu.tallSprites (p : Ppu) : Bool := p.ctrl.getLsbD 5
def Ppu.enableNmi (p : Ppu) : Bool := p.ctrl.getLsbD 7
def Ppu.grayscale (p : Ppu) : Bool := p.mask.getLsbD 0
def Ppu.showBackgroundLeft (p : Ppu) : Bool := p.mask.getLsbD 1
def Ppu.showSpritesLeft (p : Ppu) : Bool := p.mask.getLsbD 2
def Ppu.showBackground (p : Ppu) : Bool := p.mask.getLsbD 3
def Ppu.showSprites (p : Ppu) : Bool := p.mask.getLsbD 4
def Ppu.spriteOverflow (p : Ppu) : Bool := p.status.getLsbD 5
def Ppu.spriteZeroHit (p : Ppu) : Bool := p.status.getLsbD 6
def Ppu.verticalBlank (p : Ppu) : Bool := p.status.getLsbD 7

/-- "Rendering is enabled" (R351, the `R` of R403). -/
def Ppu.rendering (p : Ppu) : Bool := p.showBackground || p.showSprites

def Ppu.setSpriteOverflow (p : Ppu) (b : Bool) : Ppu := { p with status := setBit p.status 5 b }
def Ppu.setSpriteZeroHit (p : Ppu) (b : Bool) : Ppu := { p with status := setBit p.status 6 b }
def Ppu.setVerticalBlank (p : Ppu) (b : Bool) : Ppu := { p with status := setBit p.status 7 b }

/-! ## Fields of the scroll/address registers (R352) -/

namespace Scroll

def coarseX (r : ScrollReg) : BitVec 5 := r.extractLsb' 0 5
def coarseY (r : ScrollReg) : BitVec 5 := r.extractLsb' 5 5
def nametableX (r : ScrollReg) : BitVec 1 := r.extractLsb' 10 1
def nametableY (r : ScrollReg) : BitVec 1 := r.extractLsb' 11 1
def fineY (r : ScrollReg) : BitVec 3 := r.extractLsb' 12 3

/-- A register from its five fields, highest first. -/
def make (fineY : BitVec 3) (nametableY nametableX : BitVec 1) (coarseY coarseX : BitVec 5) : ScrollReg :=
  fineY ++ nametableY ++ nametableX ++ coarseY ++ coarseX

def setCoarseX (r : ScrollReg) (x : BitVec 5) : ScrollReg :=
  make (fineY r) (nametableY r) (nametableX r) (coarseY r) x
def setCoarseY (r : ScrollReg) (y : BitVec 5) : ScrollReg :=
  make (fineY r) (nametableY r) (nametableX r) y (coarseX r)
def setNametableX (r : ScrollReg) (b : BitVec 1) : ScrollReg :=
  make (fineY r) (nametableY r) b (coarseY r) (coarseX r)
def setNametableY (r : ScrollReg) (b : BitVec 1) : ScrollReg :=
  make (fineY r) b (nametableX r) (coarseY r) (coarseX r)
def setFineY (r : ScrollReg) (y : BitVec 3) : ScrollReg :=
  make y (nametableY r) (nametableX r) (coarseY r) (coarseX r)

/-- `v & 0x3FFF`: the register as a bus address (R352). -/
def address (r : ScrollReg) : PpuAddr := r.setWidth 14

end Scroll

/-! ## The picture-unit address space (R370 to R378) -/

/-- The index of pattern memory for an address up to 0x1FFF (R354, R370): `PT[a[12]][a & 0x0FFF]`. -/
def ptIndex (a : PpuAddr) : Nat := (a &&& 0x1FFF).toNat

/-- `NtIndex` (R374), as an index of nametable memory: `1024 k + i`. -/
def ntIndex (m : Mirroring) (a : PpuAddr) : Nat :=
  let k := match m with
    | .vertical => a.getLsbD 10
    | .horizontal => a.getLsbD 11
  1024 * k.toNat + (a &&& 0x03FF).toNat

/-- `PalIndex` (R376, R377). -/
def palIndex (a : PpuAddr) : Nat :=
  let i := (a &&& 0x1F).toNat
  if i = 0x10 then 0x00 else if i = 0x14 then 0x04 else if i = 0x18 then 0x08 else if i = 0x1C then 0x0C else i

/-- `PpuRead` (R370); it has no side effect. -/
def Ppu.read (c : Cartridge) (p : Ppu) (a : PpuAddr) : Byte :=
  match if c.present then c.ppuRead a else none with
  | some offset => c.chrByte offset
  | none =>
    if a ≤ 0x1FFF then p.pt.read (ptIndex a)
    else if a ≤ 0x3EFF then p.nt.read (ntIndex c.mirroring a)
    else p.pal.read (palIndex a) &&& (if p.grayscale then 0x30 else 0x3F)

/-- `PpuWrite` (R371): with NROM the cartridge rejects every write, so it falls to the unit's own memory. -/
def Ppu.write (c : Cartridge) (p : Ppu) (a : PpuAddr) (d : Byte) : Ppu :=
  if c.present && c.ppuWrite a then p
  else if a ≤ 0x1FFF then { p with pt := p.pt.write (ptIndex a) d }
  else if a ≤ 0x3EFF then { p with nt := p.nt.write (ntIndex c.mirroring a) d }
  else { p with pal := p.pal.write (palIndex a) d }

/-! ## The eight ports (R357 to R368) -/

/-- The advance of `v` after a data access (R366, R367). -/
def Ppu.advanceV (p : Ppu) : Ppu := { p with v := p.v + (if p.incrementMode then 32 else 1) }

/-- Port 0 write (R360). -/
def Ppu.writeControl (p : Ppu) (d : Byte) : Ppu :=
  { p with ctrl := d,
           t := Scroll.setNametableY (Scroll.setNametableX p.t (bit1 (d.getLsbD 0))) (bit1 (d.getLsbD 1)) }

/-- Port 1 write (R362). -/
def Ppu.writeMask (p : Ppu) (d : Byte) : Ppu := { p with mask := d }

/-- Port 2 read (R361). -/
def Ppu.readStatus (p : Ppu) : Byte × Ppu :=
  ((p.status &&& 0xE0) ||| (p.dataBuffer &&& 0x1F), { p.setVerticalBlank false with w := false })

/-- Port 3 write (R363). -/
def Ppu.writeOamAddr (p : Ppu) (d : Byte) : Ppu := { p with oamAddr := d }

/-- Port 4 read (R363): no side effect. -/
def Ppu.readOamData (p : Ppu) : Byte := p.oam.read p.oamAddr.toNat

/-- Port 4 write (R363). -/
def Ppu.writeOamData (c : Cartridge) (p : Ppu) (d : Byte) : Ppu :=
  { p with oam := p.oam.write p.oamAddr.toNat d,
           oamAddr := if c.oamDataWriteIncrement then p.oamAddr + 1 else p.oamAddr }

/-- Port 5 write (R364). -/
def Ppu.writeScroll (p : Ppu) (d : Byte) : Ppu :=
  if p.w then
    { p with t := Scroll.setCoarseY (Scroll.setFineY p.t (d.extractLsb' 0 3)) (d.extractLsb' 3 5), w := false }
  else
    { p with fineX := d.extractLsb' 0 3, t := Scroll.setCoarseX p.t (d.extractLsb' 3 5), w := true }

/-- Port 6 write (R365). -/
def Ppu.writeAddress (p : Ppu) (d : Byte) : Ppu :=
  if p.w then
    let t : ScrollReg := p.t.extractLsb' 8 7 ++ d
    { p with t := t, v := t, w := false }
  else
    { p with t := (0#1 : BitVec 1) ++ d.extractLsb' 0 6 ++ p.t.extractLsb' 0 8, w := true }

/-- Port 7 read (R366): delayed by one read below 0x3F00, at once from 0x3F00 on. -/
def Ppu.readData (c : Cartridge) (p : Ppu) : Byte × Ppu :=
  let a := Scroll.address p.v
  let fetched := p.read c a
  (if 0x3F00 ≤ a then fetched else p.dataBuffer, ({ p with dataBuffer := fetched }).advanceV)

/-- Port 7 write (R367). -/
def Ppu.writeData (c : Cartridge) (p : Ppu) (d : Byte) : Ppu := (p.write c (Scroll.address p.v) d).advanceV

/-- `PpuPortRead` (R358, R368). -/
def Ppu.portRead (c : Cartridge) (p : Ppu) (port : BitVec 3) : Byte × Ppu :=
  if port = 2 then p.readStatus
  else if port = 4 then (p.readOamData, p)
  else if port = 7 then p.readData c
  else (0, p)

/-- `PpuPortWrite` (R359, R368). -/
def Ppu.portWrite (c : Cartridge) (p : Ppu) (port : BitVec 3) (d : Byte) : Ppu :=
  if port = 0 then p.writeControl d
  else if port = 1 then p.writeMask d
  else if port = 3 then p.writeOamAddr d
  else if port = 4 then p.writeOamData c d
  else if port = 5 then p.writeScroll d
  else if port = 6 then p.writeAddress d
  else if port = 7 then p.writeData c d
  else p

/-- PPU reset (R356): the memories stay. -/
def Ppu.reset (p : Ppu) : Ppu := .afterReset p.nt p.pt p.pal p.oam p.fb

end Sys2Proof.Machine
end

