-- ==== Sys2Proof/Machine/PpuClock.lean ====
section
/-! DEFINITION. One dot of the picture unit (spec/48_ppu_rendering.md): the background pipeline, the sprite
pipeline, the compositor, vertical blank and the advance of the dot coordinates. -/

namespace Sys2Proof.Machine

/-! ## Background pipeline (R410 to R417) -/

/-- One attribute shifter's low half: the palette bit on all eight pixels (R412). -/
def spread (b : Bool) : Byte := if b then 0xFF else 0x00

/-- The low half of a 16-bit shifter replaced (R412). -/
def withLow (r : BitVec 16) (b : Byte) : BitVec 16 := wordOf (hiByte r) b

/-- `LoadBackgroundShifters` (R412). -/
def Ppu.loadShifters (p : Ppu) : Ppu :=
  { p with bg := { p.bg with
      patLo := withLow p.bg.patLo p.bg.nextLsb
      patHi := withLow p.bg.patHi p.bg.nextMsb
      attLo := withLow p.bg.attLo (spread (p.bg.nextAttr.getLsbD 0))
      attHi := withLow p.bg.attHi (spread (p.bg.nextAttr.getLsbD 1)) } }

/-- `IncrementScrollX` (R413). -/
def Ppu.incrementScrollX (p : Ppu) : Ppu :=
  if p.rendering then
    if Scroll.coarseX p.v = 31 then
      { p with v := Scroll.setNametableX (Scroll.setCoarseX p.v 0) (Scroll.nametableX p.v ^^^ 1) }
    else { p with v := Scroll.setCoarseX p.v (Scroll.coarseX p.v + 1) }
  else p

/-- `IncrementScrollY` (R414). -/
def Ppu.incrementScrollY (p : Ppu) : Ppu :=
  if p.rendering then
    if Scroll.fineY p.v < 7 then { p with v := Scroll.setFineY p.v (Scroll.fineY p.v + 1) }
    else
      let v := Scroll.setFineY p.v 0
      if Scroll.coarseY v = 29 then
        { p with v := Scroll.setNametableY (Scroll.setCoarseY v 0) (Scroll.nametableY v ^^^ 1) }
      else if Scroll.coarseY v = 31 then { p with v := Scroll.setCoarseY v 0 }
      else { p with v := Scroll.setCoarseY v (Scroll.coarseY v + 1) }
  else p

/-- `TransferAddressX` (R415). -/
def Ppu.transferX (p : Ppu) : Ppu :=
  if p.rendering then
    { p with v := Scroll.setCoarseX (Scroll.setNametableX p.v (Scroll.nametableX p.t)) (Scroll.coarseX p.t) }
  else p

/-- `TransferAddressY` (R416). -/
def Ppu.transferY (p : Ppu) : Ppu :=
  if p.rendering then
    { p with v := Scroll.setCoarseY (Scroll.setNametableY (Scroll.setFineY p.v (Scroll.fineY p.t))
                    (Scroll.nametableY p.t)) (Scroll.coarseY p.t) }
  else p

/-- The address of the nametable fetch (R411): `0x2000 | (v & 0x0FFF)`. -/
def nametableAddr (v : ScrollReg) : PpuAddr := 0x2000 ||| (Scroll.address v &&& 0x0FFF)

/-- The address of the attribute fetch (R411). -/
def attributeAddr (v : ScrollReg) : PpuAddr :=
  0x23C0 ||| ((Scroll.nametableY v).setWidth 14 <<< 11) ||| ((Scroll.nametableX v).setWidth 14 <<< 10)
    ||| (((Scroll.coarseY v).setWidth 14 >>> 2) <<< 3) ||| ((Scroll.coarseX v).setWidth 14 >>> 2)

/-- The two attribute bits of the current tile's quadrant (R411). -/
def attributeBits (v : ScrollReg) (a : Byte) : BitVec 2 :=
  let a := if (Scroll.coarseY v).getLsbD 1 then a >>> 4 else a
  let a := if (Scroll.coarseX v).getLsbD 1 then a >>> 2 else a
  a.setWidth 2

/-- The address of a pattern table: 0x0000 or 0x1000 (R351, R372). -/
def patternTable (upper : Bool) : PpuAddr := if upper then 0x1000 else 0x0000

/-- The address of the low bit-plane fetch (R411); the high one is 8 above it. -/
def Ppu.tileRowAddr (p : Ppu) : PpuAddr :=
  patternTable p.patternBackground + ((p.bg.nextId.setWidth 14) <<< 4) + (Scroll.fineY p.v).setWidth 14

/-- `FetchStep(k)` (R411). -/
def Ppu.fetchStep (c : Cartridge) (p : Ppu) (k : Nat) : Ppu :=
  if k = 0 then
    let p := p.loadShifters
    { p with bg := { p.bg with nextId := p.read c (nametableAddr p.v) } }
  else if k = 2 then
    { p with bg := { p.bg with nextAttr := attributeBits p.v (p.read c (attributeAddr p.v)) } }
  else if k = 4 then { p with bg := { p.bg with nextLsb := p.read c p.tileRowAddr } }
  else if k = 6 then { p with bg := { p.bg with nextMsb := p.read c (p.tileRowAddr + 8) } }
  else if k = 7 then p.incrementScrollX
  else p

/-- `f` on the first `n` elements. -/
def mapFirst {α : Type} (f : α → α) : Nat → List α → List α
  | n + 1, a :: as => f a :: mapFirst f n as
  | _, as => as

/-- One sprite record's dot: `x` counts down, then the pattern shifts (R417). -/
def SpriteSlot.tick (s : SpriteSlot) : SpriteSlot :=
  if s.x = 0 then { s with patLo := s.patLo <<< 1, patHi := s.patHi <<< 1 } else { s with x := s.x - 1 }

/-- The four background shifters moved by one pixel (R417). -/
def Background.shift (b : Background) : Background :=
  { b with patLo := b.patLo <<< 1, patHi := b.patHi <<< 1, attLo := b.attLo <<< 1, attHi := b.attHi <<< 1 }

/-- `f` where `b` holds. -/
def Ppu.when (b : Bool) (f : Ppu → Ppu) (p : Ppu) : Ppu := if b then f p else p

/-- The records of the sprite buffer replaced. -/
def Ppu.setSlots (p : Ppu) (slots : List SpriteSlot) : Ppu := { p with sprites := { p.sprites with slots } }

/-- The background half of `UpdateShifters` (R417). -/
def Ppu.shiftBackground (p : Ppu) : Ppu := { p with bg := p.bg.shift }

/-- The sprite half of `UpdateShifters` (R417). -/
def Ppu.tickSprites (p : Ppu) : Ppu := p.setSlots (mapFirst SpriteSlot.tick p.sprites.count p.sprites.slots)

/-- `UpdateShifters(c)` (R417). -/
def Ppu.updateShifters (p : Ppu) (c : Nat) : Ppu :=
  let p := p.when p.showBackground Ppu.shiftBackground
  p.when (p.showSprites && decide (1 ≤ c ∧ c ≤ 257)) Ppu.tickSprites

/-! ## Sprites (R420 to R426) -/

/-- The pattern shifters of a record cleared (R404). -/
def SpriteSlot.clearPatterns (s : SpriteSlot) : SpriteSlot := { s with patLo := 0, patHi := 0 }

/-- The three flags of `status` cleared (R404). -/
def Ppu.clearStatus (p : Ppu) : Ppu := ((p.setVerticalBlank false).setSpriteOverflow false).setSpriteZeroHit false

/-- `ClearFlags` (R404). -/
def Ppu.clearFlags (p : Ppu) : Ppu := p.clearStatus.setSlots (p.sprites.slots.map SpriteSlot.clearPatterns)

/-- Sprite height (R424). -/
def Ppu.spriteHeight (p : Ppu) : Int := if p.tallSprites then 16 else 8

/-- The `n`-th record of OAM as a sprite-buffer record (R355, R424). -/
def oamRecord (oam : Memory 8) (n : Nat) : SpriteSlot :=
  { y := oam.read (4 * n), id := oam.read (4 * n + 1), attr := oam.read (4 * n + 2), x := oam.read (4 * n + 3),
    patLo := 0, patHi := 0 }

/-- The scan of R424 over the `fuel` records from record `n` on: the selected records in OAM order, and whether
a ninth would qualify. `room` is how many may still be selected. -/
def scanOam (oam : Memory 8) (s h : Int) : (fuel n room : Nat) → List SpriteSlot × Bool
  | 0, _, _ => ([], false)
  | fuel + 1, n, room =>
    let d := s - ((oam.read (4 * n)).toNat : Int)
    if 0 ≤ d ∧ d < h then
      match room with
      | 0 => ([], true)
      | room + 1 =>
        let rest := scanOam oam s h fuel (n + 1) room
        (oamRecord oam n :: rest.1, rest.2)
    else scanOam oam s h fuel (n + 1) room

/-- Whether a record's `y` puts it on scanline `s` (R424). -/
def inRange (oam : Memory 8) (s h : Int) (n : Nat) : Bool :=
  let d := s - ((oam.read (4 * n)).toNat : Int)
  decide (0 ≤ d ∧ d < h)

/-- The sprite buffer refilled with the selected records (R424); `zero_rendered` stays. -/
def Sprites.refill (old : Sprites) (selected : List SpriteSlot) (zeroPossible : Bool) : Sprites :=
  { slots := selected ++ List.replicate (8 - selected.length) SpriteSlot.blank
    count := selected.length, zeroPossible, zeroRendered := old.zeroRendered }

/-- The sprite pipeline replaced. -/
def Ppu.setSprites (p : Ppu) (sprites : Sprites) : Ppu := { p with sprites }

/-- `EvaluateSprites(s)` (R424, R425): the buffer is refilled from OAM, never the other way. -/
def Ppu.evaluateSprites (p : Ppu) (s : Int) : Ppu :=
  let found := scanOam p.oam s p.spriteHeight 64 0 8
  let p := p.setSprites (p.sprites.refill found.1 (inRange p.oam s p.spriteHeight 0))
  p.when found.2 (Ppu.setSpriteOverflow · true)

/-- The address of a sprite's low bit-plane row (R426). -/
def Ppu.spriteRowAddr (p : Ppu) (s : Int) (slot : SpriteSlot) : PpuAddr :=
  let row := (s - (slot.y.toNat : Int)).toNat
  let vflip := slot.attr.getLsbD 7
  if p.tallSprites then
    let top := xor (decide (row < 8)) vflip
    let tile : Byte := (slot.id &&& 0xFE) + (if top then 0 else 1)
    let r := if vflip then 7 - row % 8 else row % 8
    patternTable (slot.id.getLsbD 0) ||| (tile.setWidth 14 <<< 4) ||| BitVec.ofNat 14 r
  else
    let r : PpuAddr :=
      if vflip then (if row ≤ 7 then BitVec.ofNat 14 (7 - row) else Config.flippedRowPastTile row)
      else BitVec.ofNat 14 row
    patternTable p.patternSprite ||| (slot.id.setWidth 14 <<< 4) ||| r

/-- The pattern fetch of one sprite (R426). -/
def Ppu.fetchSprite (c : Cartridge) (p : Ppu) (s : Int) (slot : SpriteSlot) : SpriteSlot :=
  let addr := p.spriteRowAddr s slot
  let lo := p.read c addr
  let hi := p.read c (addr + 8)
  if slot.attr.getLsbD 6 then { slot with patLo := reverse8 lo, patHi := reverse8 hi }
  else { slot with patLo := lo, patHi := hi }

/-- `FetchSprites(s)` (R426). -/
def Ppu.fetchSprites (c : Cartridge) (p : Ppu) (s : Int) : Ppu :=
  p.setSlots (mapFirst (p.fetchSprite c s) p.sprites.count p.sprites.slots)

/-! ## Compositor (R430 to R438) -/

/-- A layer's pixel at one dot: its 2-bit value, its palette, whether it is in front (sprites), and whether it
came from record 0 of the sprite buffer. -/
structure Pixel where
  value : BitVec 2
  palette : BitVec 3
  front : Bool
  first : Bool
  deriving DecidableEq, Repr

/-- The transparent pixel. -/
def Pixel.none : Pixel := { value := 0, palette := 0, front := false, first := false }

/-- The background pixel at dot `c` (R430); `x` of the rule is `c - 1`. -/
def Ppu.backgroundPixel (p : Ppu) (c : Nat) : Pixel :=
  if p.showBackground && (p.showBackgroundLeft || decide (c - 1 ≥ 8)) then
    let i := 15 - p.fineX.toNat
    { value := bit1 (p.bg.patHi.getLsbD i) ++ bit1 (p.bg.patLo.getLsbD i)
      palette := (0#1 : BitVec 1) ++ bit1 (p.bg.attHi.getLsbD i) ++ bit1 (p.bg.attLo.getLsbD i)
      front := false, first := false }
  else .none

/-- The next pixel of a sprite record: bits 7 of its two shifters (R431). -/
def SpriteSlot.pixel (s : SpriteSlot) : BitVec 2 := bit1 (s.patHi.getLsbD 7) ++ bit1 (s.patLo.getLsbD 7)

/-- The first of the first `n` records that has counted down and is opaque (R431); `first` says whether the list
starts at record 0. -/
def opaqueSprite : (n : Nat) → (first : Bool) → List SpriteSlot → Pixel
  | n + 1, first, s :: rest =>
    if s.x = 0 ∧ s.pixel ≠ 0 then
      { value := s.pixel, palette := 4 + ((s.attr &&& 0x03).setWidth 3), front := !s.attr.getLsbD 5, first }
    else opaqueSprite n false rest
  | _, _, _ => .none

/-- The sprite pixel at dot `c` (R431). -/
def Ppu.spritePixel (p : Ppu) (c : Nat) : Pixel :=
  if p.showSprites && (p.showSpritesLeft || decide (c - 1 ≥ 8)) then
    opaqueSprite p.sprites.count true p.sprites.slots
  else .none

/-- The layer that is shown (R432). -/
def combine (bg fg : Pixel) : Pixel :=
  if bg.value = 0 ∧ fg.value = 0 then .none
  else if bg.value = 0 then fg
  else if fg.value = 0 then bg
  else if fg.front then fg else bg

/-- Whether `SpriteZeroTest(c)` sets the flag, with its precondition that both pixels are opaque (R432, R436). -/
def Ppu.zeroHit (p : Ppu) (c : Nat) (bg fg : Pixel) : Bool :=
  decide (bg.value ≠ 0 ∧ fg.value ≠ 0) && p.sprites.zeroPossible && p.sprites.zeroRendered &&
    p.showBackground && p.showSprites && decide (c ≠ 256)

/-- The colour of a pixel (R437). -/
def Ppu.colour (c : Cartridge) (p : Ppu) (px : Pixel) : Colour :=
  (p.read c (0x3F00 + (px.palette.setWidth 14 <<< 2) + px.value.setWidth 14)).setWidth 6

/-- `zero_rendered` replaced (R431). -/
def Ppu.setZeroRendered (p : Ppu) (b : Bool) : Ppu := p.setSprites { p.sprites with zeroRendered := b }

/-- `FB[s][c - 1] <- colour` (R438). -/
def Ppu.plot (p : Ppu) (s : Int) (c : Nat) (colour : Colour) : Ppu :=
  { p with fb := p.fb.write (256 * s.toNat + (c - 1)) colour }

/-- Composition of the pixel at scanline `s`, dot `c` (R430 to R438). -/
def Ppu.composePixel (cart : Cartridge) (p : Ppu) (s : Int) (c : Nat) : Ppu :=
  let bg := p.backgroundPixel c
  let fg := p.spritePixel c
  let p := p.setZeroRendered (fg.first && p.sprites.zeroPossible)
  let p := p.when (p.zeroHit c bg fg) (Ppu.setSpriteZeroHit · true)
  p.plot s c (p.colour cart (combine bg fg))

/-! ## Vertical blank and the dot coordinates (R441, R442) -/

/-- `nmi_line` raised. -/
def Ppu.raiseNmi (p : Ppu) : Ppu := { p with nmiLine := true }

/-- `StartVBlank` (R441). -/
def Ppu.startVBlank (p : Ppu) : Ppu :=
  let p := p.setVerticalBlank true
  p.when p.enableNmi Ppu.raiseNmi

/-- `Advance` (R442). -/
def Ppu.advance (p : Ppu) : Ppu :=
  if p.cycle + 1 > 340 then
    if p.scanline + 1 > 260 then { p with cycle := 0, scanline := -1, frameComplete := true }
    else { p with cycle := 0, scanline := p.scanline + 1 }
  else { p with cycle := p.cycle + 1 }

/-! ## The clock (R403) -/

/-- Step 1 of R403, on scanlines -1 to 239, with `s` and `c` the coordinates at the start of the dot. -/
def Ppu.renderStep (cart : Cartridge) (s : Int) (c : Nat) (p : Ppu) : Ppu :=
  let p := p.when (decide (s = -1 ∧ c = 1)) Ppu.clearFlags
  let p := p.when (decide ((2 ≤ c ∧ c ≤ 257) ∨ (321 ≤ c ∧ c ≤ 337)))
    (fun p => (p.updateShifters c).fetchStep cart ((c - 1) % 8))
  let p := p.when (decide (c = 256)) Ppu.incrementScrollY
  let p := p.when (decide (c = 257)) (fun p => p.loadShifters.transferX)
  let p := p.when (decide (s = -1 ∧ 280 ≤ c ∧ c ≤ 304)) Ppu.transferY
  let p := p.when (decide (c = 257 ∧ 0 ≤ s)) (fun p => p.evaluateSprites s)
  p.when (decide (c = 340 ∧ 0 ≤ s)) (fun p => p.fetchSprites cart s)

/-- `PpuClock` (R403): one dot. -/
def Ppu.clock (cart : Cartridge) (p : Ppu) : Ppu :=
  let s := p.scanline
  let c := p.cycle
  let p := p.when (decide (-1 ≤ s ∧ s ≤ 239)) (Ppu.renderStep cart s c)
  let p := p.when (decide (s = 241 ∧ c = 1)) Ppu.startVBlank
  let p := p.when (decide (0 ≤ s ∧ s ≤ 239 ∧ 1 ≤ c ∧ c ≤ 256)) (fun p => p.composePixel cart s c)
  p.advance

end Sys2Proof.Machine
end

