-- ==== Sys2Proof/Machine/Ops.lean ====
section
/-! DEFINITION. The named operations over the state: register updates, the bus decoder (spec/20_memory.md R72,
R73), the stack (spec/40_addressing_modes.md R176, R177), taking an interrupt and returning from one
(spec/60_exceptions.md R502 to R510; spec/45_stack_flags_system.md R323), the resets, and the DMA engine
(spec/49_dma_orchestrator.md). -/

namespace Sys2Proof.Machine

/-! ## Updates of one field -/

def State.setA (s : State) (v : Byte) : State := { s with a := v }
def State.setX (s : State) (v : Byte) : State := { s with x := v }
def State.setY (s : State) (v : Byte) : State := { s with y := v }
def State.setSp (s : State) (v : Byte) : State := { s with sp := v }
def State.setPc (s : State) (v : Word) : State := { s with pc := v }
def State.setP (s : State) (v : Byte) : State := { s with p := v }
def State.setRam (s : State) (m : Memory 8) : State := { s with ram := m }
def State.setDma (s : State) (d : Dma) : State := { s with dma := d }
def State.setPad0 (s : State) (d : Pad) : State := { s with pad0 := d }
def State.setPad1 (s : State) (d : Pad) : State := { s with pad1 := d }
def State.setPpu (s : State) (p : Ppu) : State := { s with ppu := p }
def State.setTick (s : State) (n : Nat) : State := { s with tick := n }
def State.setOpenReads (s : State) (n : Nat) : State := { s with openReads := n }

/-- `cycles <- cycles + n` (R17, R40). -/
def State.charge (s : State) (n : Nat) : State := { s with cycles := s.cycles + n }

/-- The advance of `PC` over one byte; it wraps at 16 bits (R33). -/
def State.advancePc (s : State) : State := s.setPc (s.pc + 1)

/-! ## The bus decoder (R72 to R79) -/

/-- What a CPU bus address selects. -/
inductive Device where
  /-- program ROM, by offset into `PRG` -/
  | prg (offset : Nat)
  /-- system RAM, by index -/
  | ram (index : Nat)
  /-- a port of the picture unit -/
  | port (p : BitVec 3)
  /-- the OAM DMA trigger -/
  | dmaTrigger
  /-- controller 0 (false) or 1 (true) -/
  | pad (second : Bool)
  /-- nothing -/
  | nothing
  deriving DecidableEq, Repr

/-- The index of RAM for an address of 0x0000 to 0x1FFF (R76). -/
def ramIndex (addr : Word) : Nat := (addr &&& 0x07FF).toNat

/-- Read decode, in the priority order of R72. -/
def readDevice (c : Cartridge) (addr : Word) : Device :=
  match if c.present then c.cpuRead addr else none with
  | some offset => .prg offset
  | none =>
    if addr ≤ 0x1FFF then .ram (ramIndex addr)
    else if addr ≤ 0x3FFF then .port (addr.setWidth 3)
    else if addr = 0x4016 ∨ addr = 0x4017 then .pad (addr.getLsbD 0)
    else .nothing

/-- Write decode, in the priority order of R73. A write the cartridge claims goes to `prg` and changes nothing. -/
def writeDevice (c : Cartridge) (addr : Word) : Device :=
  if c.present && c.cpuWrite addr then .prg (addr &&& c.prgMask).toNat
  else if addr ≤ 0x1FFF then .ram (ramIndex addr)
  else if addr ≤ 0x3FFF then .port (addr.setWidth 3)
  else if addr = 0x4014 then .dmaTrigger
  else if addr = 0x4016 ∨ addr = 0x4017 then .pad (addr.getLsbD 0)
  else .nothing

/-- The controller an index selects (R89). -/
def State.pad (s : State) (second : Bool) : Pad := if second then s.pad1 else s.pad0

/-- Replace a controller's registers. -/
def State.setPad (s : State) (second : Bool) (d : Pad) : State := if second then s.setPad1 d else s.setPad0 d

/-- `CtrlRead` (R90): bit 0 of the shift register, which then shifts right. -/
def Pad.read (d : Pad) : Byte × Pad := (zextBit (d.shift.getLsbD 0), { d with shift := d.shift >>> 1 })
where
  zextBit (b : Bool) : Byte := if b then 1 else 0

/-- `CtrlLatch` (R91). -/
def Pad.latch (d : Pad) : Pad := { d with shift := d.buttons }

/-- `DmaTrigger` (R461). -/
def Dma.trigger (d : Dma) (v : Byte) : Dma := { d with page := v, addr := 0, active := true }

/-- `MemRead(addr, 1)` (R14, R72): the byte and the state after the read's side effects (R104). -/
def busRead (addr : Word) (s : State) : Byte × State :=
  match readDevice s.cart addr with
  | .prg offset => (s.cart.prgByte offset, s)
  | .ram index => (s.ram.read index, s)
  | .port p => let r := s.ppu.portRead s.cart p; (r.1, s.setPpu r.2)
  | .pad second => let r := (s.pad second).read; (r.1, s.setPad second r.2)
  | .dmaTrigger | .nothing => (Config.openBus addr s.openReads, s.setOpenReads (s.openReads + 1))

/-- `MemWrite(addr, 1, v)` (R14, R73). -/
def busWrite (addr : Word) (v : Byte) (s : State) : State :=
  match writeDevice s.cart addr with
  | .prg _ => s
  | .ram index => s.setRam (s.ram.write index v)
  | .port p => s.setPpu (s.ppu.portWrite s.cart p v)
  | .dmaTrigger => s.setDma (s.dma.trigger v)
  | .pad second => s.setPad second (s.pad second).latch
  | .nothing => s

/-- The byte of plain memory (RAM or program ROM) at a CPU address, with no bus access and no side effect, as the
host's diagnostic read of R480; `none` where a device or nothing answers. -/
def State.memByte (s : State) (addr : Word) : Option Byte :=
  match readDevice s.cart addr with
  | .prg offset => some (s.cart.prgByte offset)
  | .ram index => some (s.ram.read index)
  | _ => none

/-- `MemRead16(a)` of R14: low byte first, the second address wrapping at 16 bits (R100). -/
def busRead16 (addr : Word) (s : State) : Word × State :=
  let lo := busRead addr s
  let hi := busRead (addr + 1) lo.2
  (wordOf hi.1 lo.1, hi.2)

/-! ## The stack (R34, R176, R177) -/

/-- The address of the stack slot `S` points at: `0x0100 | S` (R34). -/
def stackAddr (sp : Byte) : Word := wordOf 0x01 sp

/-- `Push(v)` (R176). -/
def push (v : Byte) (s : State) : State := (busWrite (stackAddr s.sp) v s).setSp (s.sp - 1)

/-- `Pull()` (R177). -/
def pull (s : State) : Byte × State := busRead (stackAddr (s.sp + 1)) (s.setSp (s.sp + 1))

/-- A 16-bit value pushed high byte first (R100, R290, R505). -/
def pushWord (w : Word) (s : State) : State := push (loByte w) (push (hiByte w) s)

/-- Two bytes pulled, the low one first (R291, R323). -/
def pullWord (s : State) : Word × State :=
  let lo := pull s
  let hi := pull lo.2
  (wordOf hi.1 lo.1, hi.2)

/-! ## Interrupts (R500 to R508) -/

/-- The NMI, reset and IRQ/BRK vectors (R9, R501). -/
def nmiVector : Word := 0xFFFA
def resetVector : Word := 0xFFFC
def irqVector : Word := 0xFFFE

/-- `Interrupt(vector, b)` (R505): pushes `PC` and the status byte with bit 4 equal to `b`, sets `P.I`, and loads
`PC` from the vector. Used by `irq`, `nmi` and BRK. -/
def takeInterrupt (vector : Word) (b : Bool) (s : State) : State :=
  let s := pushWord s.pc s
  let s := push (pushedStatus b s.p) s
  let s := s.setP (setFlag .i true s.p)
  let target := busRead16 vector s
  target.2.setPc target.1

/-- The return of RTI (R323, R508): status, then `PC`, as they were pushed. -/
def returnFromInterrupt (s : State) : State :=
  let v := pull s
  let s := v.2.setP (pulledStatus v.1)
  let target := pullWord s
  target.2.setPc target.1

/-- `CpuIrq` (R502): nothing at all when `P.I` is set. -/
def cpuIrq (s : State) : State :=
  if flag .i s.p then s else (takeInterrupt irqVector false s).charge 7

/-- `CpuNmi` (R504). -/
def cpuNmi (s : State) : State := (takeInterrupt nmiVector false s).charge 7

/-! ## Reset (R474, R475, R510) -/

/-- `CpuReset` (R510). -/
def cpuReset (s : State) : State :=
  let target := busRead16 resetVector s
  { target.2 with pc := target.1, a := 0, x := 0, y := 0, sp := 0xFD, p := 0x24, cycles := 7 }

/-- `BusReset` (R475): RAM and the button registers stay. -/
def busReset (s : State) : State :=
  { s with dma := .idle, pad0 := { s.pad0 with shift := 0 }, pad1 := { s.pad1 with shift := 0 } }

/-- `SystemReset` (R474). -/
def systemReset (s : State) : State :=
  let s := cpuReset s
  let s := s.setPpu s.ppu.reset
  (busReset s).setTick 0

/-! ## The DMA engine (R462, R463) -/

/-- The picture unit with one byte of OAM stored by the DMA engine: not through port 4 (R463). -/
def Ppu.dmaStore (p : Ppu) (i : Byte) (v : Byte) : Ppu := { p with oam := p.oam.write i.toNat v }

/-- `DmaStep(tick)` (R462), one micro-step; `tick` is the state's own. -/
def dmaStep (s : State) : State :=
  if s.dma.dummy then
    if s.tick % 2 = 1 then s.setDma { s.dma with dummy := false } else s
  else if s.tick % 2 = 0 then
    let r := busRead (wordOf s.dma.page s.dma.addr) s
    r.2.setDma { r.2.dma with data := r.1 }
  else
    let s := s.setPpu (s.ppu.dmaStore s.dma.addr s.dma.data)
    let next := s.dma.addr + 1
    if next = 0 then s.setDma { s.dma with addr := next, active := false, dummy := true }
    else s.setDma { s.dma with addr := next }

end Sys2Proof.Machine
end

