-- ==== Sys2Proof/Machine/Operands.lean ====
section
/-! DEFINITION. The 13 addressing modes and operand access (spec/40_addressing_modes.md R161 to R174, R178). The
operand bytes are in the `Operand`: the fetch has read them and moved `PC` past them (R32, R179). -/

namespace Sys2Proof.Machine

/-- Where an operand is (R174, R178). -/
inductive Location where
  /-- no operand -/
  | absent
  /-- register `A` -/
  | accumulator
  /-- the immediate byte, read with the instruction's bytes -/
  | immediate (value : Byte)
  /-- the byte at an effective address -/
  | memory (ea : Word)
  deriving DecidableEq, Repr

/-- What an addressing-mode operation answers (R133 step 4): where the operand is, whether adding the index
changed the high byte of the address, and the state after the mode's own bus reads. -/
structure Resolved where
  location : Location
  crossed : Bool
  state : State

/-- An indexed effective address (R169, R170, R173): it wraps at 16 bits, and `crossed` compares high bytes. -/
def indexed (base : Word) (index : Byte) (s : State) : Resolved :=
  let ea := base + zext16 index
  { location := .memory ea, crossed := hiByte ea != hiByte base, state := s }

/-- A two-byte pointer in page zero; the second byte wraps within the page (R172, R173). -/
def zeroPagePointer (zp : Byte) (s : State) : Word × State :=
  let lo := busRead (zext16 zp) s
  let hi := busRead (zext16 (zp + 1)) lo.2
  (wordOf hi.1 lo.1, hi.2)

/-- The pointer of IND: its second byte comes from the same page (R171). -/
def indirectPointer (ptr : Word) (s : State) : Word × State :=
  let lo := busRead ptr s
  let hi := busRead (wordOf (hiByte ptr) (loByte ptr + 1)) lo.2
  (wordOf hi.1 lo.1, hi.2)

/-- `Mode_<name>()` for each of the 13 modes (R161 to R173). -/
def resolve (o : Operand) (s : State) : Resolved :=
  match o with
  | .imp => { location := .absent, crossed := false, state := s }
  | .acc => { location := .accumulator, crossed := false, state := s }
  | .imm v => { location := .immediate v, crossed := false, state := s }
  | .zp0 zp => { location := .memory (zext16 zp), crossed := false, state := s }
  | .zpx zp => { location := .memory (zext16 (zp + s.x)), crossed := false, state := s }
  | .zpy zp => { location := .memory (zext16 (zp + s.y)), crossed := false, state := s }
  | .rel d => { location := .memory (s.pc + sext16 d), crossed := false, state := s }
  | .abs addr => { location := .memory addr, crossed := false, state := s }
  | .abx base => indexed base s.x s
  | .aby base => indexed base s.y s
  | .ind ptr => let r := indirectPointer ptr s; { location := .memory r.1, crossed := false, state := r.2 }
  | .izx zp => let r := zeroPagePointer (zp + s.x) s; { location := .memory r.1, crossed := false, state := r.2 }
  | .izy zp => let r := zeroPagePointer zp s; indexed r.1 s.y r.2

/-- `Fetch(mode, ea)` (R174). No instruction fetches an absent operand; it reads as 0. -/
def fetchOperand (l : Location) (s : State) : Byte × State :=
  match l with
  | .absent => (0, s)
  | .accumulator => (s.a, s)
  | .immediate v => (v, s)
  | .memory ea => busRead ea s

/-- `WriteBack(mode, ea, r)` (R178), and the write of a store. Only `A` and memory are ever written. -/
def writeOperand (l : Location) (r : Byte) (s : State) : State :=
  match l with
  | .absent | .immediate _ => s
  | .accumulator => s.setA r
  | .memory ea => busWrite ea r s

/-- An operand read by an instruction: the mode's operation, then the fetch. -/
structure OperandRead where
  value : Byte
  location : Location
  crossed : Bool
  state : State

/-- The mode's operation and the one operand read of R174. -/
def readOperand (o : Operand) (s : State) : OperandRead :=
  let m := resolve o s
  let r := fetchOperand m.location m.state
  { value := r.1, location := m.location, crossed := m.crossed, state := r.2 }

/-- The address JMP goes to, which it does not read (R289). -/
def targetAddress (l : Location) : Word :=
  match l with
  | .memory ea => ea
  | .absent | .accumulator | .immediate _ => 0

end Sys2Proof.Machine
end

