-- ==== Sys2Proof/Machine/Timing.lean ====
section
/-! DEFINITION. Base cycle costs (spec/70_reset_and_hazards.md R561, by class and addressing mode;
spec/30_encoding.md R141 for the unassigned opcodes). `cycles` is bookkeeping: no rule reads it (R560). -/

namespace Sys2Proof.Machine

/-- Read instructions (R561): LDA LDX LDY ADC SBC AND ORA EOR CMP CPX CPY BIT. ABX, ABY and IZY cost one more on a
page crossing (R175), and only they can report one. -/
def readCycles (o : Operand) (crossed : Bool) : Nat :=
  let base := match o with
    | .zp0 _ => 3
    | .zpx _ | .zpy _ => 4
    | .abs _ | .abx _ | .aby _ => 4
    | .izx _ => 6
    | .izy _ => 5
    | .imp | .acc | .imm _ | .rel _ | .ind _ => 2
  base + crossed.toNat

/-- Store instructions (R561): a fixed cost, whether a page is crossed or not (R175). -/
def storeCycles (o : Operand) : Nat :=
  match o with
  | .zp0 _ => 3
  | .zpx _ | .zpy _ => 4
  | .abs _ => 4
  | .abx _ | .aby _ => 5
  | .izx _ | .izy _ => 6
  | .imp | .acc | .imm _ | .rel _ | .ind _ => 2

/-- Read-modify-write instructions (R561): a fixed cost. -/
def modifyCycles (o : Operand) : Nat :=
  match o with
  | .zp0 _ => 5
  | .zpx _ | .zpy _ => 6
  | .abs _ => 6
  | .abx _ | .aby _ => 7
  | .imp | .acc | .imm _ | .rel _ | .ind _ | .izx _ | .izy _ => 2

/-- JMP (R289, R561). -/
def jumpCycles (o : Operand) : Nat :=
  match o with
  | .ind _ => 5
  | .imp | .acc | .imm _ | .zp0 _ | .zpx _ | .zpy _ | .rel _ | .abs _ | .abx _ | .aby _ | .izx _ | .izy _ => 3

/-- `UNDOC_CYCLES` and `UNDOC_PEN` (R10, R141). -/
def undocCycles (u : UndocParams) (op : Byte) (crossed : Bool) : Nat :=
  (undocRow u op).cycles + (if (undocRow u op).penalty && crossed then 1 else 0)

end Sys2Proof.Machine
end

