-- ==== Sys2Proof/Machine/LoadStore.lean ====
section
/-! DEFINITION. Loads, stores and register transfers (spec/41_load_store_transfer.md). -/

namespace Sys2Proof.Machine

/-! ## Shared shapes -/

/-- `A <- v; SetZN(A)`. -/
def State.loadA (s : State) (v : Byte) : State := (s.setA v).setP (setZN v s.p)

/-- `X <- v; SetZN(X)`. -/
def State.loadX (s : State) (v : Byte) : State := (s.setX v).setP (setZN v s.p)

/-- `Y <- v; SetZN(Y)`. -/
def State.loadY (s : State) (v : Byte) : State := (s.setY v).setP (setZN v s.p)

/-- A read instruction: read the operand once, let `f` use it, charge the read's cost (R174, R561). -/
def readThen (o : Operand) (f : Byte → State → State) (s : State) : State :=
  let r := readOperand o s
  (f r.value r.state).charge (readCycles o r.crossed)

/-- A store of `v`: the mode's operation, then one write (R194 to R196). -/
def storeValue (o : Operand) (v : Byte) (s : State) : State :=
  let m := resolve o s
  (writeOperand m.location v m.state).charge (storeCycles o)

/-! ## Loads (R191 to R193) -/

/-- LDA (R191). -/
def execLda (o : ReadOperand) (s : State) : Result :=
  .next (readThen o.operand (fun v s => s.loadA v) s)

/-- LDX (R192). -/
def execLdx (o : LdxOperand) (s : State) : Result :=
  .next (readThen o.operand (fun v s => s.loadX v) s)

/-- LDY (R193). -/
def execLdy (o : LdyOperand) (s : State) : Result :=
  .next (readThen o.operand (fun v s => s.loadY v) s)

/-! ## Stores (R194 to R196): no flag is written -/

/-- STA (R194). -/
def execSta (o : StaOperand) (s : State) : Result := .next (storeValue o.operand s.a s)

/-- STX (R195). -/
def execStx (o : StxOperand) (s : State) : Result := .next (storeValue o.operand s.x s)

/-- STY (R196). -/
def execSty (o : StyOperand) (s : State) : Result := .next (storeValue o.operand s.y s)

/-! ## Transfers (R197 to R202): 2 cycles each, no memory access -/

/-- TAX (R197). -/
def execTax (s : State) : Result := .next ((s.loadX s.a).charge 2)

/-- TAY (R198). -/
def execTay (s : State) : Result := .next ((s.loadY s.a).charge 2)

/-- TXA (R199). -/
def execTxa (s : State) : Result := .next ((s.loadA s.x).charge 2)

/-- TYA (R200). -/
def execTya (s : State) : Result := .next ((s.loadA s.y).charge 2)

/-- TSX (R201). -/
def execTsx (s : State) : Result := .next ((s.loadX s.sp).charge 2)

/-- TXS (R202): the only transfer that writes no flag. -/
def execTxs (s : State) : Result := .next ((s.setSp s.x).charge 2)

end Sys2Proof.Machine
end

