-- ==== Sys2Proof/Machine/Arithmetic.lean ====
section
/-! DEFINITION. Arithmetic, logic, compare, bit test, increment and decrement (spec/42_arithmetic_logic.md). -/

namespace Sys2Proof.Machine

/-! ## Shared shapes -/

/-- An ALU result into `A` with its status byte. -/
def State.aluA (s : State) (r : Alu) : State := (s.setA r.result).setP r.status

/-- A read-modify-write instruction: one read, one write of the same operand (R178, R179). -/
def modify (o : Operand) (f : Byte → Byte → Alu) (s : State) : State :=
  let r := readOperand o s
  let out := f r.value r.state.p
  (writeOperand r.location out.result (r.state.setP out.status)).charge (modifyCycles o)

/-! ## Add and subtract (R223, R224) -/

/-- ADC (R223). -/
def execAdc (o : ReadOperand) (s : State) : Result :=
  .next (readThen o.operand (fun m s => s.aluA (addWithCarry s.a m s.p)) s)

/-- SBC (R224). -/
def execSbc (o : ReadOperand) (s : State) : Result :=
  .next (readThen o.operand (fun m s => s.aluA (subWithCarry s.a m s.p)) s)

/-! ## Logic (R225 to R227) -/

/-- AND (R225). -/
def execAnd (o : ReadOperand) (s : State) : Result :=
  .next (readThen o.operand (fun m s => s.loadA (s.a &&& m)) s)

/-- ORA (R226). -/
def execOra (o : ReadOperand) (s : State) : Result :=
  .next (readThen o.operand (fun m s => s.loadA (s.a ||| m)) s)

/-- EOR (R227). -/
def execEor (o : ReadOperand) (s : State) : Result :=
  .next (readThen o.operand (fun m s => s.loadA (s.a ^^^ m)) s)

/-! ## Compare and bit test (R228 to R231): no register is written -/

/-- CMP (R228). -/
def execCmp (o : ReadOperand) (s : State) : Result :=
  .next (readThen o.operand (fun m s => s.setP (compareFlags s.a m s.p)) s)

/-- CPX (R229). -/
def execCpx (o : IndexCompareOperand) (s : State) : Result :=
  .next (readThen o.operand (fun m s => s.setP (compareFlags s.x m s.p)) s)

/-- CPY (R230). -/
def execCpy (o : IndexCompareOperand) (s : State) : Result :=
  .next (readThen o.operand (fun m s => s.setP (compareFlags s.y m s.p)) s)

/-- BIT (R231). -/
def execBit (o : BitOperand) (s : State) : Result :=
  .next (readThen o.operand (fun m s => s.setP (bitFlags s.a m s.p)) s)

/-! ## Increment and decrement (R232 to R237) -/

/-- INC (R232). -/
def execInc (o : StepOperand) (s : State) : Result := .next (modify o.operand incOp s)

/-- DEC (R233). -/
def execDec (o : StepOperand) (s : State) : Result := .next (modify o.operand decOp s)

/-- INX (R234). -/
def execInx (s : State) : Result := .next ((s.loadX (s.x + 1)).charge 2)

/-- INY (R235). -/
def execIny (s : State) : Result := .next ((s.loadY (s.y + 1)).charge 2)

/-- DEX (R236). -/
def execDex (s : State) : Result := .next ((s.loadX (s.x - 1)).charge 2)

/-- DEY (R237). -/
def execDey (s : State) : Result := .next ((s.loadY (s.y - 1)).charge 2)

end Sys2Proof.Machine
end

