-- ==== Sys2Proof/Machine/Branch.lean ====
section
/-! DEFINITION. Branches, jumps, calls and returns (spec/44_branch_jump.md). -/

namespace Sys2Proof.Machine

/-- `Exec_Bxx` (R280) with the branch's base cost of 2: 3 when taken, 4 when the target's page is not that of the
next instruction, whose address `PC` holds. -/
def branch (taken : Bool) (d : Byte) (s : State) : State :=
  if taken then
    let target := targetAddress (resolve (.rel d) s).location
    (s.setPc target).charge (3 + (hiByte target != hiByte s.pc).toNat)
  else s.charge 2

/-- BCC: branch if carry clear (R281). -/
def execBcc (d : Byte) (s : State) : Result := .next (branch (!flag .c s.p) d s)

/-- BCS: branch if carry set (R282). -/
def execBcs (d : Byte) (s : State) : Result := .next (branch (flag .c s.p) d s)

/-- BEQ: branch if zero set (R283). -/
def execBeq (d : Byte) (s : State) : Result := .next (branch (flag .z s.p) d s)

/-- BNE: branch if zero clear (R284). -/
def execBne (d : Byte) (s : State) : Result := .next (branch (!flag .z s.p) d s)

/-- BMI: branch if negative set (R285). -/
def execBmi (d : Byte) (s : State) : Result := .next (branch (flag .n s.p) d s)

/-- BPL: branch if negative clear (R286). -/
def execBpl (d : Byte) (s : State) : Result := .next (branch (!flag .n s.p) d s)

/-- BVC: branch if overflow clear (R287). -/
def execBvc (d : Byte) (s : State) : Result := .next (branch (!flag .v s.p) d s)

/-- BVS: branch if overflow set (R288). -/
def execBvs (d : Byte) (s : State) : Result := .next (branch (flag .v s.p) d s)

/-- JMP (R289): `PC` takes the effective address, which is not read. -/
def execJmp (o : JmpOperand) (s : State) : Result :=
  let m := resolve o.operand s
  .next ((m.state.setPc (targetAddress m.location)).charge (jumpCycles o.operand))

/-- JSR (R290): pushes the address of its own last byte. -/
def execJsr (target : Word) (s : State) : Result := .next (((pushWord (s.pc - 1) s).setPc target).charge 6)

/-- RTS (R291): pulls an address and adds one. -/
def execRts (s : State) : Result :=
  let r := pullWord s
  .next ((r.2.setPc (r.1 + 1)).charge 6)

end Sys2Proof.Machine
end

