-- ==== Sys2Proof/Machine/Shift.lean ====
section
/-! DEFINITION. Shifts and rotates, in accumulator and memory forms (spec/43_shift_rotate.md). -/

namespace Sys2Proof.Machine

/-- ASL (R261). -/
def execAsl (o : ShiftOperand) (s : State) : Result := .next (modify o.operand aslOp s)

/-- LSR (R262). -/
def execLsr (o : ShiftOperand) (s : State) : Result := .next (modify o.operand lsrOp s)

/-- ROL (R263). -/
def execRol (o : ShiftOperand) (s : State) : Result := .next (modify o.operand rolOp s)

/-- ROR (R264). -/
def execRor (o : ShiftOperand) (s : State) : Result := .next (modify o.operand rorOp s)

end Sys2Proof.Machine
end

