-- ==== Sys2Proof/Machine/System.lean ====
section
/-! DEFINITION. Stack, flag and system instructions, and XXX (spec/45_stack_flags_system.md). -/

namespace Sys2Proof.Machine

/-! ## Stack pushes and pulls (R311 to R314) -/

/-- PHA (R311). -/
def execPha (s : State) : Result := .next ((push s.a s).charge 3)

/-- PHP (R312): the pushed copy has bits 4 and 5 set, `P` itself is unchanged. -/
def execPhp (s : State) : Result := .next ((push (pushedStatus true s.p) s).charge 3)

/-- PLA (R313). -/
def execPla (s : State) : Result :=
  let v := pull s
  .next ((v.2.loadA v.1).charge 4)

/-- PLP (R314). -/
def execPlp (s : State) : Result :=
  let v := pull s
  .next ((v.2.setP (pulledStatus v.1)).charge 4)

/-! ## Flag set and clear (R315 to R321): 2 cycles, one flag, nothing else -/

/-- One flag of `P` set to `v`. -/
def State.putFlag (s : State) (f : Flag) (v : Bool) : State := s.setP (setFlag f v s.p)

/-- CLC (R315). -/
def execClc (s : State) : Result := .next ((s.putFlag .c false).charge 2)

/-- CLD (R316). -/
def execCld (s : State) : Result := .next ((s.putFlag .d false).charge 2)

/-- CLI (R317). -/
def execCli (s : State) : Result := .next ((s.putFlag .i false).charge 2)

/-- CLV (R318). -/
def execClv (s : State) : Result := .next ((s.putFlag .v false).charge 2)

/-- SEC (R319). -/
def execSec (s : State) : Result := .next ((s.putFlag .c true).charge 2)

/-- SED (R320). -/
def execSed (s : State) : Result := .next ((s.putFlag .d true).charge 2)

/-- SEI (R321). -/
def execSei (s : State) : Result := .next ((s.putFlag .i true).charge 2)

/-! ## System (R322 to R325) -/

/-- BRK (R322): steps over the padding byte, then enters the handler at 0xFFFE with bit 4 set in the pushed
status. -/
def execBrk (s : State) : Result := .next ((takeInterrupt irqVector true s.advancePc).charge 7)

/-- RTI (R323). -/
def execRti (s : State) : Result := .next ((returnFromInterrupt s).charge 6)

/-- NOP (R324). -/
def execNop (s : State) : Result := .next (s.charge 2)

/-- XXX (R140, R325): the mode's own bus reads and the cycle cost, and nothing else. -/
def execXxx (op : Byte) (o : UndocOperand) (s : State) : Result :=
  let m := resolve o.operand s
  .next (m.state.charge (undocCycles s.cart.undoc op m.crossed))

end Sys2Proof.Machine
end

