-- ==== Sys2Proof/Machine/Fetch.lean ====
section
/-! DEFINITION. Fetching an instruction: steps 1 to 3 of the clock event (spec/30_encoding.md R133) and the
operand-byte reads of step 4 (spec/40_addressing_modes.md R179), each an ordinary bus read (R105). -/

namespace Sys2Proof.Machine

/-- One byte read at `PC`, which then steps over it. -/
def fetchByte (s : State) : Byte × State :=
  let r := busRead s.pc s
  (r.1, r.2.advancePc)

/-- The operand bytes of a format, low byte first. -/
def fetchOperands (f : Format) (s : State) : Instr × State :=
  match f with
  | .alone i => (i, s)
  | .skipByte i => (i, s.advancePc)
  | .oneByte g => let b := fetchByte s; (g b.1, b.2)
  | .twoBytes g =>
    let lo := fetchByte s
    let hi := fetchByte lo.2
    (g (wordOf hi.1 lo.1), hi.2)

/-- The instruction at `PC` and the state after its bytes: opcode read, `PC` advanced, `P.U <- 1` (R37), operand
bytes read. -/
def fetchInstr (s : State) : Instr × State :=
  let op := fetchByte s
  fetchOperands (formatOf s.cart.undoc op.1) (op.2.setP (setFlag .u true op.2.p))

/-- The instruction's length in bytes as `PC` moves (R130): BRK's padding byte is stepped over by its operation. -/
def codeLength (u : UndocParams) (op : Byte) : Nat := (formatOf u op).length

/-- Whether a byte can be placed at this CPU address: RAM, or program ROM of an inserted cartridge. -/
def placeable (s : State) (addr : Word) : Bool :=
  match readDevice s.cart addr with
  | .prg _ | .ram _ => true
  | .port _ | .dmaTrigger | .pad _ | .nothing => false

/-- The machine with one byte placed in RAM or program ROM from outside (the host's load, not a bus write). -/
def place (s : State) (addr : Word) (v : Byte) : State :=
  match readDevice s.cart addr with
  | .prg offset => { s with cart := { s.cart with prg := s.cart.prg.write offset v } }
  | .ram index => s.setRam (s.ram.write index v)
  | .port _ | .dmaTrigger | .pad _ | .nothing => s

/-- Consecutive bytes placed from an address on. -/
def placeAll (s : State) (addr : Word) : List Byte → State
  | [] => s
  | b :: rest => placeAll (place s addr b) (addr + 1) rest

end Sys2Proof.Machine
end

