-- ==== Sys2Proof/Machine/Step.lean ====
section
/-! DEFINITION. One step of the machine is one system tick (spec/49_dma_orchestrator.md R470): a dot of the picture
unit; on every third tick one DMA micro-step or one whole CPU instruction; then the delivery of a raised NMI line. -/

namespace Sys2Proof.Machine

/-- `CpuClock` (R133): one whole instruction. -/
def cpuClock (s : State) : Host.Outcome State Fault Refusal :=
  let f := fetchInstr s
  exec f.1 f.2

/-- Step 2 of R470: in a processor slot, the DMA engine before the CPU. -/
def processorSlot (s : State) : Host.Outcome State Fault Refusal :=
  if s.tick % 3 = 0 then
    if s.dma.active then .next (dmaStep s) else cpuClock s
  else .next s

/-- Step 3 of R470: a raised line is lowered and delivered as an NMI. -/
def deliverNmi (s : State) : State :=
  if s.ppu.nmiLine then cpuNmi (s.setPpu { s.ppu with nmiLine := false }) else s

/-- Steps 3 and 4 of R470. -/
def endTick (s : State) : State :=
  let s := deliverNmi s
  s.setTick (s.tick + 1)

/-- `SystemClock` (R470). -/
def step (s : State) : Host.Outcome State Fault Refusal :=
  match processorSlot (s.setPpu (s.ppu.clock s.cart)) with
  | .next s => .next (endTick s)
  | .fault r => .fault r
  | .refused r => .refused r

/-- The machine about to run, in its very next step, the instruction whose bits are `w` (numbered as
spec/opcode_table.json numbers them, 0 at and above `nbits`): its bytes are placed where the next fetch reads them,
as a program loaded from outside. The next tick must be a processor slot with no DMA transfer active; where `PC` is
not in RAM or ROM there is nowhere to place a byte, and `PC` becomes 0. From `State.reset` only the bytes are
placed. Assumption log 7. -/
def State.withFetchWord (s : State) (nbits w : Nat) : State :=
  let s := if s.dma.active then s.setDma .idle else s
  let s := if s.tick % 3 = 0 then s else s.setTick (s.tick - s.tick % 3)
  let s := if placeable s s.pc && placeable s (s.pc + 1) && placeable s (s.pc + 2) then s else s.setPc 0
  placeAll s s.pc (tableWordBytes nbits w)

end Sys2Proof.Machine
end

