-- ==== Sys2Proof/Machine/HostCalls.lean ====
section
/-! DEFINITION. What the host does between ticks (spec/49_dma_orchestrator.md R480, R481; spec/20_memory.md R88),
each as a function on the state. The tick itself is `step`; the reset is `systemReset`. -/

namespace Sys2Proof.Machine

/-- Insert a cartridge: done once before the first reset (R80, R480). -/
def State.insertCartridge (s : State) (c : Cartridge) : State := { s with cart := c }

/-- A launch (R481): power-on memory contents and a cartridge, then `SystemReset()`. `nt`, `pt`, `pal`, `oam`, `fb`
and `ram` may be anything (R541); every other field is what the reset makes it, and the buttons are 0 (R88). -/
def launch (c : Cartridge) (ram nt pt pal oam : Memory 8) (fb : Memory 6) : State :=
  systemReset { State.reset with cart := c, ram := ram, ppu := .afterReset nt pt pal oam fb }

/-- The host's button write: the given bits are ORed into the button register (R88). -/
def State.orButtons (s : State) (second : Bool) (bits : Byte) : State :=
  s.setPad second { s.pad second with buttons := (s.pad second).buttons ||| bits }

/-- The host's assignment of a button register (R88). -/
def State.assignButtons (s : State) (second : Bool) (v : Byte) : State :=
  s.setPad second { s.pad second with buttons := v }

/-- The host's read of a button register (R480). -/
def State.readButtons (s : State) (second : Bool) : Byte := (s.pad second).buttons

/-- The host clears `frame_complete` after reading it (R353, R480). -/
def State.clearFrameComplete (s : State) : State := s.setPpu { s.ppu with frameComplete := false }

/-- One pixel of the frame buffer as a colour index (R438). -/
def State.pixel (s : State) (y x : Nat) : Colour := s.ppu.fb.read (256 * y + x)

/-- One pixel as the host's raw pixel buffer holds it: a 32-bit colour (R438). -/
def State.pixelRgb (s : State) (y x : Nat) : BitVec 32 := Config.paletteRgb (s.pixel y x)

/-- The host's diagnostic read of the picture unit's address space: no side effect (R480). -/
def State.inspectPpu (s : State) (a : PpuAddr) : Byte := s.ppu.read s.cart a

end Sys2Proof.Machine
end

