-- ==== Sys2Proof/Safety.lean ====
section
/-! DEFINITION. What a sound state and a safe run are, in the terms that claims use. `State.Sound` collects the
ranges and invariants the spec gives to fields that plain data cannot carry in their types. -/

namespace Sys2Proof.Machine

/-- The cartridge's arrays are canonical and lie inside the sizes of R80. -/
def Cartridge.sound (c : Cartridge) : Bool :=
  c.prg.wf (c.prgBanks * 16384) && c.chr.wf (max c.chrBanks 1 * 8192)

/-- The engine's idle state has `dma_dummy = 1` and offset 0 (R460, R462), and an unserved alignment delay comes
before the first byte (R461, R462). -/
def Dma.sound (d : Dma) : Bool := (d.active || d.dummy) && (!d.dummy || d.addr == 0)

/-- The picture unit: its memories are canonical and lie inside the sizes of R354; the dot is one of the grid
(R353, R402); the unused bits of `status` are 0 (R351); the sprite buffer has 8 records of which at most 8 are valid
(R401). -/
def Ppu.sound (p : Ppu) : Bool :=
  p.nt.wf 0x800 && p.pt.wf 0x2000 && p.pal.wf 0x20 && p.oam.wf 0x100 && p.fb.wf (240 * 256) &&
  decide (-1 ≤ p.scanline ∧ p.scanline ≤ 260) && decide (p.cycle ≤ 340) &&
  (p.status &&& 0x1F == 0) && (p.sprites.slots.length == 8) && decide (p.sprites.count ≤ 8)

/-- A sound state: memories canonical and inside their sizes; `P.U = 1` (R37) and `P.B = 0` (R38); the engine and
the picture unit sound; the NMI line low, as it is between ticks (R472). -/
def State.Sound (s : State) : Bool :=
  s.ram.wf 0x800 && flag .u s.p && !flag .b s.p && s.dma.sound && s.ppu.sound && !s.ppu.nmiLine && s.cart.sound

/-- The result is a next state: the machine did not stop. -/
def Completes (r : Result) : Prop := ∃ t, r = .next t

/-- A run of `n` ticks that never stops: the states after each are next states. -/
def RunsTo (n : Nat) (s t : State) : Prop :=
  match n with
  | 0 => s = t
  | n + 1 => ∃ u, step s = .next u ∧ RunsTo n u t

end Sys2Proof.Machine
end

