-- ==== Sys2Proof/WellFormed.lean ====
section
/-! DEFINITION. Which instructions are rows of spec/opcode_table.json. For an assigned opcode the operand types
of `Instr` leave nothing to check; XXX must carry an unassigned opcode byte and an operand in that byte's mode. -/

namespace Sys2Proof

/-- The opcode byte is one of the 105 that the matrix of R135 leaves unassigned (R131, R140). -/
def unassigned (op : Byte) : Bool := (assignedFormat op).isNone

/-- The instruction is a row of the opcode table with an operand of the row's format (R132, R135, R141); `u` is what
the run makes of the unassigned opcodes. -/
def Instr.wellFormed (i : Instr) (u : UndocParams) : Bool :=
  match i with
  | .xxx op o => unassigned op && o.mode == undocMode u op
  | .lda _ | .ldx _ | .ldy _ | .sta _ | .stx _ | .sty _ | .tax | .tay | .txa | .tya
  | .tsx | .txs | .adc _ | .sbc _ | .and _ | .ora _ | .eor _ | .cmp _ | .cpx _ | .cpy _
  | .bit _ | .inc _ | .dec _ | .inx | .iny | .dex | .dey | .asl _ | .lsr _ | .rol _
  | .ror _ | .bcc _ | .bcs _ | .beq _ | .bne _ | .bmi _ | .bpl _ | .bvc _ | .bvs _ | .jmp _
  | .jsr _ | .rts | .pha | .php | .pla | .plp | .clc | .cld | .cli | .clv
  | .sec | .sed | .sei | .brk | .rti | .nop => true

end Sys2Proof
end

