-- ==== Sys2Proof/Certificates/Slice0/Obligations.lean ====
section
/-! DEFINITION. The statements for the provers, with the vocabulary they share. OBLIGATIONS.json lists them. -/

namespace Sys2Proof.Claims

open Sys2Proof.Machine

/-! ## Memory and the frame -/

/-- Two CPU addresses of one byte: equal, or mirrors of one byte of RAM (R76). -/
def SameCell (a b : Word) : Prop := a = b ∨ (a ≤ 0x1FFF ∧ b ≤ 0x1FFF ∧ a &&& 0x07FF = b &&& 0x07FF)

/-- Every byte of RAM and ROM reads as before. -/
def SameMemory (s t : State) : Prop := ∀ a, t.memByte a = s.memByte a

/-- Every byte of RAM and ROM reads as before, except the bytes at the listed addresses and their mirrors. -/
def SameMemoryOutside (stored : List Word) (s t : State) : Prop :=
  ∀ a, (∀ b ∈ stored, ¬SameCell a b) → t.memByte a = s.memByte a

/-- The DMA engine, both controllers, the picture unit and the count of unanswered reads are unchanged. -/
def SameDevices (s t : State) : Prop :=
  t.dma = s.dma ∧ t.pad0 = s.pad0 ∧ t.pad1 = s.pad1 ∧ t.ppu = s.ppu ∧ t.openReads = s.openReads

/-- The cartridge and the tick counter are unchanged, as by every instruction. -/
def SameHost (s t : State) : Prop := t.cart = s.cart ∧ t.tick = s.tick

/-- Nothing outside the CPU's own registers changed. -/
def RegistersOnly (s t : State) : Prop := SameMemory s t ∧ t.ram = s.ram ∧ SameDevices s t ∧ SameHost s t

/-- Every flag but the listed ones is unchanged. -/
def FlagsKept (written : List Flag) (s t : State) : Prop := ∀ f, f ∉ written → flag f t.p = flag f s.p

/-- `SetZN(r)` (R180): Z says `r` is zero, N is bit 7 of `r`. -/
def ZeroNegativeOf (r : Byte) (t : State) : Prop :=
  flag .z t.p = decide (r.toNat = 0) ∧ flag .n t.p = decide (0x80 ≤ r.toNat)

/-! ## Operands -/

/-- The base cycles of a read instruction and its page-cross penalty (R561). -/
def readCost (o : Operand) (crossed : Bool) : Nat :=
  match o with
  | .imm _ => 2
  | .zp0 _ => 3
  | .zpx _ | .zpy _ | .abs _ => 4
  | .abx _ | .aby _ => 4 + crossed.toNat
  | .izx _ => 6
  | .izy _ => 5 + crossed.toNat
  | .imp | .acc | .rel _ | .ind _ => 0

/-- The cycles of a store (R561). -/
def storeCost (o : Operand) : Nat :=
  match o with
  | .zp0 _ => 3
  | .zpx _ | .zpy _ | .abs _ => 4
  | .abx _ | .aby _ => 5
  | .izx _ | .izy _ => 6
  | .imp | .acc | .imm _ | .rel _ | .ind _ => 0

/-- The cycles of a read-modify-write instruction (R561). -/
def modifyCost (o : Operand) : Nat :=
  match o with
  | .acc => 2
  | .zp0 _ => 5
  | .zpx _ | .abs _ => 6
  | .abx _ => 7
  | .imp | .imm _ | .zpy _ | .rel _ | .aby _ | .ind _ | .izx _ | .izy _ => 0

/-- What every read instruction leaves: `S`, `PC`, all of memory, the DMA engine as they were; the other devices as
the one operand read leaves them; its cycles. -/
def AfterRead (o : Operand) (s t : State) : Prop :=
  t.sp = s.sp ∧ t.pc = s.pc ∧ SameMemory s t ∧ t.ram = s.ram ∧ t.dma = s.dma ∧ SameHost s t ∧
  t.ppu = (readOperand o s).state.ppu ∧ t.pad0 = (readOperand o s).state.pad0 ∧
  t.pad1 = (readOperand o s).state.pad1 ∧ t.openReads = (readOperand o s).state.openReads ∧
  t.cycles = s.cycles + readCost o (readOperand o s).crossed

/-- `v` was written to address `ea`, once, and nothing else was: in RAM the byte reads back, every other byte of
memory reads as before (all of it when `ea` is above RAM), and the devices are as a bus write of `v` leaves them. -/
def Stored (ea : Word) (v : Byte) (s t : State) : Prop :=
  (ea ≤ 0x1FFF → t.memByte ea = some v) ∧ SameMemoryOutside [ea] s t ∧ (0x1FFF < ea → SameMemory s t) ∧
  t.dma = (busWrite ea v s).dma ∧ t.pad0 = (busWrite ea v s).pad0 ∧ t.pad1 = (busWrite ea v s).pad1 ∧
  t.ppu = (busWrite ea v s).ppu ∧ t.openReads = s.openReads ∧ SameHost s t

/-- What a store of `v` leaves: every register but the cycle counter as it was. -/
def AfterStore (o : Operand) (v : Byte) (s t : State) : Prop :=
  (∃ ea, (resolve o s).location = .memory ea ∧ Stored ea v s t) ∧
  t.a = s.a ∧ t.x = s.x ∧ t.y = s.y ∧ t.sp = s.sp ∧ t.pc = s.pc ∧ t.p = s.p ∧ t.cycles = s.cycles + storeCost o

/-- A result `r` written back where the operand came from (R178): into `A`, or into the byte that was read. -/
def WrittenBack (o : Operand) (r : Byte) (s t : State) : Prop :=
  match (readOperand o s).location with
  | .accumulator => t.a = r ∧ RegistersOnly s t
  | .memory ea => t.a = s.a ∧ Stored ea r (readOperand o s).state t
  | .absent | .immediate _ => False

/-- What a read-modify-write instruction with result `r` leaves. -/
def AfterModify (o : Operand) (r : Byte) (s t : State) : Prop :=
  WrittenBack o r s t ∧ t.x = s.x ∧ t.y = s.y ∧ t.sp = s.sp ∧ t.pc = s.pc ∧ t.cycles = s.cycles + modifyCost o

/-- The eight forms of an accumulator instruction and their opcode bytes. -/
def ReadForms (mk : ReadOperand → Instr) (imm zp0 zpx abs abx aby izx izy : Byte) : Prop :=
  ∀ (b : Byte) (w : Word),
    encode (mk (.imm b)) = [imm, b] ∧ encode (mk (.zp0 b)) = [zp0, b] ∧ encode (mk (.zpx b)) = [zpx, b] ∧
    encode (mk (.abs w)) = [abs, loByte w, hiByte w] ∧ encode (mk (.abx w)) = [abx, loByte w, hiByte w] ∧
    encode (mk (.aby w)) = [aby, loByte w, hiByte w] ∧ encode (mk (.izx b)) = [izx, b] ∧
    encode (mk (.izy b)) = [izy, b]

/-- The three forms of CPX and CPY and their opcode bytes. -/
def IndexCompareForms (mk : IndexCompareOperand → Instr) (imm zp0 abs : Byte) : Prop :=
  ∀ (b : Byte) (w : Word),
    encode (mk (.imm b)) = [imm, b] ∧ encode (mk (.zp0 b)) = [zp0, b] ∧
    encode (mk (.abs w)) = [abs, loByte w, hiByte w]

/-- The four memory forms of INC and DEC and their opcode bytes. -/
def StepForms (mk : StepOperand → Instr) (zp0 zpx abs abx : Byte) : Prop :=
  ∀ (b : Byte) (w : Word),
    encode (mk (.zp0 b)) = [zp0, b] ∧ encode (mk (.zpx b)) = [zpx, b] ∧
    encode (mk (.abs w)) = [abs, loByte w, hiByte w] ∧ encode (mk (.abx w)) = [abx, loByte w, hiByte w]

/-- The five forms of a shift or rotate and their opcode bytes. -/
def ShiftForms (mk : ShiftOperand → Instr) (acc zp0 zpx abs abx : Byte) : Prop :=
  ∀ (b : Byte) (w : Word),
    encode (mk .acc) = [acc] ∧ encode (mk (.zp0 b)) = [zp0, b] ∧ encode (mk (.zpx b)) = [zpx, b] ∧
    encode (mk (.abs w)) = [abs, loByte w, hiByte w] ∧ encode (mk (.abx w)) = [abx, loByte w, hiByte w]

/-- A mode that yields address `ea` (reduced to 16 bits) with no bus side effect. -/
def AtAddress (r : Resolved) (ea : Nat) (crossed : Bool) (s : State) : Prop :=
  r.location = .memory (BitVec.ofNat 16 ea) ∧ r.crossed = crossed ∧ r.state = s

/-- A byte read as two's complement and extended to 16 bits, as a number (`sext_16` of R12). -/
def signExtended (d : Byte) : Nat := if d.toNat < 0x80 then d.toNat else 0xFF00 + d.toNat

/-- The 16-bit value of two bytes of RAM. -/
def ramWord (s : State) (lo hi : Nat) : Nat := 256 * (s.ram.read hi).toNat + (s.ram.read lo).toNat

/-! ## Groups of instructions of one shape -/

/-- A comparison of `reg` with its operand: C says `reg` is not below, Z that they are equal, N is bit 7 of the
difference modulo 256; no register changes. -/
def ComparesRegister (i : Instr) (o : Operand) (reg : Byte) (s : State) : Prop :=
  ∃ t, exec i s = .next t ∧
    flag .c t.p = decide ((readOperand o s).value.toNat ≤ reg.toNat) ∧
    ZeroNegativeOf (reg - (readOperand o s).value) t ∧ FlagsKept [.c, .z, .n] s t ∧
    t.a = s.a ∧ t.x = s.x ∧ t.y = s.y ∧ AfterRead o s t

/-- An accumulator instruction that combines `A` with its operand bit by bit. -/
def Combines (mk : ReadOperand → Instr) (f : Bool → Bool → Bool) : Prop :=
  ∀ (o : ReadOperand) (s : State), ∃ t, exec (mk o) s = .next t ∧
    (∀ i : Fin 8, t.a.getLsbD i = f (s.a.getLsbD i) ((readOperand o.operand s).value.getLsbD i)) ∧
    ZeroNegativeOf t.a t ∧ FlagsKept [.z, .n] s t ∧ t.x = s.x ∧ t.y = s.y ∧ AfterRead o.operand s t

/-- An instruction that adds `n` to its operand byte, modulo 256, and writes it back; C and V stay. -/
def AddsToByte (mk : StepOperand → Instr) (n : Nat) : Prop :=
  ∀ (o : StepOperand) (s : State), s.Sound = true → ∃ t r, exec (mk o) s = .next t ∧
    r.toNat = ((readOperand o.operand s).value.toNat + n) % 256 ∧ ZeroNegativeOf r t ∧
    FlagsKept [.z, .n] s t ∧ AfterModify o.operand r s t

/-- A shift or rotate whose result and carry out stand in relation `rel` to its operand and carry in. -/
def Shifts (mk : ShiftOperand → Instr) (rel : Nat → Nat → Nat → Nat → Prop) : Prop :=
  ∀ (o : ShiftOperand) (s : State), s.Sound = true → ∃ t r, exec (mk o) s = .next t ∧
    rel (readOperand o.operand s).value.toNat (flag .c s.p).toNat r.toNat (flag .c t.p).toNat ∧
    ZeroNegativeOf r t ∧ FlagsKept [.c, .z, .n] s t ∧ AfterModify o.operand r s t

/-- A conditional branch with opcode byte `op` on condition `cond` (R280). -/
def Branches (mk : Byte → Instr) (op : Byte) (cond : State → Bool) : Prop :=
  ∀ (d : Byte) (s : State), encode (mk d) = [op, d] ∧ ∃ t, exec (mk d) s = .next t ∧
    (cond s = true → t.pc.toNat = (s.pc.toNat + signExtended d) % 0x10000 ∧
      t.cycles = s.cycles + (if t.pc.toNat / 0x100 = s.pc.toNat / 0x100 then 3 else 4)) ∧
    (cond s = false → t.pc = s.pc ∧ t.cycles = s.cycles + 2) ∧
    t.a = s.a ∧ t.x = s.x ∧ t.y = s.y ∧ t.sp = s.sp ∧ t.p = s.p ∧ RegistersOnly s t

/-- An instruction with opcode byte `op` that sets one flag to `v` and does nothing else, in 2 cycles. -/
def WritesFlag (i : Instr) (op : Byte) (f : Flag) (v : Bool) : Prop :=
  encode i = [op] ∧ ∀ s : State, ∃ t, exec i s = .next t ∧ flag f t.p = v ∧ FlagsKept [f] s t ∧
    t.a = s.a ∧ t.x = s.x ∧ t.y = s.y ∧ t.sp = s.sp ∧ t.pc = s.pc ∧ t.cycles = s.cycles + 2 ∧ RegistersOnly s t

/-- A one-byte, two-cycle instruction that only puts a byte computed from the registers into `X` or `Y` or `A`, with
Z and N from it: `value` is that byte, `a`, `x`, `y` what the three registers become. -/
def WritesRegister (i : Instr) (op : Byte) (value a x y : State → Byte) : Prop :=
  encode i = [op] ∧ ∀ s : State, ∃ t, exec i s = .next t ∧ t.a = a s ∧ t.x = x s ∧ t.y = y s ∧
    ZeroNegativeOf (value s) t ∧ FlagsKept [.z, .n] s t ∧ t.sp = s.sp ∧ t.pc = s.pc ∧
    t.cycles = s.cycles + 2 ∧ RegistersOnly s t

/-- The registers an instruction that only touches the stack pointer, `PC` and `P` leaves alone. -/
def SameAXY (s t : State) : Prop := t.a = s.a ∧ t.x = s.x ∧ t.y = s.y

/-- An instruction with opcode byte `op` that pushes a byte computed from the registers and changes no other. -/
def PushesByte (i : Instr) (op : Byte) (v : State → Byte) : Prop :=
  encode i = [op] ∧ ∀ s : State, s.Sound = true → ∃ t, exec i s = .next t ∧
    t.memByte (0x0100 ||| zext16 s.sp) = some (v s) ∧ SameMemoryOutside [0x0100 ||| zext16 s.sp] s t ∧
    t.sp = s.sp - 1 ∧ SameAXY s t ∧ t.p = s.p ∧ t.pc = s.pc ∧ t.cycles = s.cycles + 3 ∧ SameDevices s t ∧
    SameHost s t

/-- The byte of the stack page at stack pointer `sp`. -/
def stackByte (s : State) (sp : Byte) : Byte := s.ram.read (0x0100 + sp.toNat)

/-- The little-endian word a cartridge holds at a vector (R100, R81). -/
def vectorWord (c : Cartridge) (vector : Word) : Word :=
  wordOf (c.prgByte ((vector + 1) &&& c.prgMask).toNat) (c.prgByte (vector &&& c.prgMask).toNat)

/-- Trap entry from `s` with return address `ret` (R505): the three pushed bytes, `S`, `P.I`, `PC`, and the frame
inside the CPU and memory. -/
def Entered (vector : Word) (b : Bool) (ret : Word) (s t : State) : Prop :=
  t.memByte (0x0100 ||| zext16 s.sp) = some (hiByte ret) ∧
  t.memByte (0x0100 ||| zext16 (s.sp - 1)) = some (loByte ret) ∧
  t.memByte (0x0100 ||| zext16 (s.sp - 2)) = some ((s.p &&& 0xEF) ||| 0x20 ||| (if b then 0x10 else 0x00)) ∧
  SameMemoryOutside [0x0100 ||| zext16 s.sp, 0x0100 ||| zext16 (s.sp - 1), 0x0100 ||| zext16 (s.sp - 2)] s t ∧
  t.sp = s.sp - 3 ∧ flag .i t.p = true ∧ FlagsKept [.i] s t ∧ t.pc = vectorWord s.cart vector ∧ SameAXY s t

/-! ## Fetch -/

/-- Plain memory holds these bytes from address `a` on (addresses wrap at 16 bits). -/
def CodeAt (s : State) : Word → List Byte → Prop
  | _, [] => True
  | a, b :: bs => s.memByte a = some b ∧ CodeAt s (a + 1) bs

/-- The state an instruction of `n` bytes starts to execute in: `PC` past it and `P.U` set (R32, R37). -/
def fetched (n : Nat) (s : State) : State := (s.setPc (s.pc + BitVec.ofNat 16 n)).setP (setFlag .u true s.p)

/-- Steps 3 and 4 of the tick after the processor slot's result (R470). -/
def afterSlot : Result → Result
  | .next t => .next (endTick t)
  | .fault r => .fault r
  | .refused r => .refused r

/-- The picture unit one dot later, the rest of the machine as it is: step 1 of the tick (R470). -/
def afterDot (s : State) : State := s.setPpu (s.ppu.clock s.cart)

/-- The machine after `n` ticks; it stays where a tick would stop, which none does. -/
def run : Nat → State → State
  | 0, s => s
  | n + 1, s =>
    match step s with
    | .next t => run n t
    | .fault _ => s
    | .refused _ => s

/-! ## Controllers and the picture unit -/

/-- The picture unit with every register and both pipelines at their reset values, and the given memories (R356). -/
def clearedUnit (nt pt pal oam : Memory 8) (fb : Memory 6) : Ppu :=
  { ctrl := 0, mask := 0, status := 0, v := 0, t := 0, fineX := 0, w := false, dataBuffer := 0, oamAddr := 0
    scanline := 0, cycle := 0, nmiLine := false, frameComplete := false
    bg := { nextId := 0, nextAttr := 0, nextLsb := 0, nextMsb := 0, patLo := 0, patHi := 0, attLo := 0, attHi := 0 }
    sprites :=
      { slots := List.replicate 8 { y := 0xFF, id := 0xFF, attr := 0xFF, x := 0xFF, patLo := 0, patHi := 0 }
        count := 0, zeroPossible := false, zeroRendered := false }
    nt := nt, pt := pt, pal := pal, oam := oam, fb := fb }

/-- The byte of the `n`-th of a sequence of reads of one address, counted from 0. -/
def nthRead (a : Word) : Nat → State → Byte
  | 0, s => (busRead a s).1
  | n + 1, s => nthRead a n (busRead a s).2

/-- The physical nametable behind an address (R374). -/
def physicalTable (m : Mirroring) (a : PpuAddr) : Nat :=
  match m with
  | .vertical => a.toNat / 0x400 % 2
  | .horizontal => a.toNat / 0x800 % 2

/-- The fields of a scroll/address register as numbers (R352). -/
def fineYOf (v : ScrollReg) : Nat := v.toNat / 0x1000
def nametableYOf (v : ScrollReg) : Nat := v.toNat / 0x800 % 2
def nametableXOf (v : ScrollReg) : Nat := v.toNat / 0x400 % 2
def coarseYOf (v : ScrollReg) : Nat := v.toNat / 0x20 % 32
def coarseXOf (v : ScrollReg) : Nat := v.toNat % 32

/-- A scroll/address register from its fields (R352). -/
def scrollWord (fineY nametableY nametableX coarseY coarseX : Nat) : ScrollReg :=
  BitVec.ofNat 15 (0x1000 * fineY + 0x800 * nametableY + 0x400 * nametableX + 0x20 * coarseY + coarseX)

/-- `v` after a horizontal scroll increment (R413). -/
def nextX (v : ScrollReg) : ScrollReg :=
  if coarseXOf v = 31 then scrollWord (fineYOf v) (nametableYOf v) (1 - nametableXOf v) (coarseYOf v) 0
  else scrollWord (fineYOf v) (nametableYOf v) (nametableXOf v) (coarseYOf v) (coarseXOf v + 1)

/-- `v` after a vertical scroll increment (R414). -/
def nextY (v : ScrollReg) : ScrollReg :=
  if fineYOf v < 7 then scrollWord (fineYOf v + 1) (nametableYOf v) (nametableXOf v) (coarseYOf v) (coarseXOf v)
  else if coarseYOf v = 29 then scrollWord 0 (1 - nametableYOf v) (nametableXOf v) 0 (coarseXOf v)
  else if coarseYOf v = 31 then scrollWord 0 (nametableYOf v) (nametableXOf v) 0 (coarseXOf v)
  else scrollWord 0 (nametableYOf v) (nametableXOf v) (coarseYOf v + 1) (coarseXOf v)

/-- The dot as one number, 0 at (-1, 0), 89341 at (260, 340) (R402). -/
def dotIndex (p : Ppu) : Int := (p.scanline + 1) * 341 + p.cycle

/-- The records of OAM that are on scanline `s`, in OAM order (R424). -/
def inRangeRecords (p : Ppu) (s : Int) : List Nat :=
  (List.range 64).filter fun n =>
    decide (0 ≤ s - ((p.oam.read (4 * n)).toNat : Int) ∧
      s - ((p.oam.read (4 * n)).toNat : Int) < if p.tallSprites then 16 else 8)

/-- A dot at which a pixel is composed (R402, R438). -/
abbrev VisibleDot (p : Ppu) : Prop := 0 ≤ p.scanline ∧ p.scanline ≤ 239 ∧ 1 ≤ p.cycle ∧ p.cycle ≤ 256

/-- A dot at which the background pipeline runs (R402, R410). -/
abbrev PipelineDot (p : Ppu) : Prop :=
  -1 ≤ p.scanline ∧ p.scanline ≤ 239 ∧ ((2 ≤ p.cycle ∧ p.cycle ≤ 257) ∨ (321 ≤ p.cycle ∧ p.cycle ≤ 337))

/-- The dot at which sprites are evaluated (R402, R424). -/
abbrev EvaluationDot (p : Ppu) : Prop := 0 ≤ p.scanline ∧ p.scanline ≤ 239 ∧ p.cycle = 257

/-- The dot at which sprite patterns are fetched (R402, R426). -/
abbrev SpriteFetchDot (p : Ppu) : Prop := 0 ≤ p.scanline ∧ p.scanline ≤ 239 ∧ p.cycle = 340

/-- A dot at which the valid records of the sprite buffer count down or shift (R402, R417). -/
abbrev SpriteShiftDot (p : Ppu) : Prop :=
  -1 ≤ p.scanline ∧ p.scanline ≤ 239 ∧ 2 ≤ p.cycle ∧ p.cycle ≤ 257 ∧ p.showSprites = true

/-! ### The background pipeline -/

/-- `v` with `nametable_x` and `coarse_x`, bits 10 and 4 to 0, from `t` (R415). -/
def withHorizontal (t v : ScrollReg) : ScrollReg := (v &&& 0x7BE0) ||| (t &&& 0x041F)

/-- `v` with `fine_y`, `nametable_y` and `coarse_y`, bits 14 to 11 and 9 to 5, from `t` (R416). -/
def withVertical (t v : ScrollReg) : ScrollReg := (v &&& 0x041F) ||| (t &&& 0x7BE0)

/-- `v` after the dot while rendering: an increment every eighth dot of the pipeline, both increments at dot 256, the
horizontal copy at dot 257, the vertical copy at dots 280 to 304 of scanline -1 (R402, R403, R413 to R416). -/
def scrolledAtDot (p : Ppu) : ScrollReg :=
  if -1 ≤ p.scanline ∧ p.scanline ≤ 239 then
    if p.cycle = 256 then nextY (nextX p.v)
    else if p.cycle = 257 then withHorizontal p.t p.v
    else if PipelineDot p ∧ p.cycle % 8 = 0 then nextX p.v
    else if p.scanline = -1 ∧ 280 ≤ p.cycle ∧ p.cycle ≤ 304 then withVertical p.t p.v
    else p.v
  else p.v

/-- The background pipeline shifted by one pixel where the background is shown (R417). -/
def shiftedBackground (p : Ppu) : Background :=
  if p.showBackground then
    { p.bg with patLo := p.bg.patLo <<< 1, patHi := p.bg.patHi <<< 1,
                attLo := p.bg.attLo <<< 1, attHi := p.bg.attHi <<< 1 }
  else p.bg

/-- The next tile in the low halves of the shifters, its palette number spread over all eight pixels (R412). -/
def reloaded (b : Background) : Background :=
  { b with
    patLo := (b.patLo &&& 0xFF00) ||| b.nextLsb.setWidth 16
    patHi := (b.patHi &&& 0xFF00) ||| b.nextMsb.setWidth 16
    attLo := (b.attLo &&& 0xFF00) ||| (if b.nextAttr.getLsbD 0 then 0x00FF else 0x0000)
    attHi := (b.attHi &&& 0xFF00) ||| (if b.nextAttr.getLsbD 1 then 0x00FF else 0x0000) }

/-- The byte at a picture-unit address given as a number. -/
def unitByte (c : Cartridge) (p : Ppu) (a : Nat) : Byte := p.read c (BitVec.ofNat 14 a)

/-- The attribute byte of `v`'s tile (R411). -/
def attributeByte (c : Cartridge) (p : Ppu) : Byte :=
  unitByte c p (0x23C0 + 0x800 * nametableYOf p.v + 0x400 * nametableXOf p.v + 8 * (coarseYOf p.v / 4) +
    coarseXOf p.v / 4)

/-- The address of the current row's low bit-plane byte of the fetched tile (R411). -/
def tileRow (p : Ppu) : Nat := 0x1000 * p.patternBackground.toNat + 16 * p.bg.nextId.toNat + fineYOf p.v

/-- What the fetch step of the dot makes of the pipeline `b` (R411): nametable byte (after a reload), attribute bits of
the tile's 2 by 2 quadrant, low and high pattern byte, each at its dot of eight. -/
def fetchedAtDot (c : Cartridge) (p : Ppu) (b : Background) : Background :=
  if p.cycle % 8 = 1 then { reloaded b with nextId := unitByte c p (0x2000 + p.v.toNat % 0x1000) }
  else if p.cycle % 8 = 3 then
    { b with nextAttr :=
        BitVec.ofNat 2 ((attributeByte c p).toNat / 2 ^ (4 * (coarseYOf p.v / 2 % 2) + 2 * (coarseXOf p.v / 2 % 2))) }
  else if p.cycle % 8 = 5 then { b with nextLsb := unitByte c p (tileRow p) }
  else if p.cycle % 8 = 7 then { b with nextMsb := unitByte c p (tileRow p + 8) }
  else b

/-! ### The sprite pipeline -/

/-- The sprite buffer of `q` holds the first eight records of `p`'s OAM that are on scanline `s`, in OAM order, then
records of 0xFF, with no pattern; `sprite_overflow` becomes set if there are more (R424, R425). -/
def Evaluated (s : Int) (p q : Ppu) : Prop :=
  q.sprites.slots = ((inRangeRecords p s).take 8).map (oamRecord p.oam) ++
    List.replicate (8 - (inRangeRecords p s).length)
      { y := 0xFF, id := 0xFF, attr := 0xFF, x := 0xFF, patLo := 0, patHi := 0 } ∧
  q.sprites.count = min 8 (inRangeRecords p s).length ∧
  q.sprites.zeroPossible = decide (0 ∈ inRangeRecords p s) ∧
  q.spriteOverflow = (p.spriteOverflow || decide (8 < (inRangeRecords p s).length))

/-- A record that counts down, or shifts out one pixel once its `x` is 0 (R417). -/
def shiftedRecord (r : SpriteSlot) : SpriteSlot :=
  if r.x = 0 then { r with patLo := r.patLo <<< 1, patHi := r.patHi <<< 1 } else { r with x := r.x - 1 }

/-- The row of a record on the scanline: the distance from its `y` (R426). -/
def spriteRow (p : Ppu) (r : SpriteSlot) : Int := p.scanline - r.y.toNat

/-- The record has a row within the sprite's height, "by construction" of R426. -/
def HasPatternRow (p : Ppu) (r : SpriteSlot) : Prop :=
  0 ≤ spriteRow p r ∧ spriteRow p r < if p.tallSprites then 16 else 8

/-- The address of the low bit-plane byte of row `row` of a record (R426): vertical flip turns the rows, and in 8 by 16
the two tiles, round. -/
def patternRow (p : Ppu) (r : SpriteSlot) (row : Nat) : Nat :=
  if p.tallSprites then
    let tileRow := if r.attr.getLsbD 7 then 15 - row else row
    0x1000 * (r.id.toNat % 2) + 16 * (r.id.toNat / 2 * 2 + tileRow / 8) + tileRow % 8
  else 0x1000 * p.patternSprite.toNat + 16 * r.id.toNat + (if r.attr.getLsbD 7 then 7 - row else row)

/-- The patterns of `r'` are the two bit-plane bytes of the row of the record `r`, bits in reverse order under
horizontal flip (R426). -/
def PatternFetched (c : Cartridge) (p : Ppu) (r r' : SpriteSlot) : Prop :=
  ∀ j, j < 8 → ∃ k, k = (if r.attr.getLsbD 6 then 7 - j else j) ∧
    r'.patLo.getLsbD j = (unitByte c p (patternRow p r (spriteRow p r).toNat)).getLsbD k ∧
    r'.patHi.getLsbD j = (unitByte c p (patternRow p r (spriteRow p r).toNat + 8)).getLsbD k

/-! ### The compositor -/

/-- The background's pixel value and palette at dot `c` (R430): the bits of the shifters that `fine_x` selects; 0 where
the layer is off or its left column is. -/
def backgroundDot (q : Ppu) (c : Nat) : Nat × Nat :=
  if q.showBackground = true ∧ (q.showBackgroundLeft = true ∨ 9 ≤ c) then
    (2 * (q.bg.patHi.getLsbD (15 - q.fineX.toNat)).toNat + (q.bg.patLo.getLsbD (15 - q.fineX.toNat)).toNat,
      2 * (q.bg.attHi.getLsbD (15 - q.fineX.toNat)).toNat + (q.bg.attLo.getLsbD (15 - q.fineX.toNat)).toNat)
  else (0, 0)

/-- The `i`-th record of the sprite buffer. -/
def record (q : Ppu) (i : Nat) : SpriteSlot :=
  q.sprites.slots.getD i { y := 0xFF, id := 0xFF, attr := 0xFF, x := 0xFF, patLo := 0, patHi := 0 }

/-- The next pixel of a record: bit 7 of its two shifters (R431). -/
def recordPixel (r : SpriteSlot) : Nat := 2 * (r.patHi.getLsbD 7).toNat + (r.patLo.getLsbD 7).toNat

/-- The first valid record that has counted down and is opaque at dot `c` (R431). -/
def shownSprite (q : Ppu) (c : Nat) : Option Nat :=
  if q.showSprites = true ∧ (q.showSpritesLeft = true ∨ 9 ≤ c) then
    (List.range q.sprites.count).find? fun i => decide ((record q i).x = 0 ∧ recordPixel (record q i) ≠ 0)
  else none

/-- The pixel value and palette shown at dot `c` (R431, R432): a sprite's palette is 4 plus the low two bits of its
attributes, and bit 5 of them puts it behind an opaque background. -/
def shownPixel (q : Ppu) (c : Nat) : Nat × Nat :=
  match shownSprite q c with
  | none => if (backgroundDot q c).1 = 0 then (0, 0) else backgroundDot q c
  | some i =>
    if (backgroundDot q c).1 ≠ 0 ∧ (record q i).attr.getLsbD 5 = true then backgroundDot q c
    else (recordPixel (record q i), 4 + (record q i).attr.toNat % 4)

/-! ### The transfer -/

/-- The number of DMA slots of a transfer whose first slot has tick `t` (R464): the triggering slot, three ticks
earlier, has the other parity. -/
def transferSlots (t : Nat) : Nat := if t % 2 = 1 then 513 else 514

/-- The machine at the start of a processor slot with a transfer from `page` just triggered (R461). -/
def TransferStarting (page : Byte) (s : State) : Prop :=
  s.tick % 3 = 0 ∧ s.dma.page = page ∧ s.dma.addr = 0 ∧ s.dma.active = true ∧ s.dma.dummy = true

/-- The machine just after a transfer's last slot. -/
def afterTransfer (s : State) : State := run (3 * (transferSlots s.tick - 1) + 1) s

end Sys2Proof.Claims

open Sys2Proof Sys2Proof.Machine Sys2Proof.Claims

/-! ## Encoding -/

/-- R132, R136: decoding the bytes of a well-formed instruction gives it back, and leaves the bytes after it, whatever
the run's parameters of R141. -/
def Obligations.DecodeUndoesEncode : Prop :=
  ∀ (u : UndocParams) (i : Instr) (rest : List Byte), i.wellFormed u = true →
    decode u (encode i ++ rest) = .ok (i, rest)

/-- R130 to R134: whatever the decoder reads is well formed, and its encoding is exactly the bytes read; the one byte
that is not kept is the skipped operand byte of an unassigned opcode of mode IMM, which nothing reads. -/
def Obligations.EncodeUndoesDecode : Prop :=
  ∀ (u : UndocParams) (bytes : List Byte) (i : Instr) (rest : List Byte), decode u bytes = .ok (i, rest) →
    i.wellFormed u = true ∧ ∃ used, bytes = used ++ rest ∧ used.length = (encode i).length ∧
      used.head? = some (opcode i) ∧ ((∀ op, i ≠ .xxx op .imm) → used = encode i)

/-- R140, R141: every one of the 256 opcode bytes decodes, to an instruction with that opcode byte, and is executed:
it answers a next state from every state. An opcode that the matrix leaves unassigned decodes to XXX, with an operand
in the mode that the run's parameters give it. -/
def Obligations.EveryOpcodeByteExecutes : Prop :=
  ∀ (u : UndocParams) (op b1 b2 : Byte), ∃ i rest, decode u [op, b1, b2] = .ok (i, rest) ∧ opcode i = op ∧
    i.wellFormed u = true ∧ (unassigned op = true → ∃ o, i = .xxx op o ∧ o.mode = undocMode u op) ∧
    ∀ s : State, Completes (exec i s)

/-- R145: the thirteen example encodings of the addressing modes, as the table writes their bytes. -/
def Obligations.ExampleEncodingsDecode : Prop :=
  ∀ u : UndocParams,
    decode u [0x18] = .ok (.clc, []) ∧ decode u [0x0A] = .ok (.asl .acc, []) ∧
    decode u [0xA9, 0x10] = .ok (.lda (.imm 0x10), []) ∧ decode u [0xA5, 0x10] = .ok (.lda (.zp0 0x10), []) ∧
    decode u [0xB5, 0x10] = .ok (.lda (.zpx 0x10), []) ∧ decode u [0xB6, 0x10] = .ok (.ldx (.zpy 0x10), []) ∧
    decode u [0xD0, 0xFB] = .ok (.bne 0xFB, []) ∧ decode u [0xAD, 0x34, 0x12] = .ok (.lda (.abs 0x1234), []) ∧
    decode u [0xBD, 0x34, 0x12] = .ok (.lda (.abx 0x1234), []) ∧
    decode u [0xB9, 0x34, 0x12] = .ok (.lda (.aby 0x1234), []) ∧
    decode u [0x6C, 0x34, 0x12] = .ok (.jmp (.ind 0x1234), []) ∧ decode u [0xA1, 0x10] = .ok (.lda (.izx 0x10), []) ∧
    decode u [0xB1, 0x10] = .ok (.lda (.izy 0x10), [])

/-! ## The tick -/

/-- In a processor slot without a transfer, when plain memory at `PC` holds the bytes of an instruction, the tick is
one dot, that instruction from the state with `PC` past its bytes and `P.U` set, and the end of the tick. -/
def Obligations.StepRunsDecodedInstruction : Prop :=
  ∀ (s : State) (bytes : List Byte) (i : Instr), s.tick % 3 = 0 → s.dma.active = false → CodeAt s s.pc bytes →
    decode s.cart.undoc bytes = .ok (i, []) →
    step s = afterSlot (exec i (fetched bytes.length (afterDot s)))

/-- R470: one dot; then, when the tick counter is a multiple of 3, one DMA step if a transfer is active and else one
whole instruction; then a raised line is lowered and delivered as an NMI; then the counter is increased by 1. -/
def Obligations.TickRunsDotThenSlotThenNmi : Prop :=
  ∀ s : State,
    (s.tick % 3 ≠ 0 → step s = .next (endTick (afterDot s))) ∧
    (s.tick % 3 = 0 → s.dma.active = true → step s = .next (endTick (dmaStep (afterDot s)))) ∧
    (s.tick % 3 = 0 → s.dma.active = false → step s = afterSlot (cpuClock (afterDot s))) ∧
    (s.ppu.nmiLine = false → endTick s = s.setTick (s.tick + 1)) ∧
    (s.ppu.nmiLine = true →
      ∃ t, t = cpuNmi (s.setPpu { s.ppu with nmiLine := false }) ∧ endTick s = t.setTick (s.tick + 1))

/-- R500: no instruction and no tick stops. With a cartridge that is the spec's; that a machine without one goes on too
(the statement is about any state whatever) is the model's choice, the DESIGN CHOICE of assumption log 8. -/
def Obligations.MachineNeverStops : Prop :=
  (∀ (i : Instr) (s : State), Completes (exec i s)) ∧ (∀ s : State, Completes (step s))

/-- Every tick keeps a sound state sound: memories canonical and inside their sizes, `P.U = 1` (R37), `P.B = 0`
(R38), the engine's idle form (R460), the dot on the grid (R402), the unused status bits 0 (R351), eight sprite
records of which at most eight are valid (R401), the NMI line low between ticks (R472). -/
def Obligations.StepKeepsSound : Prop :=
  ∀ s : State, s.Sound = true → ∃ t, step s = .next t ∧ t.Sound = true

/-- The state right after reset is sound. Its memories and its cartridge are the model's choice (assumption logs 5
and 6). -/
def Obligations.ResetIsSound : Prop := State.reset.Sound = true

/-- Any launch (R481): with a cartridge and any power-on memories, the machine after the reset is sound, `PC` is the
cartridge's reset vector, and every other register of the CPU, the bus, the picture unit with its pipelines, and the
Orchestrator is at its reset value (R540); the memories and the cartridge are as given. The zeros of `A`, `X`, `Y`, of
the DMA and shift registers, of the buttons and of the pipelines are the spec's own decisions D11, D18, D40 and D42.
`openReads` is the model's own counter and its 0 the model's choice (assumption log 2). -/
def Obligations.LaunchStateAfterReset : Prop :=
  ∀ (c : Cartridge) (ram nt pt pal oam : Memory 8) (fb : Memory 6), c.present = true → c.sound = true →
    ram.wf 0x800 = true → nt.wf 0x800 = true → pt.wf 0x2000 = true → pal.wf 0x20 = true → oam.wf 0x100 = true →
    fb.wf (240 * 256) = true →
    (launch c ram nt pt pal oam fb).Sound = true ∧
    launch c ram nt pt pal oam fb =
      { a := 0, x := 0, y := 0, sp := 0xFD, pc := vectorWord c 0xFFFC, p := 0x24, cycles := 7, ram := ram
        dma := { page := 0, addr := 0, data := 0, active := false, dummy := true }
        pad0 := { buttons := 0, shift := 0 }, pad1 := { buttons := 0, shift := 0 }
        ppu := clearedUnit nt pt pal oam fb, cart := c, tick := 0, openReads := 0 }

/-- R41, R356, R474, R475, R510: with a cartridge, and whatever the state before it, the system reset gives every
register of the CPU, the DMA engine, the controllers' shift registers, the picture unit with its pipelines and the
Orchestrator its reset value, and leaves RAM, the button registers, the picture unit's memories and the cartridge as
they were (and the model's own counter `openReads`); so a second reset changes nothing more. -/
def Obligations.ResetForgetsEverythingButMemories : Prop :=
  ∀ s : State, s.cart.present = true →
    systemReset s =
      { a := 0, x := 0, y := 0, sp := 0xFD, pc := vectorWord s.cart 0xFFFC, p := 0x24, cycles := 7, ram := s.ram
        dma := { page := 0, addr := 0, data := 0, active := false, dummy := true }
        pad0 := { buttons := s.pad0.buttons, shift := 0 }, pad1 := { buttons := s.pad1.buttons, shift := 0 }
        ppu := clearedUnit s.ppu.nt s.ppu.pt s.ppu.pal s.ppu.oam s.ppu.fb, cart := s.cart, tick := 0
        openReads := s.openReads } ∧
    systemReset (systemReset s) = systemReset s

/-- R441, R470, R472: a tick whose dot is (241, 1) with `enable_nmi` set ends in the NMI entry, from the state `u`
that the slot of the same tick left, so an instruction run in that tick has completed; every other tick ends by
increasing the counter and nothing else. -/
def Obligations.NmiArrivesAtVerticalBlank : Prop :=
  ∀ s : State, s.Sound = true → s.cart.present = true →
    ∃ u t, processorSlot (afterDot s) = .next u ∧ step s = .next t ∧ t.ppu.nmiLine = false ∧ t.tick = s.tick + 1 ∧
      (s.ppu.scanline = 241 ∧ s.ppu.cycle = 1 ∧ s.ppu.enableNmi = true →
        Entered 0xFFFA false u.pc u t ∧ t.cycles = u.cycles + 7 ∧ t.dma = u.dma) ∧
      (¬(s.ppu.scanline = 241 ∧ s.ppu.cycle = 1 ∧ s.ppu.enableNmi = true) → t = u.setTick (u.tick + 1))

/-- R560: the cycle counter is bookkeeping. Two machines that differ in it alone still differ in it alone one tick
later. -/
def Obligations.CyclesAreBookkeeping : Prop :=
  ∀ (s : State) (n : Nat), ∃ t m, step s = .next t ∧ step { s with cycles := n } = .next { t with cycles := m }

/-- R44, R82, R88: no tick changes the cartridge or a button register. -/
def Obligations.CartridgeAndButtonsNeverChange : Prop :=
  ∀ s : State, ∃ t, step s = .next t ∧ t.cart = s.cart ∧ t.pad0.buttons = s.pad0.buttons ∧
    t.pad1.buttons = s.pad1.buttons

/-! ## Interrupts -/

/-- R505: trap entry through either vector of ROM, with the frame: only the three stack bytes, `S`, `P.I` and `PC`
change. -/
def Obligations.InterruptEntrySavesAndVectors : Prop :=
  ∀ (vector : Word) (b : Bool) (s : State), vector = 0xFFFA ∨ vector = 0xFFFE → s.Sound = true →
    s.cart.present = true → ∃ t, t = takeInterrupt vector b s ∧
    Entered vector b s.pc s t ∧ t.cycles = s.cycles ∧ SameDevices s t ∧ SameHost s t

/-- R502: `irq` does nothing at all when `P.I` is set, and otherwise is the entry through 0xFFFE with bit 4 clear and
7 cycles; `nmi` is the entry through 0xFFFA whatever `P.I` is (R504). -/
def Obligations.IrqIsMaskedAndNmiIsNot : Prop :=
  ∀ s : State,
    (flag .i s.p = true → cpuIrq s = s) ∧
    (flag .i s.p = false → ∃ t, t = takeInterrupt 0xFFFE false s ∧ cpuIrq s = { t with cycles := t.cycles + 7 }) ∧
    (∃ t, t = takeInterrupt 0xFFFA false s ∧ cpuNmi s = { t with cycles := t.cycles + 7 })

/-- R322: BRK pushes the address two past its opcode (`PC` plus 1, since `PC` is already past the opcode) and the
status with bits 4 and 5 set, sets `P.I`, and goes to the handler at 0xFFFE, masked by nothing. -/
def Obligations.BrkEntersHandler : Prop :=
  encode .brk = [0x00] ∧ ∀ s : State, s.Sound = true → s.cart.present = true → ∃ t, exec .brk s = .next t ∧
    Entered 0xFFFE true (s.pc + 1) s t ∧ t.cycles = s.cycles + 7 ∧ SameDevices s t ∧ SameHost s t

/-- R323: RTI pulls the status (bit 4 dropped, bit 5 forced to 1), then `PC`, low byte first, used as it stands. -/
def Obligations.RtiPullsStatusThenPc : Prop :=
  encode .rti = [0x40] ∧ ∀ s : State, ∃ t, exec .rti s = .next t ∧
    t.p = (stackByte s (s.sp + 1) &&& 0xEF) ||| 0x20 ∧
    t.pc = wordOf (stackByte s (s.sp + 3)) (stackByte s (s.sp + 2)) ∧ t.sp = s.sp + 3 ∧
    t.cycles = s.cycles + 6 ∧ SameAXY s t ∧ RegistersOnly s t

/-- R508: RTI straight after an entry resumes exactly where the entry happened, with the same `P` (so the same
interrupt mask), the same `S` and the same other registers. -/
def Obligations.RtiUndoesInterruptEntry : Prop :=
  ∀ (vector : Word) (b : Bool) (s : State), vector = 0xFFFA ∨ vector = 0xFFFE → s.Sound = true →
    s.cart.present = true → ∃ t, exec .rti (takeInterrupt vector b s) = .next t ∧
    t.pc = s.pc ∧ t.p = s.p ∧ t.sp = s.sp ∧ SameAXY s t ∧ SameDevices s t

/-! ## Loads, stores, transfers -/

/-- R191 to R193: LDA, LDX and LDY put the operand byte into their register, with Z and N from it. -/
def Obligations.LoadsWriteTheirRegister : Prop :=
  ReadForms .lda 0xA9 0xA5 0xB5 0xAD 0xBD 0xB9 0xA1 0xB1 ∧
  (∀ (b : Byte) (w : Word), encode (.ldx (.imm b)) = [0xA2, b] ∧ encode (.ldx (.zp0 b)) = [0xA6, b] ∧
    encode (.ldx (.zpy b)) = [0xB6, b] ∧ encode (.ldx (.abs w)) = [0xAE, loByte w, hiByte w] ∧
    encode (.ldx (.aby w)) = [0xBE, loByte w, hiByte w]) ∧
  (∀ (b : Byte) (w : Word), encode (.ldy (.imm b)) = [0xA0, b] ∧ encode (.ldy (.zp0 b)) = [0xA4, b] ∧
    encode (.ldy (.zpx b)) = [0xB4, b] ∧ encode (.ldy (.abs w)) = [0xAC, loByte w, hiByte w] ∧
    encode (.ldy (.abx w)) = [0xBC, loByte w, hiByte w]) ∧
  (∀ (o : ReadOperand) (s : State), ∃ t, exec (.lda o) s = .next t ∧ t.a = (readOperand o.operand s).value ∧
    t.x = s.x ∧ t.y = s.y ∧ ZeroNegativeOf t.a t ∧ FlagsKept [.z, .n] s t ∧ AfterRead o.operand s t) ∧
  (∀ (o : LdxOperand) (s : State), ∃ t, exec (.ldx o) s = .next t ∧ t.x = (readOperand o.operand s).value ∧
    t.a = s.a ∧ t.y = s.y ∧ ZeroNegativeOf t.x t ∧ FlagsKept [.z, .n] s t ∧ AfterRead o.operand s t) ∧
  (∀ (o : LdyOperand) (s : State), ∃ t, exec (.ldy o) s = .next t ∧ t.y = (readOperand o.operand s).value ∧
    t.a = s.a ∧ t.x = s.x ∧ ZeroNegativeOf t.y t ∧ FlagsKept [.z, .n] s t ∧ AfterRead o.operand s t)

/-- R194 to R196: STA, STX and STY write their register to the effective address, once, and change no register and
no flag. -/
def Obligations.StoresWriteOneByte : Prop :=
  (∀ (b : Byte) (w : Word), encode (.sta (.zp0 b)) = [0x85, b] ∧ encode (.sta (.zpx b)) = [0x95, b] ∧
    encode (.sta (.abs w)) = [0x8D, loByte w, hiByte w] ∧ encode (.sta (.abx w)) = [0x9D, loByte w, hiByte w] ∧
    encode (.sta (.aby w)) = [0x99, loByte w, hiByte w] ∧ encode (.sta (.izx b)) = [0x81, b] ∧
    encode (.sta (.izy b)) = [0x91, b]) ∧
  (∀ (b : Byte) (w : Word), encode (.stx (.zp0 b)) = [0x86, b] ∧ encode (.stx (.zpy b)) = [0x96, b] ∧
    encode (.stx (.abs w)) = [0x8E, loByte w, hiByte w]) ∧
  (∀ (b : Byte) (w : Word), encode (.sty (.zp0 b)) = [0x84, b] ∧ encode (.sty (.zpx b)) = [0x94, b] ∧
    encode (.sty (.abs w)) = [0x8C, loByte w, hiByte w]) ∧
  ∀ s : State, s.Sound = true →
    (∀ o : StaOperand, ∃ t, exec (.sta o) s = .next t ∧ AfterStore o.operand s.a s t) ∧
    (∀ o : StxOperand, ∃ t, exec (.stx o) s = .next t ∧ AfterStore o.operand s.x s t) ∧
    (∀ o : StyOperand, ∃ t, exec (.sty o) s = .next t ∧ AfterStore o.operand s.y s t)

/-- R197 to R202: the six register transfers; TXS alone writes no flag. -/
def Obligations.TransfersCopyOneRegister : Prop :=
  WritesRegister .tax 0xAA (·.a) (·.a) (·.a) (·.y) ∧ WritesRegister .tay 0xA8 (·.a) (·.a) (·.x) (·.a) ∧
  WritesRegister .txa 0x8A (·.x) (·.x) (·.x) (·.y) ∧ WritesRegister .tya 0x98 (·.y) (·.y) (·.x) (·.y) ∧
  WritesRegister .tsx 0xBA (·.sp) (·.a) (·.sp) (·.y) ∧ encode .txs = [0x9A] ∧
  ∀ s : State, ∃ t, exec .txs s = .next t ∧ t.sp = s.x ∧ t.p = s.p ∧ SameAXY s t ∧ t.pc = s.pc ∧
    t.cycles = s.cycles + 2 ∧ RegistersOnly s t

/-! ## Arithmetic and logic -/

/-- R223: ADC adds `A`, the operand and C. C is the unsigned carry, V the signed overflow; `P.D` plays no part. -/
def Obligations.AdcAddsWithCarry : Prop :=
  ReadForms .adc 0x69 0x65 0x75 0x6D 0x7D 0x79 0x61 0x71 ∧
  ∀ (o : ReadOperand) (s : State), ∃ (t : State) (m : Byte) (c : Nat), m = (readOperand o.operand s).value ∧
    c = (flag .c s.p).toNat ∧ exec (.adc o) s = .next t ∧
    t.a.toNat = (s.a.toNat + m.toNat + c) % 256 ∧ flag .c t.p = decide (255 < s.a.toNat + m.toNat + c) ∧
    flag .v t.p = decide (s.a.toInt + m.toInt + c < -128 ∨ 127 < s.a.toInt + m.toInt + c) ∧
    ZeroNegativeOf t.a t ∧ FlagsKept [.c, .z, .v, .n] s t ∧ t.x = s.x ∧ t.y = s.y ∧ AfterRead o.operand s t

/-- R224: SBC subtracts the operand and the complement of C. C is set when no borrow occurs, V is the signed
overflow. -/
def Obligations.SbcSubtractsWithBorrow : Prop :=
  ReadForms .sbc 0xE9 0xE5 0xF5 0xED 0xFD 0xF9 0xE1 0xF1 ∧
  ∀ (o : ReadOperand) (s : State), ∃ (t : State) (m : Byte) (b : Nat), m = (readOperand o.operand s).value ∧
    b = 1 - (flag .c s.p).toNat ∧ exec (.sbc o) s = .next t ∧
    (t.a.toNat : Int) = ((s.a.toNat : Int) - m.toNat - b) % 256 ∧ flag .c t.p = decide (m.toNat + b ≤ s.a.toNat) ∧
    flag .v t.p = decide (s.a.toInt - m.toInt - b < -128 ∨ 127 < s.a.toInt - m.toInt - b) ∧
    ZeroNegativeOf t.a t ∧ FlagsKept [.c, .z, .v, .n] s t ∧ t.x = s.x ∧ t.y = s.y ∧ AfterRead o.operand s t

/-- R225 to R227: AND, ORA and EOR combine `A` with the operand bit by bit; Z and N come from the result. -/
def Obligations.LogicWorksBitwise : Prop :=
  ReadForms .and 0x29 0x25 0x35 0x2D 0x3D 0x39 0x21 0x31 ∧ ReadForms .ora 0x09 0x05 0x15 0x0D 0x1D 0x19 0x01 0x11 ∧
  ReadForms .eor 0x49 0x45 0x55 0x4D 0x5D 0x59 0x41 0x51 ∧
  Combines .and Bool.and ∧ Combines .ora Bool.or ∧ Combines .eor Bool.xor

/-- R228 to R230: CMP, CPX and CPY write C, Z and N and no register. -/
def Obligations.ComparesWriteFlagsOnly : Prop :=
  ReadForms .cmp 0xC9 0xC5 0xD5 0xCD 0xDD 0xD9 0xC1 0xD1 ∧ IndexCompareForms .cpx 0xE0 0xE4 0xEC ∧
  IndexCompareForms .cpy 0xC0 0xC4 0xCC ∧
  ∀ s : State,
    (∀ o : ReadOperand, ComparesRegister (.cmp o) o.operand s.a s) ∧
    (∀ o : IndexCompareOperand, ComparesRegister (.cpx o) o.operand s.x s) ∧
    (∀ o : IndexCompareOperand, ComparesRegister (.cpy o) o.operand s.y s)

/-- R231: BIT writes Z from the conjunction with `A`, N and V from bits 7 and 6 of the operand, and no register. -/
def Obligations.BitTestsOperand : Prop :=
  (∀ (b : Byte) (w : Word), encode (.bit (.zp0 b)) = [0x24, b] ∧
    encode (.bit (.abs w)) = [0x2C, loByte w, hiByte w]) ∧
  ∀ (o : BitOperand) (s : State), ∃ (t : State) (m : Byte), m = (readOperand o.operand s).value ∧
    exec (.bit o) s = .next t ∧ (flag .z t.p = true ↔ ∀ i : Fin 8, ¬(s.a.getLsbD i = true ∧ m.getLsbD i = true)) ∧
    flag .n t.p = m.getLsbD 7 ∧ flag .v t.p = m.getLsbD 6 ∧ FlagsKept [.z, .v, .n] s t ∧ SameAXY s t ∧
    AfterRead o.operand s t

/-- R232, R233: INC and DEC replace the operand byte by itself plus or minus 1, modulo 256, with one write; Z and N
come from the result, C and V stay. -/
def Obligations.IncAndDecReplaceTheByte : Prop :=
  StepForms .inc 0xE6 0xF6 0xEE 0xFE ∧ StepForms .dec 0xC6 0xD6 0xCE 0xDE ∧
  AddsToByte .inc 1 ∧ AddsToByte .dec 255

/-- R234 to R237: INX, INY, DEX and DEY. -/
def Obligations.IndexStepsByOne : Prop :=
  WritesRegister .inx 0xE8 (·.x + 1) (·.a) (·.x + 1) (·.y) ∧
  WritesRegister .iny 0xC8 (·.y + 1) (·.a) (·.x) (·.y + 1) ∧
  WritesRegister .dex 0xCA (·.x - 1) (·.a) (·.x - 1) (·.y) ∧
  WritesRegister .dey 0x88 (·.y - 1) (·.a) (·.x) (·.y - 1)

/-- R260 to R264: with operand `m`, carry in `c`, result `r` and carry out `k`, each a number. ROL and ROR are 9-bit
rotations of C and the operand. -/
def Obligations.ShiftsAndRotatesMoveOneBit : Prop :=
  ShiftForms .asl 0x0A 0x06 0x16 0x0E 0x1E ∧ ShiftForms .lsr 0x4A 0x46 0x56 0x4E 0x5E ∧
  ShiftForms .rol 0x2A 0x26 0x36 0x2E 0x3E ∧ ShiftForms .ror 0x6A 0x66 0x76 0x6E 0x7E ∧
  Shifts .asl (fun m _ r k => r = (2 * m) % 256 ∧ k = m / 128) ∧
  Shifts .lsr (fun m _ r k => r = m / 2 ∧ k = m % 2) ∧
  Shifts .rol (fun m c r k => 256 * k + r = 2 * m + c) ∧
  Shifts .ror (fun m c r k => 2 * r + k = 256 * c + m)

/-! ## Control transfer -/

/-- R280 to R288: the eight conditional branches. -/
def Obligations.BranchesFollowTheirFlag : Prop :=
  Branches .bcc 0x90 (fun s => !flag .c s.p) ∧ Branches .bcs 0xB0 (fun s => flag .c s.p) ∧
  Branches .beq 0xF0 (fun s => flag .z s.p) ∧ Branches .bne 0xD0 (fun s => !flag .z s.p) ∧
  Branches .bmi 0x30 (fun s => flag .n s.p) ∧ Branches .bpl 0x10 (fun s => !flag .n s.p) ∧
  Branches .bvc 0x50 (fun s => !flag .v s.p) ∧ Branches .bvs 0x70 (fun s => flag .v s.p)

/-- R289, R171: JMP goes to its operand, or to the word at the pointer, whose high byte is read from the same page;
the target itself is not read. -/
def Obligations.JmpTakesItsTarget : Prop :=
  (∀ (w : Word), encode (.jmp (.abs w)) = [0x4C, loByte w, hiByte w] ∧
    encode (.jmp (.ind w)) = [0x6C, loByte w, hiByte w]) ∧
  (∀ (w : Word) (s : State), ∃ t, exec (.jmp (.abs w)) s = .next t ∧ t.pc = w ∧ SameAXY s t ∧ t.sp = s.sp ∧
    t.p = s.p ∧ t.cycles = s.cycles + 3 ∧ RegistersOnly s t) ∧
  (∀ (ptr : Word) (s : State), ∃ (t u v : State) (lo hi : Byte), busRead ptr s = (lo, u) ∧
    busRead (BitVec.ofNat 16 (256 * (ptr.toNat / 256) + (ptr.toNat + 1) % 256)) u = (hi, v) ∧
    exec (.jmp (.ind ptr)) s = .next t ∧ t.pc.toNat = 256 * hi.toNat + lo.toNat ∧ SameAXY s t ∧ t.sp = s.sp ∧
    t.p = s.p ∧ t.cycles = s.cycles + 5 ∧ SameMemory s t ∧ SameDevices v t ∧ SameHost s t)

/-- R290: JSR pushes the address of its last byte (`PC` minus 1), high byte first, and jumps. -/
def Obligations.JsrPushesReturnAddress : Prop :=
  (∀ w : Word, encode (.jsr w) = [0x20, loByte w, hiByte w]) ∧
  ∀ (w : Word) (s : State), s.Sound = true → ∃ t, exec (.jsr w) s = .next t ∧ t.pc = w ∧ t.sp = s.sp - 2 ∧
    t.memByte (0x0100 ||| zext16 s.sp) = some (hiByte (s.pc - 1)) ∧
    t.memByte (0x0100 ||| zext16 (s.sp - 1)) = some (loByte (s.pc - 1)) ∧
    SameMemoryOutside [0x0100 ||| zext16 s.sp, 0x0100 ||| zext16 (s.sp - 1)] s t ∧
    SameAXY s t ∧ t.p = s.p ∧ t.cycles = s.cycles + 6 ∧ SameDevices s t ∧ SameHost s t

/-- R291: RTS pulls an address, low byte first, and adds 1. -/
def Obligations.RtsPullsReturnAddress : Prop :=
  encode .rts = [0x60] ∧ ∀ s : State, ∃ t, exec .rts s = .next t ∧
    t.pc = wordOf (stackByte s (s.sp + 2)) (stackByte s (s.sp + 1)) + 1 ∧ t.sp = s.sp + 2 ∧ SameAXY s t ∧
    t.p = s.p ∧ t.cycles = s.cycles + 6 ∧ RegistersOnly s t

/-- R291: RTS undoes JSR, for every position of the stack pointer. -/
def Obligations.RtsUndoesJsr : Prop :=
  ∀ (w : Word) (s : State), s.Sound = true → ∃ t u, exec (.jsr w) s = .next t ∧ exec .rts t = .next u ∧
    u.pc = s.pc ∧ u.sp = s.sp ∧ u.p = s.p ∧ SameAXY s u ∧ SameDevices s u

/-! ## Stack, flags, system -/

/-- R311, R312: PHA pushes `A`; PHP pushes `P` with bits 4 and 5 set; neither changes `A` or `P`. -/
def Obligations.PushesStoreOneByte : Prop :=
  PushesByte .pha 0x48 (·.a) ∧ PushesByte .php 0x08 (·.p ||| 0x30)

/-- R313, R314: PLA pulls into `A` with Z and N from it; PLP pulls into `P` with bit 4 dropped and bit 5 forced. -/
def Obligations.PullsLoadOneByte : Prop :=
  encode .pla = [0x68] ∧ encode .plp = [0x28] ∧
  (∀ s : State, ∃ t, exec .pla s = .next t ∧ t.a = stackByte s (s.sp + 1) ∧ ZeroNegativeOf t.a t ∧
    FlagsKept [.z, .n] s t ∧ t.sp = s.sp + 1 ∧ t.x = s.x ∧ t.y = s.y ∧ t.pc = s.pc ∧ t.cycles = s.cycles + 4 ∧
    RegistersOnly s t) ∧
  (∀ s : State, ∃ t, exec .plp s = .next t ∧ t.p = (stackByte s (s.sp + 1) &&& 0xEF) ||| 0x20 ∧
    t.sp = s.sp + 1 ∧ SameAXY s t ∧ t.pc = s.pc ∧ t.cycles = s.cycles + 4 ∧ RegistersOnly s t)

/-- R315 to R321: CLC, CLD, CLI, CLV, SEC, SED and SEI. -/
def Obligations.FlagInstructionsWriteOneFlag : Prop :=
  WritesFlag .clc 0x18 .c false ∧ WritesFlag .cld 0xD8 .d false ∧ WritesFlag .cli 0x58 .i false ∧
  WritesFlag .clv 0xB8 .v false ∧ WritesFlag .sec 0x38 .c true ∧ WritesFlag .sed 0xF8 .d true ∧
  WritesFlag .sei 0x78 .i true

/-- R324, R325: NOP takes 2 cycles and does nothing. XXX does nothing either but the pointer reads of its mode, which
have a side effect in mode IND alone; its cycles are those the run's parameters give its opcode byte, with the
page-cross penalty where they give it one (R141). -/
def Obligations.NopAndPlaceholderDoNothing : Prop :=
  encode .nop = [0xEA] ∧
  (∀ s : State, exec .nop s = .next { s with cycles := s.cycles + 2 }) ∧
  (∀ (op : Byte) (o : UndocOperand) (s : State), ∃ t, exec (.xxx op o) s = .next t ∧ SameAXY s t ∧ t.sp = s.sp ∧
    t.pc = s.pc ∧ t.p = s.p ∧ SameMemory s t ∧ t.dma = s.dma ∧ SameHost s t ∧
    SameDevices (resolve o.operand s).state t ∧ ((∀ ptr, o ≠ .ind ptr) → SameDevices s t) ∧
    t.cycles = s.cycles + (undocRow s.cart.undoc op).cycles +
      (if (undocRow s.cart.undoc op).penalty = true ∧ (resolve o.operand s).crossed = true then 1 else 0))

/-! ## Operands and the stack -/

/-- R161 to R173 without IND, which `JmpTakesItsTarget` states: where each mode finds its operand, whether it crosses
a page, and that finding it has no side effect. `PC` is past the operand bytes already. -/
def Obligations.EffectiveAddressByMode : Prop :=
  ∀ (zp v d : Byte) (w : Word) (s : State),
    ((resolve .imp s).location = .absent ∧ (resolve .imp s).state = s) ∧
    ((resolve .acc s).location = .accumulator ∧ (resolve .acc s).state = s) ∧
    ((resolve (.imm v) s).location = .immediate v ∧ (resolve (.imm v) s).state = s) ∧
    AtAddress (resolve (.zp0 zp) s) zp.toNat false s ∧
    AtAddress (resolve (.zpx zp) s) ((zp.toNat + s.x.toNat) % 256) false s ∧
    AtAddress (resolve (.zpy zp) s) ((zp.toNat + s.y.toNat) % 256) false s ∧
    AtAddress (resolve (.rel d) s) (s.pc.toNat + signExtended d) false s ∧
    AtAddress (resolve (.abs w) s) w.toNat false s ∧
    AtAddress (resolve (.abx w) s) (w.toNat + s.x.toNat)
      (decide ((w.toNat + s.x.toNat) % 0x10000 / 256 ≠ w.toNat / 256)) s ∧
    AtAddress (resolve (.aby w) s) (w.toNat + s.y.toNat)
      (decide ((w.toNat + s.y.toNat) % 0x10000 / 256 ≠ w.toNat / 256)) s ∧
    AtAddress (resolve (.izx zp) s)
      (ramWord s ((zp.toNat + s.x.toNat) % 256) ((zp.toNat + s.x.toNat + 1) % 256)) false s ∧
    (∃ base, base = ramWord s zp.toNat ((zp.toNat + 1) % 256) ∧
      AtAddress (resolve (.izy zp) s) (base + s.y.toNat)
        (decide ((base + s.y.toNat) % 0x10000 / 256 ≠ base / 256)) s)

/-- R174, R178: an operand is read once, where its mode finds it, and written back where it came from; the accumulator
form touches no memory. `readOperand`, through which the statements about instructions name the operand byte, is the
mode's operation and then that one fetch. -/
def Obligations.OperandIsReadOnceAndWrittenBack : Prop :=
  ∀ (o : Operand) (ea : Word) (v r : Byte) (s : State),
    fetchOperand .accumulator s = (s.a, s) ∧ fetchOperand (.immediate v) s = (v, s) ∧
    fetchOperand (.memory ea) s = busRead ea s ∧ writeOperand .accumulator r s = { s with a := r } ∧
    writeOperand (.memory ea) r s = busWrite ea r s ∧
    (readOperand o s).location = (resolve o s).location ∧ (readOperand o s).crossed = (resolve o s).crossed ∧
    (readOperand o s).value = (fetchOperand (resolve o s).location (resolve o s).state).1 ∧
    (readOperand o s).state = (fetchOperand (resolve o s).location (resolve o s).state).2

/-- R34, R176, R177: a push writes the slot `0x0100 | S` and then decrements `S`; a pull increments `S` and then
reads; both wrap within page 0x0100, and a pull gives back what the last push stored. -/
def Obligations.StackWrapsInItsPage : Prop :=
  ∀ (v : Byte) (s : State), s.Sound = true → ∃ t, t = push v s ∧
    t.memByte (BitVec.ofNat 16 (0x0100 + s.sp.toNat)) = some v ∧ t.sp.toNat = (s.sp.toNat + 255) % 256 ∧
    SameMemoryOutside [BitVec.ofNat 16 (0x0100 + s.sp.toNat)] s t ∧ SameAXY s t ∧ t.pc = s.pc ∧ t.p = s.p ∧
    t.cycles = s.cycles ∧ SameDevices s t ∧ SameHost s t ∧
    pull s = (s.ram.read (0x0100 + (s.sp.toNat + 1) % 256), { s with sp := s.sp + 1 }) ∧
    (pull t).1 = v ∧ (pull t).2.sp = s.sp

/-! ## The bus -/

/-- R72, R75, R77, R81, R89: which device answers a read, at every address, and with what. Where none answers, the
byte is the model's free value `Config.openBus` (assumption log 2), of which nothing is known. -/
def Obligations.BusReadDecodes : Prop :=
  ∀ (a : Word) (s : State),
    (a.toNat < 0x2000 → busRead a s = (s.ram.read (a.toNat % 0x800), s)) ∧
    (0x2000 ≤ a.toNat → a.toNat < 0x4000 → ∃ port, port = BitVec.ofNat 3 (a.toNat % 8) ∧
      busRead a s = ((s.ppu.portRead s.cart port).1, { s with ppu := (s.ppu.portRead s.cart port).2 })) ∧
    (a.toNat = 0x4016 →
      busRead a s = (BitVec.ofNat 8 (s.pad0.shift.toNat % 2),
        { s with pad0 := { s.pad0 with shift := s.pad0.shift >>> 1 } })) ∧
    (a.toNat = 0x4017 →
      busRead a s = (BitVec.ofNat 8 (s.pad1.shift.toNat % 2),
        { s with pad1 := { s.pad1 with shift := s.pad1.shift >>> 1 } })) ∧
    (0x8000 ≤ a.toNat → s.cart.present = true →
      busRead a s = (s.cart.prgByte (a.toNat % (if s.cart.prgBanks = 1 then 0x4000 else 0x8000)), s)) ∧
    ((0x4000 ≤ a.toNat ∧ a.toNat < 0x4016) ∨ (0x4018 ≤ a.toNat ∧ a.toNat < 0x8000) ∨
        (0x8000 ≤ a.toNat ∧ s.cart.present = false) →
      busRead a s = (Config.openBus a s.openReads, { s with openReads := s.openReads + 1 }))

/-- R73, R75, R78, R82, R91: what a write does at every address; a write to ROM or to an address no device answers
changes nothing. -/
def Obligations.BusWriteDecodes : Prop :=
  ∀ (a : Word) (v : Byte) (s : State),
    (a.toNat < 0x2000 → busWrite a v s = { s with ram := s.ram.write (a.toNat % 0x800) v }) ∧
    (0x2000 ≤ a.toNat → a.toNat < 0x4000 →
      busWrite a v s = { s with ppu := s.ppu.portWrite s.cart (BitVec.ofNat 3 (a.toNat % 8)) v }) ∧
    (a.toNat = 0x4014 → busWrite a v s = { s with dma := { s.dma with page := v, addr := 0, active := true } }) ∧
    (a.toNat = 0x4016 → busWrite a v s = { s with pad0 := { s.pad0 with shift := s.pad0.buttons } }) ∧
    (a.toNat = 0x4017 → busWrite a v s = { s with pad1 := { s.pad1 with shift := s.pad1.buttons } }) ∧
    ((0x4000 ≤ a.toNat ∧ a.toNat < 0x4014) ∨ a.toNat = 0x4015 ∨ 0x4018 ≤ a.toNat → busWrite a v s = s)

/-- R76: RAM is mirrored: after a write, a read anywhere in 0x0000 to 0x1FFF gives the written byte at the same index
modulo 0x800 and the old byte elsewhere. -/
def Obligations.RamIsMirrored : Prop :=
  ∀ (a b : Word) (v : Byte) (s : State), s.Sound = true → a.toNat < 0x2000 → b.toNat < 0x2000 →
    (busRead b (busWrite a v s)).1 = if a.toNat % 0x800 = b.toNat % 0x800 then v else (busRead b s).1

/-- R104: what a read may change, at every address. PPU port 2 may change `status` and `w`, port 7 `data_buffer` and
`v`, each controller port its own shift register; a read that no device answers moves only the free values' own counter
(assumption log 2); every other read changes nothing. No read changes a CPU register, a memory, a button register or the
DMA engine. -/
def Obligations.ReadsChangeOnlyTheirDevice : Prop :=
  ∀ (a : Word) (s : State), ∃ t, t = (busRead a s).2 ∧
    SameAXY s t ∧ t.sp = s.sp ∧ t.pc = s.pc ∧ t.p = s.p ∧ t.cycles = s.cycles ∧ SameMemory s t ∧ t.ram = s.ram ∧
    t.dma = s.dma ∧ SameHost s t ∧ t.ppu.oam = s.ppu.oam ∧ t.ppu.nt = s.ppu.nt ∧ t.ppu.pt = s.ppu.pt ∧
    t.ppu.pal = s.ppu.pal ∧ t.ppu.fb = s.ppu.fb ∧ t.pad0.buttons = s.pad0.buttons ∧
    t.pad1.buttons = s.pad1.buttons ∧
    (0x2000 ≤ a.toNat ∧ a.toNat < 0x4000 ∧ a.toNat % 8 = 2 →
      t = { s with ppu := { s.ppu with status := t.ppu.status, w := t.ppu.w } }) ∧
    (0x2000 ≤ a.toNat ∧ a.toNat < 0x4000 ∧ a.toNat % 8 = 7 →
      t = { s with ppu := { s.ppu with dataBuffer := t.ppu.dataBuffer, v := t.ppu.v } }) ∧
    (a.toNat = 0x4016 → t = { s with pad0 := { s.pad0 with shift := t.pad0.shift } }) ∧
    (a.toNat = 0x4017 → t = { s with pad1 := { s.pad1 with shift := t.pad1.shift } }) ∧
    ((0x4000 ≤ a.toNat ∧ a.toNat < 0x4016) ∨ (0x4018 ≤ a.toNat ∧ a.toNat < 0x8000) ∨
      (0x8000 ≤ a.toNat ∧ s.cart.present = false) → t = { s with openReads := t.openReads }) ∧
    (a.toNat < 0x2000 ∨ (0x2000 ≤ a.toNat ∧ a.toNat < 0x4000 ∧ a.toNat % 8 ≠ 2 ∧ a.toNat % 8 ≠ 7) ∨
      (0x8000 ≤ a.toNat ∧ s.cart.present = true) → t = s)

/-- R90, R91: a write to a controller's port latches its buttons; the next eight reads give their bits, lowest first,
and every later read gives 0. -/
def Obligations.ControllerShiftsLatchedButtons : Prop :=
  ∀ (second : Bool) (v : Byte) (n : Nat) (s : State), ∃ port, port = (if second then 0x4017 else 0x4016) ∧
    nthRead port n (busWrite port v s) =
      if n < 8 ∧ (s.readButtons second).getLsbD n = true then 0x01 else 0x00

/-! ## The picture unit's ports and memories -/

/-- R360 to R363, R368: the control, mask, status and OAM ports; the ports without behaviour in one direction. -/
def Obligations.ControlStatusAndOamPorts : Prop :=
  ∀ (c : Cartridge) (p : Ppu) (d : Byte),
    (∃ q, p.portWrite c 0 d = { p with ctrl := d, t := q } ∧
      q = (p.t &&& 0x73FF) ||| ((d.setWidth 15 &&& 0x0003) <<< 10)) ∧
    p.portWrite c 1 d = { p with mask := d } ∧ p.portWrite c 2 d = p ∧
    p.portRead c 2 = ((p.status &&& 0xE0) ||| (p.dataBuffer &&& 0x1F),
      { p with status := p.status &&& 0x7F, w := false }) ∧
    p.portWrite c 3 d = { p with oamAddr := d } ∧ p.portRead c 4 = (p.oam.read p.oamAddr.toNat, p) ∧
    p.portWrite c 4 d = { p with
      oam := p.oam.write p.oamAddr.toNat d
      oamAddr := if c.oamDataWriteIncrement then p.oamAddr + 1 else p.oamAddr } ∧
    p.portRead c 0 = (0, p) ∧ p.portRead c 1 = (0, p) ∧ p.portRead c 3 = (0, p) ∧ p.portRead c 5 = (0, p) ∧
    p.portRead c 6 = (0, p)

/-- R364, R365: the two-write sequences of the scroll and address ports, which share the toggle `w`. -/
def Obligations.ScrollAndAddressWrites : Prop :=
  ∀ (c : Cartridge) (p : Ppu) (d : Byte), ∃ e : ScrollReg, e = d.setWidth 15 ∧
    (p.w = false →
      p.portWrite c 5 d = { p with fineX := d.setWidth 3, t := (p.t &&& 0x7FE0) ||| (e >>> 3), w := true } ∧
      p.portWrite c 6 d = { p with t := ((e &&& 0x3F) <<< 8) ||| (p.t &&& 0x00FF), w := true }) ∧
    (p.w = true →
      p.portWrite c 5 d =
        { p with t := (p.t &&& 0x0C1F) ||| ((e &&& 0x07) <<< 12) ||| ((e >>> 3) <<< 5), w := false } ∧
      p.portWrite c 6 d = { p with t := (p.t &&& 0x7F00) ||| e, v := (p.t &&& 0x7F00) ||| e, w := false })

/-- R366, R367: the data port: reads below 0x3F00 are one behind, palette reads are immediate, and `v` advances by 1
or 32 after every access. -/
def Obligations.DataPortIsOneReadBehind : Prop :=
  ∀ (c : Cartridge) (p : Ppu) (d : Byte), ∃ (a : PpuAddr) (next : ScrollReg), a.toNat = p.v.toNat % 0x4000 ∧
    next.toNat = (p.v.toNat + if p.incrementMode then 32 else 1) % 0x8000 ∧
    (a.toNat < 0x3F00 → p.portRead c 7 = (p.dataBuffer, { p with dataBuffer := p.read c a, v := next })) ∧
    (0x3F00 ≤ a.toNat → p.portRead c 7 = (p.read c a, { p with dataBuffer := p.read c a, v := next })) ∧
    p.portWrite c 7 d = { p.write c a d with v := next }

/-- R376 to R378: the palette has 32 bytes repeated eight times, of which 0x10, 0x14, 0x18 and 0x1C are 0x00, 0x04,
0x08 and 0x0C; what is written is read back at every alias, masked by 0x3F, or by 0x30 in grayscale. -/
def Obligations.PaletteAliasesAreOneCell : Prop :=
  ∀ (c : Cartridge) (p : Ppu) (a b : PpuAddr) (d : Byte), p.sound = true → 0x3F00 ≤ a.toNat → 0x3F00 ≤ b.toNat →
    ((p.write c a d).read c b = if a.toNat % 32 = b.toNat % 32 ∨ (a.toNat % 4 = 0 ∧ b.toNat % 4 = 0 ∧
        a.toNat % 16 = b.toNat % 16)
      then d &&& (if p.grayscale then 0x30 else 0x3F) else p.read c b)

/-- R83 to R85, R370 to R374. Nametables: the four are two, by bit 10 of the address in vertical mirroring and by bit
11 in horizontal mirroring, and 0x3000 to 0x3EFF repeats 0x2000 to 0x2EFF; a write is read back at every alias and
nowhere else. Pattern region: with a cartridge a read gives its character byte, 0 when it has no character bank, and a
write lands in the unit's own pattern memory, which no read gives back anywhere; without a cartridge the unit's own
pattern memory answers. -/
def Obligations.PatternAndNametableMemory : Prop :=
  ∀ (c : Cartridge) (p : Ppu) (a : PpuAddr) (d : Byte), p.sound = true →
    (0x2000 ≤ a.toNat → a.toNat < 0x3F00 →
      (∀ b : PpuAddr, 0x2000 ≤ b.toNat → b.toNat < 0x3F00 → (p.write c a d).read c b =
        if a.toNat % 0x400 = b.toNat % 0x400 ∧ physicalTable c.mirroring a = physicalTable c.mirroring b then d
        else p.read c b) ∧
      (∀ b : PpuAddr, b.toNat < 0x2000 ∨ 0x3F00 ≤ b.toNat → (p.write c a d).read c b = p.read c b)) ∧
    (a.toNat < 0x2000 →
      p.write c a d = { p with pt := p.pt.write a.toNat d } ∧
      (c.present = true → p.read c a = (if c.chrBanks = 0 then 0 else c.chr.read a.toNat) ∧
        ∀ b, (p.write c a d).read c b = p.read c b) ∧
      (c.present = false → p.read c a = p.pt.read a.toNat ∧
        ∀ b, (p.write c a d).read c b = if b = a then d else p.read c b))

/-! ## The picture unit's clock -/

/-- R442: each dot advances the coordinates by one over 341 dots of 262 scanlines, so 89,342 dots bring them back;
`frame_complete` is set by dot (260, 340) and cleared by none. -/
def Obligations.FrameIs89342Dots : Prop :=
  ∀ (c : Cartridge) (p : Ppu), p.sound = true →
    (∀ n : Nat, dotIndex ((Ppu.clock c)^[n] p) = (dotIndex p + n) % 89342) ∧
    (∀ n : Nat, ((Ppu.clock c)^[n] p).frameComplete = true ↔
      p.frameComplete = true ∨ ∃ k, k < n ∧ (dotIndex p + k) % 89342 = 89341)

/-- R403, R404, R425, R441: `vertical_blank` is set at (241, 1), where the line is raised if enabled, and cleared with
the two sprite flags and the sprite patterns at (-1, 1); no other dot changes `vertical_blank` or the line, and no other
dot clears a sprite flag. `sprite_overflow` becomes set at dot 257 of scanlines 0 to 239 alone, when more than eight
records of OAM are on the scanline; `sprite_zero_hit` at dots 1 to 256 of scanlines 0 to 239 alone (when there,
`PixelPriorityAndZeroHit` says). -/
def Obligations.StatusFlagChanges : Prop :=
  ∀ (c : Cartridge) (p : Ppu), ∃ q, q = p.clock c ∧
    (p.scanline = 241 ∧ p.cycle = 1 → q.verticalBlank = true ∧ q.nmiLine = (p.nmiLine || p.enableNmi)) ∧
    (p.scanline = -1 ∧ p.cycle = 1 → q.verticalBlank = false ∧ q.spriteOverflow = false ∧ q.spriteZeroHit = false ∧
      (∀ s ∈ q.sprites.slots, s.patLo = 0 ∧ s.patHi = 0) ∧ q.nmiLine = p.nmiLine) ∧
    (¬(p.scanline = 241 ∧ p.cycle = 1) → ¬(p.scanline = -1 ∧ p.cycle = 1) →
      q.verticalBlank = p.verticalBlank ∧ q.nmiLine = p.nmiLine) ∧
    (¬(p.scanline = -1 ∧ p.cycle = 1) →
      q.spriteOverflow = (p.spriteOverflow ||
        decide (EvaluationDot p ∧ 8 < (inRangeRecords p p.scanline).length)) ∧
      (p.spriteZeroHit = true → q.spriteZeroHit = true) ∧
      (¬VisibleDot p → q.spriteZeroHit = p.spriteZeroHit))

/-- R410, R424: the clock writes no memory but the frame buffer, none of `ctrl`, `mask`, `t`, `fine_x`, `w`,
`data_buffer`, `oam_addr`, and with rendering disabled it does not move `v`. -/
def Obligations.ClockLeavesMemoriesAlone : Prop :=
  ∀ (c : Cartridge) (p : Ppu), ∃ q, q = p.clock c ∧
    q.oam = p.oam ∧ q.nt = p.nt ∧ q.pt = p.pt ∧ q.pal = p.pal ∧ q.ctrl = p.ctrl ∧ q.mask = p.mask ∧ q.t = p.t ∧
    q.fineX = p.fineX ∧ q.w = p.w ∧ q.dataBuffer = p.dataBuffer ∧ q.oamAddr = p.oamAddr ∧
    (p.rendering = false → q.v = p.v)

/-- R402, R403, R410 to R417: the background pipeline at every dot. The scroll increments with their wraps and the two
transfers, each only while rendering, and the dots of the clock at which they move `v`; the four fetches and the reload
(at dot 257 it comes twice, with the same bytes), which run whether or not rendering is enabled; the shift, while the
background is shown. At every other dot `v`, the latches and the shifters stay. -/
def Obligations.BackgroundPipelineByDot : Prop :=
  (∀ p : Ppu,
    (p.rendering = false →
      p.incrementScrollX = p ∧ p.incrementScrollY = p ∧ p.transferX = p ∧ p.transferY = p) ∧
    (p.rendering = true →
      p.incrementScrollX = { p with v := nextX p.v } ∧ p.incrementScrollY = { p with v := nextY p.v } ∧
      p.transferX = { p with v := withHorizontal p.t p.v } ∧ p.transferY = { p with v := withVertical p.t p.v })) ∧
  ∀ (c : Cartridge) (p : Ppu), ∃ q, q = p.clock c ∧
    q.v = (if p.rendering then scrolledAtDot p else p.v) ∧
    q.bg = (if PipelineDot p then fetchedAtDot c p (shiftedBackground p) else p.bg)

/-- R401, R403, R404, R417, R424, R426: the sprite pipeline at every dot. Evaluation selects the first eight records of
OAM that are on the scanline, in OAM order, fills the rest of the buffer with 0xFF, and sets the overflow flag when a
ninth qualifies; OAM is not written; the clock evaluates at dot 257 of scanlines 0 to 239 and nowhere else. At dot 340 of
those scanlines the valid records get their pattern bytes; at (-1, 1) all patterns are cleared; at dots 2 to 257, while
sprites are shown, each valid record counts down or shifts; at every other dot the buffer stays. The patterns are stated
for the rows that R426 has "by construction" (`HasPatternRow`; the others are assumption log 4's). -/
def Obligations.SpritePipelineByDot : Prop :=
  (∀ (p : Ppu) (s : Int), Evaluated s p (p.evaluateSprites s) ∧
    (p.evaluateSprites s).spriteZeroHit = p.spriteZeroHit ∧ (p.evaluateSprites s).verticalBlank = p.verticalBlank ∧
    (p.evaluateSprites s).oam = p.oam) ∧
  ∀ (c : Cartridge) (p : Ppu), ∃ q, q = p.clock c ∧ q.oam = p.oam ∧
    (EvaluationDot p → Evaluated p.scanline p q) ∧
    (¬EvaluationDot p → q.sprites.count = p.sprites.count ∧ q.sprites.zeroPossible = p.sprites.zeroPossible ∧
      q.sprites.slots.length = p.sprites.slots.length) ∧
    (SpriteFetchDot p → ∀ (i : Nat) (r : SpriteSlot), p.sprites.slots[i]? = some r →
      ∃ r', q.sprites.slots[i]? = some r' ∧ r' = { r with patLo := r'.patLo, patHi := r'.patHi } ∧
        (i < p.sprites.count → HasPatternRow p r → PatternFetched c p r r') ∧ (p.sprites.count ≤ i → r' = r)) ∧
    (p.scanline = -1 ∧ p.cycle = 1 → ∀ (i : Nat) (r : SpriteSlot), p.sprites.slots[i]? = some r →
      q.sprites.slots[i]? = some { r with patLo := 0, patHi := 0 }) ∧
    (SpriteShiftDot p → ¬EvaluationDot p → ∀ (i : Nat) (r : SpriteSlot), p.sprites.slots[i]? = some r →
      q.sprites.slots[i]? = some (if i < p.sprites.count then shiftedRecord r else r)) ∧
    (¬EvaluationDot p → ¬SpriteFetchDot p → ¬(p.scanline = -1 ∧ p.cycle = 1) → ¬SpriteShiftDot p →
      q.sprites.slots = p.sprites.slots)

/-- R430 to R432, R436 to R438: at a visible dot exactly one pixel of the frame buffer is written: the colour, through
the palette, of the layer that is shown, chosen from the background shifters and the sprite buffer as they stand after
the dot (`q`; composing a pixel moves neither). Sprite 0 hits when both layers are opaque there, both are enabled, the
sprite pixel is sprite 0's, and the dot is not the last of the line. At every other dot the frame buffer is left alone
and no hit is set. -/
def Obligations.PixelPriorityAndZeroHit : Prop :=
  ∀ (c : Cartridge) (p : Ppu), p.sound = true → ∃ q, q = p.clock c ∧
    (VisibleDot p →
      (∀ i, q.fb.read i = if i = 256 * p.scanline.toNat + (p.cycle - 1) then
          (q.read c (BitVec.ofNat 14 (0x3F00 + 4 * (shownPixel q p.cycle).2 + (shownPixel q p.cycle).1))).setWidth 6
        else p.fb.read i) ∧
      (q.sprites.zeroRendered = true ↔ shownSprite q p.cycle = some 0 ∧ q.sprites.zeroPossible = true) ∧
      (q.spriteZeroHit = true ↔ p.spriteZeroHit = true ∨
        ((backgroundDot q p.cycle).1 ≠ 0 ∧ shownSprite q p.cycle = some 0 ∧ q.sprites.zeroPossible = true ∧
          p.showBackground = true ∧ p.showSprites = true ∧ p.cycle ≠ 256))) ∧
    (¬VisibleDot p → q.fb = p.fb ∧ q.sprites.zeroRendered = p.sprites.zeroRendered ∧
      (q.spriteZeroHit = true → p.spriteZeroHit = true))

/-! ## DMA -/

/-- R464: from its first slot a transfer is active for exactly 513 slots when that slot's tick is odd (the trigger's
was even) and 514 when it is even, and during them the CPU runs no instruction: `A`, `X` and `Y` stay. -/
def Obligations.TransferTakes513Or514Slots : Prop :=
  ∀ (page : Byte) (s : State), TransferStarting page s →
    (∀ k, k ≤ 3 * (transferSlots s.tick - 1) → (run k s).dma.active = true ∧ SameAXY s (run k s) ∧
      (run k s).tick = s.tick + k) ∧
    (afterTransfer s).dma.active = false ∧ (afterTransfer s).dma.dummy = true ∧ (afterTransfer s).dma.addr = 0

/-- R463: a transfer copies the page into OAM: byte `k` goes to `OAM[k]`, and `oam_addr` stays. A page of plain
memory; the stack page and its mirrors are left out of the statement, because an NMI taken during the transfer may
push there. -/
def Obligations.TransferCopiesThePage : Prop :=
  ∀ (page : Byte) (s : State), s.Sound = true → TransferStarting page s → (page.toNat < 0x20 → page.toNat % 8 ≠ 1) →
    (afterTransfer s).ppu.oamAddr = s.ppu.oamAddr ∧
    ∀ (k v : Byte), s.memByte (wordOf page k) = some v → (afterTransfer s).ppu.oam.read k.toNat = v
end

