-- ==== Sys2Proof/Laws/Bits.lean ====
section
/-! SUPPORT. The laws of the byte-order helpers, of single-bit updates and of the flags of `P`. -/

namespace Sys2Proof

theorem getLsbD_wordOf (hi lo : Byte) (i : Nat) :
    (wordOf hi lo).getLsbD i = if i < 8 then lo.getLsbD i else hi.getLsbD (i - 8) := by
  have h := BitVec.getLsbD_append (x := hi) (y := lo) (i := i)
  rw [show (wordOf hi lo).getLsbD i = (hi ++ lo).getLsbD i from rfl, h]

theorem getLsbD_hiByte (w : Word) (i : Nat) : (hiByte w).getLsbD i = (decide (i < 8) && w.getLsbD (8 + i)) :=
  BitVec.getLsbD_extractLsb' ..

theorem getLsbD_loByte (w : Word) (i : Nat) : (loByte w).getLsbD i = (decide (i < 8) && w.getLsbD i) := by
  rw [loByte, BitVec.getLsbD_extractLsb', Nat.zero_add]

@[simp] theorem hiByte_wordOf (hi lo : Byte) : hiByte (wordOf hi lo) = hi := by
  apply BitVec.eq_of_getLsbD_eq
  intro i h
  rw [getLsbD_hiByte, getLsbD_wordOf, if_neg (by omega), Nat.add_sub_cancel_left, decide_eq_true h, Bool.true_and]

@[simp] theorem loByte_wordOf (hi lo : Byte) : loByte (wordOf hi lo) = lo := by
  apply BitVec.eq_of_getLsbD_eq
  intro i h
  rw [getLsbD_loByte, getLsbD_wordOf, if_pos h, decide_eq_true h, Bool.true_and]

@[simp] theorem wordOf_hiByte_loByte (w : Word) : wordOf (hiByte w) (loByte w) = w := by
  apply BitVec.eq_of_getLsbD_eq
  intro i h
  rw [getLsbD_wordOf, getLsbD_hiByte, getLsbD_loByte]
  split
  · next h8 => simp [h8]
  · next h8 => simp [show i - 8 < 8 by omega, show 8 + (i - 8) = i by omega]

theorem wordOf_toNat (hi lo : Byte) : (wordOf hi lo).toNat = 256 * hi.toNat + lo.toNat := by
  have := lo.isLt
  simp only [wordOf, BitVec.toNat_append]
  rw [← Nat.shiftLeft_add_eq_or_of_lt this]
  omega

/-- A bit after one bit is set. -/
theorem getLsbD_setBit (b : Byte) (i j : Nat) (v : Bool) (hj : j < 8) :
    (setBit b i v).getLsbD j = if i = j then v else b.getLsbD j := by
  cases v <;> by_cases h : i = j
  · subst h; simp [setBit]
  · simp [setBit, h, hj]; intros; omega
  · subst h; simp [setBit, hj]
  · simp [setBit, h, hj]; omega

end Sys2Proof

namespace Sys2Proof.Machine

theorem Flag.pos_lt (f : Flag) : f.pos < 8 := by cases f <;> decide

theorem Flag.pos_injective {f g : Flag} (h : f.pos = g.pos) : f = g := by
  revert h; cases f <;> cases g <;> decide

/-- A flag after one flag is set. -/
@[simp] theorem flag_setFlag (f g : Flag) (v : Bool) (p : Byte) :
    flag g (setFlag f v p) = if f = g then v else flag g p := by
  unfold flag setFlag
  rw [getLsbD_setBit _ _ _ _ g.pos_lt]
  by_cases h : f = g
  · simp [h]
  · simp [h, mt Flag.pos_injective h]

/-- `SetZN` (R180): Z and N from the result, every other flag as it was. -/
@[simp] theorem flag_setZN (r p : Byte) (g : Flag) :
    flag g (setZN r p) = if g = .n then r.getLsbD 7 else if g = .z then (r == 0) else flag g p := by
  cases g <;> simp [setZN]

end Sys2Proof.Machine
end

