-- ==== Sys2Proof/Laws/Memory.lean ====
section
/-! SUPPORT. The laws of a canonical memory: read after write, and that every write keeps the canonical form. -/

namespace Sys2Proof

variable {w : Nat}

@[simp] theorem Memory.read_nil (i : Nat) : Memory.read ([] : Memory w) i = 0 := rfl

@[simp] theorem Memory.wf_nil (size : Nat) : Memory.wf size ([] : Memory w) = true := rfl

theorem Memory.wfFrom_mono {lo lo' size : Nat} (h : lo' ≤ lo) :
    ∀ {m : Memory w}, m.wfFrom lo size = true → m.wfFrom lo' size = true
  | [], _ => rfl
  | (j, u) :: m, hm => by
    simp only [Memory.wfFrom, Bool.and_eq_true, decide_eq_true_eq] at hm ⊢
    exact ⟨⟨⟨le_trans h hm.1.1.1, hm.1.1.2⟩, hm.1.2⟩, hm.2⟩

/-- Below the first index of a canonical memory every index is unlisted. -/
theorem Memory.read_of_lt {lo size i : Nat} (h : i < lo) :
    ∀ {m : Memory w}, m.wfFrom lo size = true → m.read i = 0
  | [], _ => rfl
  | (j, u) :: m, hm => by
    simp only [Memory.wfFrom, Bool.and_eq_true, decide_eq_true_eq] at hm
    have hj : j ≠ i := by omega
    rw [Memory.read, if_neg hj]
    exact Memory.read_of_lt (show i < j + 1 by omega) hm.2

theorem Memory.read_cons (i : Nat) (v : BitVec w) {m : Memory w} (k : Nat) (hm : m.read i = 0) :
    (Memory.cons i v m).read k = if i = k then v else m.read k := by
  unfold Memory.cons
  split
  · next h =>
    subst h
    split
    · next h => subst h; exact hm
    · rfl
  · rfl

theorem Memory.wfFrom_cons {lo size i : Nat} (v : BitVec w) {m : Memory w} (hlo : lo ≤ i) (hi : i < size)
    (hm : m.wfFrom (i + 1) size = true) : (Memory.cons i v m).wfFrom lo size = true := by
  unfold Memory.cons
  split
  · exact Memory.wfFrom_mono (by omega) hm
  · next h => simp [Memory.wfFrom, hlo, hi, h, hm]

/-- Every write keeps the canonical form. -/
theorem Memory.wfFrom_write {lo size i : Nat} (v : BitVec w) (hlo : lo ≤ i) (hi : i < size) :
    ∀ {m : Memory w}, m.wfFrom lo size = true → (m.write i v).wfFrom lo size = true
  | [], _ => Memory.wfFrom_cons v hlo hi rfl
  | (j, u) :: m, hm => by
    have hm' := hm
    simp only [Memory.wfFrom, Bool.and_eq_true, decide_eq_true_eq] at hm
    unfold Memory.write
    split
    · next h =>
      simp only [Memory.wfFrom, Bool.and_eq_true, decide_eq_true_eq]
      exact ⟨hm.1, Memory.wfFrom_write v (by omega) hi hm.2⟩
    · split
      · next h => subst h; exact Memory.wfFrom_cons v hlo hi hm.2
      · refine Memory.wfFrom_cons v hlo hi ?_
        simp only [Memory.wfFrom, Bool.and_eq_true, decide_eq_true_eq]
        exact ⟨⟨⟨by omega, hm.1.1.2⟩, hm.1.2⟩, hm.2⟩

theorem Memory.wf_write {size i : Nat} (v : BitVec w) (hi : i < size) {m : Memory w} (hm : m.wf size = true) :
    (m.write i v).wf size = true :=
  Memory.wfFrom_write v (Nat.zero_le i) hi hm

theorem Memory.read_write_of_wfFrom {lo size : Nat} (i k : Nat) (v : BitVec w) :
    ∀ {m : Memory w}, m.wfFrom lo size = true → (m.write i v).read k = if i = k then v else m.read k
  | [], _ => Memory.read_cons i v k rfl
  | (j, u) :: m, hm => by
    have hw := hm
    simp only [Memory.wfFrom, Bool.and_eq_true, decide_eq_true_eq] at hm
    unfold Memory.write
    split
    · next h =>
      simp only [Memory.read]
      rw [Memory.read_write_of_wfFrom i k v hm.2]
      split <;> split <;> first | rfl | omega
    · split
      · next h =>
        subst h
        rw [Memory.read_cons j v k (Memory.read_of_lt (Nat.lt_succ_self j) hm.2)]
        simp only [Memory.read]
        split <;> rfl
      · next h1 h2 =>
        refine Memory.read_cons i v k ?_
        exact Memory.read_of_lt (lo := i + 1) (size := size) (Nat.lt_succ_self i) (by
          simp only [Memory.wfFrom, Bool.and_eq_true, decide_eq_true_eq]
          exact ⟨⟨⟨by omega, hm.1.1.2⟩, hm.1.2⟩, hm.2⟩)

/-- A canonical memory after a write: the written index reads the written value, every other index as before. -/
theorem Memory.read_write {size : Nat} {m : Memory w} (hm : m.wf size = true) (i k : Nat) (v : BitVec w) :
    (m.write i v).read k = if i = k then v else m.read k :=
  Memory.read_write_of_wfFrom i k v hm

theorem Memory.read_write_same {size : Nat} {m : Memory w} (hm : m.wf size = true) (i : Nat) (v : BitVec w) :
    (m.write i v).read i = v := by
  rw [Memory.read_write hm, if_pos rfl]

theorem Memory.read_write_ne {size : Nat} {m : Memory w} (hm : m.wf size = true) {i k : Nat} (h : i ≠ k)
    (v : BitVec w) : (m.write i v).read k = m.read k := by
  rw [Memory.read_write hm, if_neg h]

end Sys2Proof
end

