-- ==== Sys2Proof/Laws/Ppu.lean ====
section
/-! SUPPORT. What the picture unit's ports and memories can do: indices stay inside the memories, every port access
keeps the unit sound, and no port access touches the dot coordinates, the pipelines or the NMI line. -/

namespace Sys2Proof.Machine

/-! ## Indices -/

theorem ntIndex_lt (m : Mirroring) (a : PpuAddr) : ntIndex m a < 0x800 := by
  have h : (a &&& 0x03FF).toNat ≤ 0x3FF := by
    rw [BitVec.toNat_and]; exact Nat.and_le_right
  unfold ntIndex
  cases m
  · have := Bool.toNat_le (a.getLsbD 11); simp only; omega
  · have := Bool.toNat_le (a.getLsbD 10); simp only; omega

theorem ptIndex_lt (a : PpuAddr) : ptIndex a < 0x2000 := by
  have h : (a &&& 0x1FFF).toNat ≤ 0x1FFF := by
    rw [BitVec.toNat_and]; exact Nat.and_le_right
  unfold ptIndex
  omega

theorem palIndex_lt (a : PpuAddr) : palIndex a < 0x20 := by
  have h : (a &&& 0x1F).toNat ≤ 0x1F := by
    rw [BitVec.toNat_and]; exact Nat.and_le_right
  unfold palIndex
  simp only
  repeat' split
  all_goals omega

/-! ## Soundness -/

/-- The unit's soundness looks at its memories, its coordinates, the unused status bits and the sprite buffer. -/
theorem Ppu.sound_congr {p q : Ppu} (nt : q.nt = p.nt) (pt : q.pt = p.pt) (pal : q.pal = p.pal)
    (oam : q.oam = p.oam) (fb : q.fb = p.fb) (sl : q.scanline = p.scanline) (cy : q.cycle = p.cycle)
    (st : q.status &&& 0x1F = p.status &&& 0x1F) (len : q.sprites.slots.length = p.sprites.slots.length)
    (n : q.sprites.count = p.sprites.count) : q.sound = p.sound := by
  simp only [Ppu.sound, nt, pt, pal, oam, fb, sl, cy, st, len, n]

/-- The parts of the unit's soundness, as propositions. -/
theorem Ppu.sound_iff (p : Ppu) : p.sound = true ↔
    p.nt.wf 0x800 = true ∧ p.pt.wf 0x2000 = true ∧ p.pal.wf 0x20 = true ∧ p.oam.wf 0x100 = true ∧
    p.fb.wf (240 * 256) = true ∧ (-1 ≤ p.scanline ∧ p.scanline ≤ 260) ∧ p.cycle ≤ 340 ∧
    p.status &&& 0x1F = 0 ∧ p.sprites.slots.length = 8 ∧ p.sprites.count ≤ 8 := by
  simp only [Ppu.sound, Bool.and_eq_true, decide_eq_true_eq, beq_iff_eq]
  tauto

/-- Setting a flag of `status` leaves the unused bits alone. -/
theorem setBit_and_low (b : Byte) (i : Nat) (v : Bool) (hi : 5 ≤ i) : setBit b i v &&& 0x1F = b &&& 0x1F := by
  apply BitVec.eq_of_getLsbD_eq
  intro j hj
  rw [BitVec.getLsbD_and, BitVec.getLsbD_and, getLsbD_setBit b i j v hj]
  by_cases h : j < 5
  · rw [if_neg (by omega)]
  · have : BitVec.getLsbD (0x1F : Byte) j = false := by
      have : j = 5 ∨ j = 6 ∨ j = 7 := by omega
      rcases this with rfl | rfl | rfl <;> rfl
    rw [this, Bool.and_false, Bool.and_false]

theorem Ppu.setVerticalBlank_sound (p : Ppu) (b : Bool) : (p.setVerticalBlank b).sound = p.sound :=
  Ppu.sound_congr rfl rfl rfl rfl rfl rfl rfl (setBit_and_low _ 7 b (by decide)) rfl rfl

theorem Ppu.setSpriteOverflow_sound (p : Ppu) (b : Bool) : (p.setSpriteOverflow b).sound = p.sound :=
  Ppu.sound_congr rfl rfl rfl rfl rfl rfl rfl (setBit_and_low _ 5 b (by decide)) rfl rfl

theorem Ppu.setSpriteZeroHit_sound (p : Ppu) (b : Bool) : (p.setSpriteZeroHit b).sound = p.sound :=
  Ppu.sound_congr rfl rfl rfl rfl rfl rfl rfl (setBit_and_low _ 6 b (by decide)) rfl rfl

theorem Ppu.write_sound (c : Cartridge) (p : Ppu) (a : PpuAddr) (d : Byte) (h : p.sound = true) :
    (p.write c a d).sound = true := by
  have hp := (Ppu.sound_iff p).1 h
  unfold Ppu.write
  split
  · exact h
  · split
    · exact (Ppu.sound_iff _).2 ⟨hp.1, Memory.wf_write d (ptIndex_lt a) hp.2.1, hp.2.2⟩
    · split
      · exact (Ppu.sound_iff _).2 ⟨Memory.wf_write d (ntIndex_lt c.mirroring a) hp.1, hp.2⟩
      · exact (Ppu.sound_iff _).2 ⟨hp.1, hp.2.1, Memory.wf_write d (palIndex_lt a) hp.2.2.1, hp.2.2.2⟩

theorem Ppu.writeOam_sound (p : Ppu) (i : Byte) (v : Byte) (h : p.sound = true) :
    Ppu.sound { p with oam := p.oam.write i.toNat v } = true := by
  have hp := (Ppu.sound_iff p).1 h
  exact (Ppu.sound_iff _).2 ⟨hp.1, hp.2.1, hp.2.2.1, Memory.wf_write v i.isLt hp.2.2.2.1, hp.2.2.2.2⟩

theorem Ppu.portRead_sound (c : Cartridge) (p : Ppu) (port : BitVec 3) (h : p.sound = true) :
    (p.portRead c port).2.sound = true := by
  unfold Ppu.portRead
  split
  · rw [← h]
    exact Ppu.sound_congr rfl rfl rfl rfl rfl rfl rfl (setBit_and_low _ 7 false (by decide)) rfl rfl
  · split
    · exact h
    · split
      · rw [← h]; exact Ppu.sound_congr rfl rfl rfl rfl rfl rfl rfl rfl rfl rfl
      · exact h

theorem Ppu.portWrite_sound (c : Cartridge) (p : Ppu) (port : BitVec 3) (d : Byte) (h : p.sound = true) :
    (p.portWrite c port d).sound = true := by
  have keep : ∀ q : Ppu, q.sound = p.sound → q.sound = true := fun q e => e.trans h
  unfold Ppu.portWrite
  split
  · exact keep _ (Ppu.sound_congr rfl rfl rfl rfl rfl rfl rfl rfl rfl rfl)
  split
  · exact keep _ (Ppu.sound_congr rfl rfl rfl rfl rfl rfl rfl rfl rfl rfl)
  split
  · exact keep _ (Ppu.sound_congr rfl rfl rfl rfl rfl rfl rfl rfl rfl rfl)
  split
  · exact (Ppu.sound_congr rfl rfl rfl rfl rfl rfl rfl rfl rfl rfl).trans (Ppu.writeOam_sound p p.oamAddr d h)
  split
  · unfold Ppu.writeScroll
    split <;> exact keep _ (Ppu.sound_congr rfl rfl rfl rfl rfl rfl rfl rfl rfl rfl)
  split
  · unfold Ppu.writeAddress
    split <;> exact keep _ (Ppu.sound_congr rfl rfl rfl rfl rfl rfl rfl rfl rfl rfl)
  split
  · exact (Ppu.sound_congr rfl rfl rfl rfl rfl rfl rfl rfl rfl rfl).trans
      (Ppu.write_sound c p (Scroll.address p.v) d h)
  · exact h

/-! ## What a port access leaves alone -/

/-- The parts of the unit that no port access touches: the dot coordinates, the NMI line, the frame flag, the
pipelines and the frame buffer. -/
structure Ppu.SamePipeline (p q : Ppu) : Prop where
  scanline : q.scanline = p.scanline
  cycle : q.cycle = p.cycle
  nmiLine : q.nmiLine = p.nmiLine
  frameComplete : q.frameComplete = p.frameComplete
  bg : q.bg = p.bg
  sprites : q.sprites = p.sprites
  fb : q.fb = p.fb

theorem Ppu.SamePipeline.refl (p : Ppu) : Ppu.SamePipeline p p := ⟨rfl, rfl, rfl, rfl, rfl, rfl, rfl⟩

theorem Ppu.write_samePipeline (c : Cartridge) (p : Ppu) (a : PpuAddr) (d : Byte) :
    Ppu.SamePipeline p (p.write c a d) := by
  unfold Ppu.write
  repeat' split
  all_goals exact ⟨rfl, rfl, rfl, rfl, rfl, rfl, rfl⟩

theorem Ppu.portRead_samePipeline (c : Cartridge) (p : Ppu) (port : BitVec 3) :
    Ppu.SamePipeline p (p.portRead c port).2 := by
  unfold Ppu.portRead
  repeat' split
  all_goals exact ⟨rfl, rfl, rfl, rfl, rfl, rfl, rfl⟩

theorem Ppu.portWrite_samePipeline (c : Cartridge) (p : Ppu) (port : BitVec 3) (d : Byte) :
    Ppu.SamePipeline p (p.portWrite c port d) := by
  have hw := Ppu.write_samePipeline c p (Scroll.address p.v) d
  unfold Ppu.portWrite Ppu.writeScroll Ppu.writeAddress
  repeat' split
  all_goals first
    | exact ⟨rfl, rfl, rfl, rfl, rfl, rfl, rfl⟩
    | exact ⟨hw.1, hw.2, hw.3, hw.4, hw.5, hw.6, hw.7⟩

end Sys2Proof.Machine
end

