-- ==== Sys2Proof/Laws/PpuClock.lean ====
section
/-! SUPPORT. What one dot of the picture unit can do: it keeps the unit sound. -/

namespace Sys2Proof.Machine

/-! ## List helpers -/

@[simp] theorem mapFirst_length {α : Type} (f : α → α) : ∀ (n : Nat) (l : List α), (mapFirst f n l).length = l.length
  | 0, _ => rfl
  | _ + 1, [] => rfl
  | n + 1, _ :: l => congrArg (· + 1) (mapFirst_length f n l)

/-- At most `room` records are selected. -/
theorem scanOam_length (oam : Memory 8) (s h : Int) :
    ∀ fuel n room, (scanOam oam s h fuel n room).1.length ≤ room
  | 0, _, _ => Nat.zero_le _
  | fuel + 1, n, room => by
    unfold scanOam
    simp only
    split
    · cases room with
      | zero => exact Nat.le_refl _
      | succ r => exact Nat.succ_le_succ (scanOam_length oam s h fuel (n + 1) r)
    · exact scanOam_length oam s h fuel (n + 1) room

/-! ## What a conditional step changes -/

/-- A part of the unit after a conditional step. -/
theorem Ppu.when_part {α : Type} (g : Ppu → α) (b : Bool) (f : Ppu → Ppu) (p : Ppu) :
    g (p.when b f) = if b then g (f p) else g p := by
  cases b <;> rfl

/-- A part of the unit that a step leaves is left by the conditional step too. -/
theorem Ppu.when_keeps {α : Type} (g : Ppu → α) (b : Bool) {f : Ppu → Ppu} {p : Ppu} (h : g (f p) = g p) :
    g (p.when b f) = g p := by
  cases b
  · rfl
  · exact h

/-- The scroll increments and transfers change `v` alone. -/
theorem Ppu.incrementScrollX_eq (p : Ppu) : p.incrementScrollX = { p with v := p.incrementScrollX.v } := by
  unfold Ppu.incrementScrollX
  repeat' split
  all_goals rfl

theorem Ppu.incrementScrollY_eq (p : Ppu) : p.incrementScrollY = { p with v := p.incrementScrollY.v } := by
  unfold Ppu.incrementScrollY
  simp only
  repeat' split
  all_goals rfl

theorem Ppu.transferX_eq (p : Ppu) : p.transferX = { p with v := p.transferX.v } := by
  unfold Ppu.transferX
  split <;> rfl

theorem Ppu.transferY_eq (p : Ppu) : p.transferY = { p with v := p.transferY.v } := by
  unfold Ppu.transferY
  split <;> rfl

/-- A fetch step changes `v` and the background pipeline alone. -/
theorem Ppu.fetchStep_eq (c : Cartridge) (p : Ppu) (k : Nat) :
    p.fetchStep c k = { p with v := (p.fetchStep c k).v, bg := (p.fetchStep c k).bg } := by
  unfold Ppu.fetchStep
  split
  · rfl
  split
  · rfl
  split
  · rfl
  split
  · rfl
  split
  · unfold Ppu.incrementScrollX
    repeat' split
    all_goals rfl
  · rfl

/-- Shifting changes the background pipeline and the sprite buffer alone. -/
theorem Ppu.updateShifters_eq (p : Ppu) (c : Nat) :
    p.updateShifters c = { p with bg := (p.updateShifters c).bg, sprites := (p.updateShifters c).sprites } := by
  unfold Ppu.updateShifters Ppu.when
  simp only
  repeat' split
  all_goals rfl

/-- Evaluation changes the sprite buffer and the status alone. -/
theorem Ppu.evaluateSprites_eq (p : Ppu) (s : Int) :
    p.evaluateSprites s =
      { p with sprites := (p.evaluateSprites s).sprites, status := (p.evaluateSprites s).status } := by
  unfold Ppu.evaluateSprites Ppu.when
  simp only
  split <;> rfl

/-- Composing a pixel changes the frame buffer, the status and `zero_rendered` alone. -/
theorem Ppu.composePixel_eq (cart : Cartridge) (p : Ppu) (s : Int) (c : Nat) :
    p.composePixel cart s c =
      { p with fb := (p.composePixel cart s c).fb, status := (p.composePixel cart s c).status,
               sprites := { p.sprites with zeroRendered := (p.composePixel cart s c).sprites.zeroRendered } } := by
  unfold Ppu.composePixel Ppu.when
  simp only
  split <;> rfl

/-- The advance changes the coordinates and `frame_complete` alone. -/
theorem Ppu.advance_eq (p : Ppu) :
    p.advance = { p with scanline := p.advance.scanline, cycle := p.advance.cycle,
                         frameComplete := p.advance.frameComplete } := by
  unfold Ppu.advance
  repeat' split
  all_goals rfl

/-! ## Soundness of the steps of a dot -/

/-- The unit after a change that no part of its soundness looks at. -/
theorem Ppu.sound_of_eq {p q : Ppu} (h : p.sound = true) (e : q.sound = p.sound) : q.sound = true := e.trans h

theorem Ppu.when_sound {f : Ppu → Ppu} {p : Ppu} (b : Bool) (h : p.sound = true)
    (hf : b = true → (f p).sound = true) : (p.when b f).sound = true := by
  cases b
  · exact h
  · exact hf rfl

theorem Ppu.when_sound_eq {f : Ppu → Ppu} {p : Ppu} (b : Bool) (hf : (f p).sound = p.sound) :
    (p.when b f).sound = p.sound := by
  cases b
  · rfl
  · exact hf

theorem Ppu.setSlots_sound (p : Ppu) (l : List SpriteSlot) (h : l.length = p.sprites.slots.length) :
    (p.setSlots l).sound = p.sound :=
  Ppu.sound_congr rfl rfl rfl rfl rfl rfl rfl rfl h rfl

theorem Ppu.loadShifters_sound (p : Ppu) : p.loadShifters.sound = p.sound :=
  Ppu.sound_congr rfl rfl rfl rfl rfl rfl rfl rfl rfl rfl

theorem Ppu.incrementScrollX_sound (p : Ppu) : p.incrementScrollX.sound = p.sound := by
  unfold Ppu.incrementScrollX
  repeat' split
  all_goals exact Ppu.sound_congr rfl rfl rfl rfl rfl rfl rfl rfl rfl rfl

theorem Ppu.incrementScrollY_sound (p : Ppu) : p.incrementScrollY.sound = p.sound := by
  unfold Ppu.incrementScrollY
  simp only
  repeat' split
  all_goals exact Ppu.sound_congr rfl rfl rfl rfl rfl rfl rfl rfl rfl rfl

theorem Ppu.transferX_sound (p : Ppu) : p.transferX.sound = p.sound := by
  unfold Ppu.transferX
  split
  · exact Ppu.sound_congr rfl rfl rfl rfl rfl rfl rfl rfl rfl rfl
  · rfl

theorem Ppu.transferY_sound (p : Ppu) : p.transferY.sound = p.sound := by
  unfold Ppu.transferY
  split
  · exact Ppu.sound_congr rfl rfl rfl rfl rfl rfl rfl rfl rfl rfl
  · rfl

theorem Ppu.fetchStep_sound (c : Cartridge) (p : Ppu) (k : Nat) : (p.fetchStep c k).sound = p.sound := by
  unfold Ppu.fetchStep
  split
  · exact Ppu.sound_congr rfl rfl rfl rfl rfl rfl rfl rfl rfl rfl
  split
  · exact Ppu.sound_congr rfl rfl rfl rfl rfl rfl rfl rfl rfl rfl
  split
  · exact Ppu.sound_congr rfl rfl rfl rfl rfl rfl rfl rfl rfl rfl
  split
  · exact Ppu.sound_congr rfl rfl rfl rfl rfl rfl rfl rfl rfl rfl
  split
  · exact p.incrementScrollX_sound
  · rfl

theorem Ppu.shiftBackground_sound (p : Ppu) : p.shiftBackground.sound = p.sound :=
  Ppu.sound_congr rfl rfl rfl rfl rfl rfl rfl rfl rfl rfl

theorem Ppu.tickSprites_sound (p : Ppu) : p.tickSprites.sound = p.sound :=
  Ppu.setSlots_sound p _ (mapFirst_length ..)

theorem Ppu.updateShifters_sound (p : Ppu) (c : Nat) : (p.updateShifters c).sound = p.sound :=
  (Ppu.when_sound_eq _ (Ppu.tickSprites_sound _)).trans (Ppu.when_sound_eq _ p.shiftBackground_sound)

theorem Ppu.clearStatus_sound (p : Ppu) : p.clearStatus.sound = p.sound :=
  (Ppu.setSpriteZeroHit_sound _ _).trans ((Ppu.setSpriteOverflow_sound _ _).trans (Ppu.setVerticalBlank_sound _ _))

theorem Ppu.clearFlags_sound (p : Ppu) : p.clearFlags.sound = p.sound :=
  (Ppu.setSlots_sound p.clearStatus _ (List.length_map _)).trans p.clearStatus_sound

theorem Ppu.fetchSprites_sound (c : Cartridge) (p : Ppu) (s : Int) : (p.fetchSprites c s).sound = p.sound :=
  Ppu.setSlots_sound p _ (mapFirst_length ..)

theorem Ppu.setSprites_sound (p : Ppu) (s : Sprites) (h : p.sound = true) (hl : s.slots.length = 8)
    (hc : s.count ≤ 8) : (p.setSprites s).sound = true := by
  obtain ⟨h1, h2, h3, h4, h5, h6, h7, h8, -, -⟩ := (Ppu.sound_iff p).1 h
  exact (Ppu.sound_iff _).2 ⟨h1, h2, h3, h4, h5, h6, h7, h8, hl, hc⟩

theorem Ppu.evaluateSprites_sound (p : Ppu) (s : Int) (h : p.sound = true) : (p.evaluateSprites s).sound = true := by
  have hlen := scanOam_length p.oam s p.spriteHeight 64 0 8
  unfold Ppu.evaluateSprites
  simp only
  have hs : (p.setSprites (p.sprites.refill (scanOam p.oam s p.spriteHeight 64 0 8).1
      (inRange p.oam s p.spriteHeight 0))).sound = true := by
    refine p.setSprites_sound _ h ?_ hlen
    simp only [Sprites.refill, List.length_append, List.length_replicate]
    omega
  exact Ppu.when_sound _ hs fun _ => Ppu.sound_of_eq hs (Ppu.setSpriteOverflow_sound _ true)

theorem Ppu.startVBlank_sound (p : Ppu) : p.startVBlank.sound = p.sound :=
  (Ppu.when_sound_eq _ (Ppu.sound_congr rfl rfl rfl rfl rfl rfl rfl rfl rfl rfl)).trans
    (p.setVerticalBlank_sound true)

theorem Ppu.setZeroRendered_sound (p : Ppu) (b : Bool) : (p.setZeroRendered b).sound = p.sound :=
  Ppu.sound_congr rfl rfl rfl rfl rfl rfl rfl rfl rfl rfl

theorem Ppu.plot_sound (p : Ppu) (s : Int) (c : Nat) (k : Colour) (hs : 0 ≤ s ∧ s ≤ 239) (hc : 1 ≤ c ∧ c ≤ 256)
    (h : p.sound = true) : (p.plot s c k).sound = true := by
  obtain ⟨h1, h2, h3, h4, h5, h6⟩ := (Ppu.sound_iff p).1 h
  exact (Ppu.sound_iff _).2 ⟨h1, h2, h3, h4, Memory.wf_write _ (by omega) h5, h6⟩

theorem Ppu.composePixel_sound (cart : Cartridge) (p : Ppu) (s : Int) (c : Nat) (hs : 0 ≤ s ∧ s ≤ 239)
    (hc : 1 ≤ c ∧ c ≤ 256) (h : p.sound = true) : (p.composePixel cart s c).sound = true := by
  unfold Ppu.composePixel
  simp only
  refine Ppu.plot_sound _ s c _ hs hc ?_
  exact Ppu.sound_of_eq h ((Ppu.when_sound_eq _ (Ppu.setSpriteZeroHit_sound _ true)).trans
    (p.setZeroRendered_sound _))

theorem Ppu.advance_sound (p : Ppu) (h : p.sound = true) : p.advance.sound = true := by
  obtain ⟨h1, h2, h3, h4, h5, h6, h7, h8, h9, h10⟩ := (Ppu.sound_iff p).1 h
  unfold Ppu.advance
  split
  · split
    · exact (Ppu.sound_iff _).2 ⟨h1, h2, h3, h4, h5, ⟨le_refl _, by norm_num⟩, Nat.zero_le _, h8, h9, h10⟩
    · exact (Ppu.sound_iff _).2
        ⟨h1, h2, h3, h4, h5, ⟨by simp only; omega, by simp only; omega⟩, Nat.zero_le _, h8, h9, h10⟩
  · exact (Ppu.sound_iff _).2 ⟨h1, h2, h3, h4, h5, h6, by simp only; omega, h8, h9, h10⟩

theorem Ppu.renderStep_sound (cart : Cartridge) (s : Int) (c : Nat) (p : Ppu) (h : p.sound = true) :
    (Ppu.renderStep cart s c p).sound = true := by
  unfold Ppu.renderStep
  simp only
  have h1 := Ppu.sound_of_eq h (Ppu.when_sound_eq (decide (s = -1 ∧ c = 1)) p.clearFlags_sound)
  have h2 := Ppu.sound_of_eq h1 (Ppu.when_sound_eq (f := fun p => (p.updateShifters c).fetchStep cart ((c - 1) % 8))
    (decide ((2 ≤ c ∧ c ≤ 257) ∨ (321 ≤ c ∧ c ≤ 337)))
    ((Ppu.fetchStep_sound cart _ _).trans (Ppu.updateShifters_sound _ c)))
  have h3 := Ppu.sound_of_eq h2 (Ppu.when_sound_eq (decide (c = 256)) (Ppu.incrementScrollY_sound _))
  have h4 := Ppu.sound_of_eq h3 (Ppu.when_sound_eq (f := fun p => p.loadShifters.transferX) (decide (c = 257))
    ((Ppu.transferX_sound _).trans (Ppu.loadShifters_sound _)))
  have h5 := Ppu.sound_of_eq h4 (Ppu.when_sound_eq (decide (s = -1 ∧ 280 ≤ c ∧ c ≤ 304)) (Ppu.transferY_sound _))
  have h6 := Ppu.when_sound (f := fun p => p.evaluateSprites s) (decide (c = 257 ∧ 0 ≤ s)) h5
    fun _ => Ppu.evaluateSprites_sound _ s h5
  exact Ppu.sound_of_eq h6 (Ppu.when_sound_eq (f := fun p => p.fetchSprites cart s) _ (Ppu.fetchSprites_sound cart _ s))

/-- One dot keeps the unit sound. -/
theorem Ppu.clock_sound (cart : Cartridge) (p : Ppu) (h : p.sound = true) : (p.clock cart).sound = true := by
  unfold Ppu.clock
  simp only
  have h1 := Ppu.when_sound (f := Ppu.renderStep cart p.scanline p.cycle)
    (decide (-1 ≤ p.scanline ∧ p.scanline ≤ 239)) h fun _ => Ppu.renderStep_sound cart _ _ p h
  have h2 := Ppu.sound_of_eq h1
    (Ppu.when_sound_eq (decide (p.scanline = 241 ∧ p.cycle = 1)) (Ppu.startVBlank_sound _))
  refine Ppu.advance_sound _ (Ppu.when_sound _ h2 fun hb => ?_)
  simp only [decide_eq_true_eq] at hb
  exact Ppu.composePixel_sound cart _ _ _ ⟨hb.1, hb.2.1⟩ hb.2.2 h2

end Sys2Proof.Machine
end

