-- ==== Sys2Proof/Laws/State.lean ====
section
/-! SUPPORT. One lemma per field per named update of `State`, so that no proof unfolds a record update. -/

namespace Sys2Proof.Machine

variable (s : State)

/-! ## setA -/

@[simp] theorem State.setA_a (v : Byte) : (s.setA v).a = v := rfl
@[simp] theorem State.setA_x (v : Byte) : (s.setA v).x = s.x := rfl
@[simp] theorem State.setA_y (v : Byte) : (s.setA v).y = s.y := rfl
@[simp] theorem State.setA_sp (v : Byte) : (s.setA v).sp = s.sp := rfl
@[simp] theorem State.setA_pc (v : Byte) : (s.setA v).pc = s.pc := rfl
@[simp] theorem State.setA_p (v : Byte) : (s.setA v).p = s.p := rfl
@[simp] theorem State.setA_cycles (v : Byte) : (s.setA v).cycles = s.cycles := rfl
@[simp] theorem State.setA_ram (v : Byte) : (s.setA v).ram = s.ram := rfl
@[simp] theorem State.setA_dma (v : Byte) : (s.setA v).dma = s.dma := rfl
@[simp] theorem State.setA_pad0 (v : Byte) : (s.setA v).pad0 = s.pad0 := rfl
@[simp] theorem State.setA_pad1 (v : Byte) : (s.setA v).pad1 = s.pad1 := rfl
@[simp] theorem State.setA_ppu (v : Byte) : (s.setA v).ppu = s.ppu := rfl
@[simp] theorem State.setA_cart (v : Byte) : (s.setA v).cart = s.cart := rfl
@[simp] theorem State.setA_tick (v : Byte) : (s.setA v).tick = s.tick := rfl
@[simp] theorem State.setA_openReads (v : Byte) : (s.setA v).openReads = s.openReads := rfl

/-! ## setX -/

@[simp] theorem State.setX_a (v : Byte) : (s.setX v).a = s.a := rfl
@[simp] theorem State.setX_x (v : Byte) : (s.setX v).x = v := rfl
@[simp] theorem State.setX_y (v : Byte) : (s.setX v).y = s.y := rfl
@[simp] theorem State.setX_sp (v : Byte) : (s.setX v).sp = s.sp := rfl
@[simp] theorem State.setX_pc (v : Byte) : (s.setX v).pc = s.pc := rfl
@[simp] theorem State.setX_p (v : Byte) : (s.setX v).p = s.p := rfl
@[simp] theorem State.setX_cycles (v : Byte) : (s.setX v).cycles = s.cycles := rfl
@[simp] theorem State.setX_ram (v : Byte) : (s.setX v).ram = s.ram := rfl
@[simp] theorem State.setX_dma (v : Byte) : (s.setX v).dma = s.dma := rfl
@[simp] theorem State.setX_pad0 (v : Byte) : (s.setX v).pad0 = s.pad0 := rfl
@[simp] theorem State.setX_pad1 (v : Byte) : (s.setX v).pad1 = s.pad1 := rfl
@[simp] theorem State.setX_ppu (v : Byte) : (s.setX v).ppu = s.ppu := rfl
@[simp] theorem State.setX_cart (v : Byte) : (s.setX v).cart = s.cart := rfl
@[simp] theorem State.setX_tick (v : Byte) : (s.setX v).tick = s.tick := rfl
@[simp] theorem State.setX_openReads (v : Byte) : (s.setX v).openReads = s.openReads := rfl

/-! ## setY -/

@[simp] theorem State.setY_a (v : Byte) : (s.setY v).a = s.a := rfl
@[simp] theorem State.setY_x (v : Byte) : (s.setY v).x = s.x := rfl
@[simp] theorem State.setY_y (v : Byte) : (s.setY v).y = v := rfl
@[simp] theorem State.setY_sp (v : Byte) : (s.setY v).sp = s.sp := rfl
@[simp] theorem State.setY_pc (v : Byte) : (s.setY v).pc = s.pc := rfl
@[simp] theorem State.setY_p (v : Byte) : (s.setY v).p = s.p := rfl
@[simp] theorem State.setY_cycles (v : Byte) : (s.setY v).cycles = s.cycles := rfl
@[simp] theorem State.setY_ram (v : Byte) : (s.setY v).ram = s.ram := rfl
@[simp] theorem State.setY_dma (v : Byte) : (s.setY v).dma = s.dma := rfl
@[simp] theorem State.setY_pad0 (v : Byte) : (s.setY v).pad0 = s.pad0 := rfl
@[simp] theorem State.setY_pad1 (v : Byte) : (s.setY v).pad1 = s.pad1 := rfl
@[simp] theorem State.setY_ppu (v : Byte) : (s.setY v).ppu = s.ppu := rfl
@[simp] theorem State.setY_cart (v : Byte) : (s.setY v).cart = s.cart := rfl
@[simp] theorem State.setY_tick (v : Byte) : (s.setY v).tick = s.tick := rfl
@[simp] theorem State.setY_openReads (v : Byte) : (s.setY v).openReads = s.openReads := rfl

/-! ## setSp -/

@[simp] theorem State.setSp_a (v : Byte) : (s.setSp v).a = s.a := rfl
@[simp] theorem State.setSp_x (v : Byte) : (s.setSp v).x = s.x := rfl
@[simp] theorem State.setSp_y (v : Byte) : (s.setSp v).y = s.y := rfl
@[simp] theorem State.setSp_sp (v : Byte) : (s.setSp v).sp = v := rfl
@[simp] theorem State.setSp_pc (v : Byte) : (s.setSp v).pc = s.pc := rfl
@[simp] theorem State.setSp_p (v : Byte) : (s.setSp v).p = s.p := rfl
@[simp] theorem State.setSp_cycles (v : Byte) : (s.setSp v).cycles = s.cycles := rfl
@[simp] theorem State.setSp_ram (v : Byte) : (s.setSp v).ram = s.ram := rfl
@[simp] theorem State.setSp_dma (v : Byte) : (s.setSp v).dma = s.dma := rfl
@[simp] theorem State.setSp_pad0 (v : Byte) : (s.setSp v).pad0 = s.pad0 := rfl
@[simp] theorem State.setSp_pad1 (v : Byte) : (s.setSp v).pad1 = s.pad1 := rfl
@[simp] theorem State.setSp_ppu (v : Byte) : (s.setSp v).ppu = s.ppu := rfl
@[simp] theorem State.setSp_cart (v : Byte) : (s.setSp v).cart = s.cart := rfl
@[simp] theorem State.setSp_tick (v : Byte) : (s.setSp v).tick = s.tick := rfl
@[simp] theorem State.setSp_openReads (v : Byte) : (s.setSp v).openReads = s.openReads := rfl

/-! ## setPc -/

@[simp] theorem State.setPc_a (v : Word) : (s.setPc v).a = s.a := rfl
@[simp] theorem State.setPc_x (v : Word) : (s.setPc v).x = s.x := rfl
@[simp] theorem State.setPc_y (v : Word) : (s.setPc v).y = s.y := rfl
@[simp] theorem State.setPc_sp (v : Word) : (s.setPc v).sp = s.sp := rfl
@[simp] theorem State.setPc_pc (v : Word) : (s.setPc v).pc = v := rfl
@[simp] theorem State.setPc_p (v : Word) : (s.setPc v).p = s.p := rfl
@[simp] theorem State.setPc_cycles (v : Word) : (s.setPc v).cycles = s.cycles := rfl
@[simp] theorem State.setPc_ram (v : Word) : (s.setPc v).ram = s.ram := rfl
@[simp] theorem State.setPc_dma (v : Word) : (s.setPc v).dma = s.dma := rfl
@[simp] theorem State.setPc_pad0 (v : Word) : (s.setPc v).pad0 = s.pad0 := rfl
@[simp] theorem State.setPc_pad1 (v : Word) : (s.setPc v).pad1 = s.pad1 := rfl
@[simp] theorem State.setPc_ppu (v : Word) : (s.setPc v).ppu = s.ppu := rfl
@[simp] theorem State.setPc_cart (v : Word) : (s.setPc v).cart = s.cart := rfl
@[simp] theorem State.setPc_tick (v : Word) : (s.setPc v).tick = s.tick := rfl
@[simp] theorem State.setPc_openReads (v : Word) : (s.setPc v).openReads = s.openReads := rfl

/-! ## setP -/

@[simp] theorem State.setP_a (v : Byte) : (s.setP v).a = s.a := rfl
@[simp] theorem State.setP_x (v : Byte) : (s.setP v).x = s.x := rfl
@[simp] theorem State.setP_y (v : Byte) : (s.setP v).y = s.y := rfl
@[simp] theorem State.setP_sp (v : Byte) : (s.setP v).sp = s.sp := rfl
@[simp] theorem State.setP_pc (v : Byte) : (s.setP v).pc = s.pc := rfl
@[simp] theorem State.setP_p (v : Byte) : (s.setP v).p = v := rfl
@[simp] theorem State.setP_cycles (v : Byte) : (s.setP v).cycles = s.cycles := rfl
@[simp] theorem State.setP_ram (v : Byte) : (s.setP v).ram = s.ram := rfl
@[simp] theorem State.setP_dma (v : Byte) : (s.setP v).dma = s.dma := rfl
@[simp] theorem State.setP_pad0 (v : Byte) : (s.setP v).pad0 = s.pad0 := rfl
@[simp] theorem State.setP_pad1 (v : Byte) : (s.setP v).pad1 = s.pad1 := rfl
@[simp] theorem State.setP_ppu (v : Byte) : (s.setP v).ppu = s.ppu := rfl
@[simp] theorem State.setP_cart (v : Byte) : (s.setP v).cart = s.cart := rfl
@[simp] theorem State.setP_tick (v : Byte) : (s.setP v).tick = s.tick := rfl
@[simp] theorem State.setP_openReads (v : Byte) : (s.setP v).openReads = s.openReads := rfl

/-! ## setRam -/

@[simp] theorem State.setRam_a (v : Memory 8) : (s.setRam v).a = s.a := rfl
@[simp] theorem State.setRam_x (v : Memory 8) : (s.setRam v).x = s.x := rfl
@[simp] theorem State.setRam_y (v : Memory 8) : (s.setRam v).y = s.y := rfl
@[simp] theorem State.setRam_sp (v : Memory 8) : (s.setRam v).sp = s.sp := rfl
@[simp] theorem State.setRam_pc (v : Memory 8) : (s.setRam v).pc = s.pc := rfl
@[simp] theorem State.setRam_p (v : Memory 8) : (s.setRam v).p = s.p := rfl
@[simp] theorem State.setRam_cycles (v : Memory 8) : (s.setRam v).cycles = s.cycles := rfl
@[simp] theorem State.setRam_ram (v : Memory 8) : (s.setRam v).ram = v := rfl
@[simp] theorem State.setRam_dma (v : Memory 8) : (s.setRam v).dma = s.dma := rfl
@[simp] theorem State.setRam_pad0 (v : Memory 8) : (s.setRam v).pad0 = s.pad0 := rfl
@[simp] theorem State.setRam_pad1 (v : Memory 8) : (s.setRam v).pad1 = s.pad1 := rfl
@[simp] theorem State.setRam_ppu (v : Memory 8) : (s.setRam v).ppu = s.ppu := rfl
@[simp] theorem State.setRam_cart (v : Memory 8) : (s.setRam v).cart = s.cart := rfl
@[simp] theorem State.setRam_tick (v : Memory 8) : (s.setRam v).tick = s.tick := rfl
@[simp] theorem State.setRam_openReads (v : Memory 8) : (s.setRam v).openReads = s.openReads := rfl

/-! ## setDma -/

@[simp] theorem State.setDma_a (v : Dma) : (s.setDma v).a = s.a := rfl
@[simp] theorem State.setDma_x (v : Dma) : (s.setDma v).x = s.x := rfl
@[simp] theorem State.setDma_y (v : Dma) : (s.setDma v).y = s.y := rfl
@[simp] theorem State.setDma_sp (v : Dma) : (s.setDma v).sp = s.sp := rfl
@[simp] theorem State.setDma_pc (v : Dma) : (s.setDma v).pc = s.pc := rfl
@[simp] theorem State.setDma_p (v : Dma) : (s.setDma v).p = s.p := rfl
@[simp] theorem State.setDma_cycles (v : Dma) : (s.setDma v).cycles = s.cycles := rfl
@[simp] theorem State.setDma_ram (v : Dma) : (s.setDma v).ram = s.ram := rfl
@[simp] theorem State.setDma_dma (v : Dma) : (s.setDma v).dma = v := rfl
@[simp] theorem State.setDma_pad0 (v : Dma) : (s.setDma v).pad0 = s.pad0 := rfl
@[simp] theorem State.setDma_pad1 (v : Dma) : (s.setDma v).pad1 = s.pad1 := rfl
@[simp] theorem State.setDma_ppu (v : Dma) : (s.setDma v).ppu = s.ppu := rfl
@[simp] theorem State.setDma_cart (v : Dma) : (s.setDma v).cart = s.cart := rfl
@[simp] theorem State.setDma_tick (v : Dma) : (s.setDma v).tick = s.tick := rfl
@[simp] theorem State.setDma_openReads (v : Dma) : (s.setDma v).openReads = s.openReads := rfl

/-! ## setPad0 -/

@[simp] theorem State.setPad0_a (v : Pad) : (s.setPad0 v).a = s.a := rfl
@[simp] theorem State.setPad0_x (v : Pad) : (s.setPad0 v).x = s.x := rfl
@[simp] theorem State.setPad0_y (v : Pad) : (s.setPad0 v).y = s.y := rfl
@[simp] theorem State.setPad0_sp (v : Pad) : (s.setPad0 v).sp = s.sp := rfl
@[simp] theorem State.setPad0_pc (v : Pad) : (s.setPad0 v).pc = s.pc := rfl
@[simp] theorem State.setPad0_p (v : Pad) : (s.setPad0 v).p = s.p := rfl
@[simp] theorem State.setPad0_cycles (v : Pad) : (s.setPad0 v).cycles = s.cycles := rfl
@[simp] theorem State.setPad0_ram (v : Pad) : (s.setPad0 v).ram = s.ram := rfl
@[simp] theorem State.setPad0_dma (v : Pad) : (s.setPad0 v).dma = s.dma := rfl
@[simp] theorem State.setPad0_pad0 (v : Pad) : (s.setPad0 v).pad0 = v := rfl
@[simp] theorem State.setPad0_pad1 (v : Pad) : (s.setPad0 v).pad1 = s.pad1 := rfl
@[simp] theorem State.setPad0_ppu (v : Pad) : (s.setPad0 v).ppu = s.ppu := rfl
@[simp] theorem State.setPad0_cart (v : Pad) : (s.setPad0 v).cart = s.cart := rfl
@[simp] theorem State.setPad0_tick (v : Pad) : (s.setPad0 v).tick = s.tick := rfl
@[simp] theorem State.setPad0_openReads (v : Pad) : (s.setPad0 v).openReads = s.openReads := rfl

/-! ## setPad1 -/

@[simp] theorem State.setPad1_a (v : Pad) : (s.setPad1 v).a = s.a := rfl
@[simp] theorem State.setPad1_x (v : Pad) : (s.setPad1 v).x = s.x := rfl
@[simp] theorem State.setPad1_y (v : Pad) : (s.setPad1 v).y = s.y := rfl
@[simp] theorem State.setPad1_sp (v : Pad) : (s.setPad1 v).sp = s.sp := rfl
@[simp] theorem State.setPad1_pc (v : Pad) : (s.setPad1 v).pc = s.pc := rfl
@[simp] theorem State.setPad1_p (v : Pad) : (s.setPad1 v).p = s.p := rfl
@[simp] theorem State.setPad1_cycles (v : Pad) : (s.setPad1 v).cycles = s.cycles := rfl
@[simp] theorem State.setPad1_ram (v : Pad) : (s.setPad1 v).ram = s.ram := rfl
@[simp] theorem State.setPad1_dma (v : Pad) : (s.setPad1 v).dma = s.dma := rfl
@[simp] theorem State.setPad1_pad0 (v : Pad) : (s.setPad1 v).pad0 = s.pad0 := rfl
@[simp] theorem State.setPad1_pad1 (v : Pad) : (s.setPad1 v).pad1 = v := rfl
@[simp] theorem State.setPad1_ppu (v : Pad) : (s.setPad1 v).ppu = s.ppu := rfl
@[simp] theorem State.setPad1_cart (v : Pad) : (s.setPad1 v).cart = s.cart := rfl
@[simp] theorem State.setPad1_tick (v : Pad) : (s.setPad1 v).tick = s.tick := rfl
@[simp] theorem State.setPad1_openReads (v : Pad) : (s.setPad1 v).openReads = s.openReads := rfl

/-! ## setPpu -/

@[simp] theorem State.setPpu_a (v : Ppu) : (s.setPpu v).a = s.a := rfl
@[simp] theorem State.setPpu_x (v : Ppu) : (s.setPpu v).x = s.x := rfl
@[simp] theorem State.setPpu_y (v : Ppu) : (s.setPpu v).y = s.y := rfl
@[simp] theorem State.setPpu_sp (v : Ppu) : (s.setPpu v).sp = s.sp := rfl
@[simp] theorem State.setPpu_pc (v : Ppu) : (s.setPpu v).pc = s.pc := rfl
@[simp] theorem State.setPpu_p (v : Ppu) : (s.setPpu v).p = s.p := rfl
@[simp] theorem State.setPpu_cycles (v : Ppu) : (s.setPpu v).cycles = s.cycles := rfl
@[simp] theorem State.setPpu_ram (v : Ppu) : (s.setPpu v).ram = s.ram := rfl
@[simp] theorem State.setPpu_dma (v : Ppu) : (s.setPpu v).dma = s.dma := rfl
@[simp] theorem State.setPpu_pad0 (v : Ppu) : (s.setPpu v).pad0 = s.pad0 := rfl
@[simp] theorem State.setPpu_pad1 (v : Ppu) : (s.setPpu v).pad1 = s.pad1 := rfl
@[simp] theorem State.setPpu_ppu (v : Ppu) : (s.setPpu v).ppu = v := rfl
@[simp] theorem State.setPpu_cart (v : Ppu) : (s.setPpu v).cart = s.cart := rfl
@[simp] theorem State.setPpu_tick (v : Ppu) : (s.setPpu v).tick = s.tick := rfl
@[simp] theorem State.setPpu_openReads (v : Ppu) : (s.setPpu v).openReads = s.openReads := rfl

/-! ## setTick -/

@[simp] theorem State.setTick_a (v : Nat) : (s.setTick v).a = s.a := rfl
@[simp] theorem State.setTick_x (v : Nat) : (s.setTick v).x = s.x := rfl
@[simp] theorem State.setTick_y (v : Nat) : (s.setTick v).y = s.y := rfl
@[simp] theorem State.setTick_sp (v : Nat) : (s.setTick v).sp = s.sp := rfl
@[simp] theorem State.setTick_pc (v : Nat) : (s.setTick v).pc = s.pc := rfl
@[simp] theorem State.setTick_p (v : Nat) : (s.setTick v).p = s.p := rfl
@[simp] theorem State.setTick_cycles (v : Nat) : (s.setTick v).cycles = s.cycles := rfl
@[simp] theorem State.setTick_ram (v : Nat) : (s.setTick v).ram = s.ram := rfl
@[simp] theorem State.setTick_dma (v : Nat) : (s.setTick v).dma = s.dma := rfl
@[simp] theorem State.setTick_pad0 (v : Nat) : (s.setTick v).pad0 = s.pad0 := rfl
@[simp] theorem State.setTick_pad1 (v : Nat) : (s.setTick v).pad1 = s.pad1 := rfl
@[simp] theorem State.setTick_ppu (v : Nat) : (s.setTick v).ppu = s.ppu := rfl
@[simp] theorem State.setTick_cart (v : Nat) : (s.setTick v).cart = s.cart := rfl
@[simp] theorem State.setTick_tick (v : Nat) : (s.setTick v).tick = v := rfl
@[simp] theorem State.setTick_openReads (v : Nat) : (s.setTick v).openReads = s.openReads := rfl

/-! ## setOpenReads -/

@[simp] theorem State.setOpenReads_a (v : Nat) : (s.setOpenReads v).a = s.a := rfl
@[simp] theorem State.setOpenReads_x (v : Nat) : (s.setOpenReads v).x = s.x := rfl
@[simp] theorem State.setOpenReads_y (v : Nat) : (s.setOpenReads v).y = s.y := rfl
@[simp] theorem State.setOpenReads_sp (v : Nat) : (s.setOpenReads v).sp = s.sp := rfl
@[simp] theorem State.setOpenReads_pc (v : Nat) : (s.setOpenReads v).pc = s.pc := rfl
@[simp] theorem State.setOpenReads_p (v : Nat) : (s.setOpenReads v).p = s.p := rfl
@[simp] theorem State.setOpenReads_cycles (v : Nat) : (s.setOpenReads v).cycles = s.cycles := rfl
@[simp] theorem State.setOpenReads_ram (v : Nat) : (s.setOpenReads v).ram = s.ram := rfl
@[simp] theorem State.setOpenReads_dma (v : Nat) : (s.setOpenReads v).dma = s.dma := rfl
@[simp] theorem State.setOpenReads_pad0 (v : Nat) : (s.setOpenReads v).pad0 = s.pad0 := rfl
@[simp] theorem State.setOpenReads_pad1 (v : Nat) : (s.setOpenReads v).pad1 = s.pad1 := rfl
@[simp] theorem State.setOpenReads_ppu (v : Nat) : (s.setOpenReads v).ppu = s.ppu := rfl
@[simp] theorem State.setOpenReads_cart (v : Nat) : (s.setOpenReads v).cart = s.cart := rfl
@[simp] theorem State.setOpenReads_tick (v : Nat) : (s.setOpenReads v).tick = s.tick := rfl
@[simp] theorem State.setOpenReads_openReads (v : Nat) : (s.setOpenReads v).openReads = v := rfl

/-! ## charge -/

@[simp] theorem State.charge_a (v : Nat) : (s.charge v).a = s.a := rfl
@[simp] theorem State.charge_x (v : Nat) : (s.charge v).x = s.x := rfl
@[simp] theorem State.charge_y (v : Nat) : (s.charge v).y = s.y := rfl
@[simp] theorem State.charge_sp (v : Nat) : (s.charge v).sp = s.sp := rfl
@[simp] theorem State.charge_pc (v : Nat) : (s.charge v).pc = s.pc := rfl
@[simp] theorem State.charge_p (v : Nat) : (s.charge v).p = s.p := rfl
@[simp] theorem State.charge_cycles (v : Nat) : (s.charge v).cycles = s.cycles + v := rfl
@[simp] theorem State.charge_ram (v : Nat) : (s.charge v).ram = s.ram := rfl
@[simp] theorem State.charge_dma (v : Nat) : (s.charge v).dma = s.dma := rfl
@[simp] theorem State.charge_pad0 (v : Nat) : (s.charge v).pad0 = s.pad0 := rfl
@[simp] theorem State.charge_pad1 (v : Nat) : (s.charge v).pad1 = s.pad1 := rfl
@[simp] theorem State.charge_ppu (v : Nat) : (s.charge v).ppu = s.ppu := rfl
@[simp] theorem State.charge_cart (v : Nat) : (s.charge v).cart = s.cart := rfl
@[simp] theorem State.charge_tick (v : Nat) : (s.charge v).tick = s.tick := rfl
@[simp] theorem State.charge_openReads (v : Nat) : (s.charge v).openReads = s.openReads := rfl

/-! ## Updates that are one of these -/

theorem State.advancePc_eq : s.advancePc = s.setPc (s.pc + 1) := rfl

@[simp] theorem State.advancePc_pc : s.advancePc.pc = s.pc + 1 := rfl
@[simp] theorem State.advancePc_a : s.advancePc.a = s.a := rfl
@[simp] theorem State.advancePc_x : s.advancePc.x = s.x := rfl
@[simp] theorem State.advancePc_y : s.advancePc.y = s.y := rfl
@[simp] theorem State.advancePc_sp : s.advancePc.sp = s.sp := rfl
@[simp] theorem State.advancePc_p : s.advancePc.p = s.p := rfl
@[simp] theorem State.advancePc_cycles : s.advancePc.cycles = s.cycles := rfl
@[simp] theorem State.advancePc_ram : s.advancePc.ram = s.ram := rfl
@[simp] theorem State.advancePc_dma : s.advancePc.dma = s.dma := rfl
@[simp] theorem State.advancePc_pad0 : s.advancePc.pad0 = s.pad0 := rfl
@[simp] theorem State.advancePc_pad1 : s.advancePc.pad1 = s.pad1 := rfl
@[simp] theorem State.advancePc_ppu : s.advancePc.ppu = s.ppu := rfl
@[simp] theorem State.advancePc_cart : s.advancePc.cart = s.cart := rfl
@[simp] theorem State.advancePc_tick : s.advancePc.tick = s.tick := rfl
@[simp] theorem State.advancePc_openReads : s.advancePc.openReads = s.openReads := rfl

@[simp] theorem State.setPad_a (b : Bool) (d : Pad) : (s.setPad b d).a = s.a := by cases b <;> rfl
@[simp] theorem State.setPad_x (b : Bool) (d : Pad) : (s.setPad b d).x = s.x := by cases b <;> rfl
@[simp] theorem State.setPad_y (b : Bool) (d : Pad) : (s.setPad b d).y = s.y := by cases b <;> rfl
@[simp] theorem State.setPad_sp (b : Bool) (d : Pad) : (s.setPad b d).sp = s.sp := by cases b <;> rfl
@[simp] theorem State.setPad_pc (b : Bool) (d : Pad) : (s.setPad b d).pc = s.pc := by cases b <;> rfl
@[simp] theorem State.setPad_p (b : Bool) (d : Pad) : (s.setPad b d).p = s.p := by cases b <;> rfl
@[simp] theorem State.setPad_cycles (b : Bool) (d : Pad) : (s.setPad b d).cycles = s.cycles := by cases b <;> rfl
@[simp] theorem State.setPad_ram (b : Bool) (d : Pad) : (s.setPad b d).ram = s.ram := by cases b <;> rfl
@[simp] theorem State.setPad_dma (b : Bool) (d : Pad) : (s.setPad b d).dma = s.dma := by cases b <;> rfl
@[simp] theorem State.setPad_ppu (b : Bool) (d : Pad) : (s.setPad b d).ppu = s.ppu := by cases b <;> rfl
@[simp] theorem State.setPad_cart (b : Bool) (d : Pad) : (s.setPad b d).cart = s.cart := by cases b <;> rfl
@[simp] theorem State.setPad_tick (b : Bool) (d : Pad) : (s.setPad b d).tick = s.tick := by cases b <;> rfl
@[simp] theorem State.setPad_openReads (b : Bool) (d : Pad) : (s.setPad b d).openReads = s.openReads := by cases b <;> rfl

@[simp] theorem State.pad_setPad (b : Bool) (d : Pad) : (s.setPad b d).pad b = d := by cases b <;> rfl

theorem State.pad_setPad_ne (b c : Bool) (d : Pad) (h : c ≠ b) : (s.setPad b d).pad c = s.pad c := by
  cases b <;> cases c <;> first | rfl | exact absurd rfl h

end Sys2Proof.Machine
end

