-- ==== Sys2Proof/Laws/Bus.lean ====
section
/-! SUPPORT. What the bus decoder, the stack and the plain-memory read can do: the device an address selects, what an
access changes, and what it leaves alone. -/

namespace Sys2Proof.Machine

/-! ## Decoding an address -/

theorem Cartridge.cpuRead_low (c : Cartridge) {a : Word} (h : a < 0x8000) : c.cpuRead a = none :=
  if_neg (by bv_omega)

theorem Cartridge.cpuRead_high (c : Cartridge) {a : Word} (h : 0x8000 ≤ a) :
    c.cpuRead a = some (a &&& c.prgMask).toNat :=
  if_pos h

/-- The device a read selects below the cartridge's window (R72, R74). -/
theorem readDevice_low (c : Cartridge) {a : Word} (h : a < 0x8000) :
    readDevice c a =
      if a ≤ 0x1FFF then .ram (ramIndex a)
      else if a ≤ 0x3FFF then .port (a.setWidth 3)
      else if a = 0x4016 ∨ a = 0x4017 then .pad (a.getLsbD 0)
      else .nothing := by
  unfold readDevice
  rw [c.cpuRead_low h]
  split
  · next e => split at e <;> cases e
  · rfl

theorem readDevice_ram (c : Cartridge) {a : Word} (h : a ≤ 0x1FFF) : readDevice c a = .ram (ramIndex a) := by
  rw [readDevice_low c (by bv_omega), if_pos h]

theorem readDevice_port (c : Cartridge) {a : Word} (h : 0x2000 ≤ a) (h' : a ≤ 0x3FFF) :
    readDevice c a = .port (a.setWidth 3) := by
  rw [readDevice_low c (by bv_omega), if_neg (by bv_omega), if_pos h']

theorem readDevice_rom (c : Cartridge) {a : Word} (hc : c.present = true) (h : 0x8000 ≤ a) :
    readDevice c a = .prg (a &&& c.prgMask).toNat := by
  unfold readDevice
  rw [hc, if_pos rfl, c.cpuRead_high h]

theorem writeDevice_low (c : Cartridge) {a : Word} (h : a < 0x8000) :
    writeDevice c a =
      if a ≤ 0x1FFF then .ram (ramIndex a)
      else if a ≤ 0x3FFF then .port (a.setWidth 3)
      else if a = 0x4014 then .dmaTrigger
      else if a = 0x4016 ∨ a = 0x4017 then .pad (a.getLsbD 0)
      else .nothing := by
  have hw : c.cpuWrite a = false := decide_eq_false (by bv_omega)
  unfold writeDevice
  rw [hw, Bool.and_false, if_neg (by decide)]

theorem writeDevice_ram (c : Cartridge) {a : Word} (h : a ≤ 0x1FFF) : writeDevice c a = .ram (ramIndex a) := by
  rw [writeDevice_low c (by bv_omega), if_pos h]

theorem writeDevice_high (c : Cartridge) {a : Word} (h : 0x8000 ≤ a) :
    writeDevice c a = if c.present then .prg (a &&& c.prgMask).toNat else .nothing := by
  have hw : c.cpuWrite a = true := decide_eq_true h
  unfold writeDevice
  rw [hw, Bool.and_true]
  split
  · rfl
  · rw [if_neg (by bv_omega), if_neg (by bv_omega), if_neg (by bv_omega), if_neg (by bv_omega)]

theorem ramIndex_lt (a : Word) : ramIndex a < 0x800 := by
  have h : (a &&& 0x07FF).toNat ≤ 0x7FF := by
    rw [BitVec.toNat_and]; exact Nat.and_le_right
  unfold ramIndex
  omega

/-- No read selects the DMA trigger: it is write-only (R78). -/
theorem readDevice_ne_dma (c : Cartridge) (a : Word) : readDevice c a ≠ .dmaTrigger := by
  unfold readDevice
  repeat' split
  all_goals exact Device.noConfusion

/-! ## What an access can do -/

/-- Everything a bus read can do: nothing but its own device's side effect. -/
theorem busRead_cases (a : Word) (s : State) :
    (busRead a s).2 = s ∨ (∃ p, (busRead a s).2 = s.setPpu (s.ppu.portRead s.cart p).2) ∨
    (∃ b, (busRead a s).2 = s.setPad b (s.pad b).read.2) ∨ (busRead a s).2 = s.setOpenReads (s.openReads + 1) := by
  unfold busRead
  split
  · exact .inl rfl
  · exact .inl rfl
  · exact .inr (.inl ⟨_, rfl⟩)
  · exact .inr (.inr (.inl ⟨_, rfl⟩))
  · exact .inr (.inr (.inr rfl))
  · exact .inr (.inr (.inr rfl))

/-- Everything a bus write can do: one device's own effect. -/
theorem busWrite_cases (a : Word) (v : Byte) (s : State) :
    busWrite a v s = s ∨ (∃ i, i < 0x800 ∧ busWrite a v s = s.setRam (s.ram.write i v)) ∨
    (∃ p, busWrite a v s = s.setPpu (s.ppu.portWrite s.cart p v)) ∨ busWrite a v s = s.setDma (s.dma.trigger v) ∨
    (∃ b, busWrite a v s = s.setPad b (s.pad b).latch) := by
  unfold busWrite
  split
  · exact .inl rfl
  · next i e =>
    refine .inr (.inl ⟨i, ?_, rfl⟩)
    unfold writeDevice at e
    repeat' split at e
    all_goals first | (cases e; done) | (cases e; exact ramIndex_lt a)
  · exact .inr (.inr (.inl ⟨_, rfl⟩))
  · exact .inr (.inr (.inr (.inl rfl)))
  · exact .inr (.inr (.inr (.inr ⟨_, rfl⟩)))
  · exact .inl rfl

section Read
variable (a : Word) (s : State)

@[simp] theorem busRead_a : (busRead a s).2.a = s.a := by
  rcases busRead_cases a s with h | ⟨_, h⟩ | ⟨_, h⟩ | h <;> rw [h] <;> simp
@[simp] theorem busRead_x : (busRead a s).2.x = s.x := by
  rcases busRead_cases a s with h | ⟨_, h⟩ | ⟨_, h⟩ | h <;> rw [h] <;> simp
@[simp] theorem busRead_y : (busRead a s).2.y = s.y := by
  rcases busRead_cases a s with h | ⟨_, h⟩ | ⟨_, h⟩ | h <;> rw [h] <;> simp
@[simp] theorem busRead_sp : (busRead a s).2.sp = s.sp := by
  rcases busRead_cases a s with h | ⟨_, h⟩ | ⟨_, h⟩ | h <;> rw [h] <;> simp
@[simp] theorem busRead_pc : (busRead a s).2.pc = s.pc := by
  rcases busRead_cases a s with h | ⟨_, h⟩ | ⟨_, h⟩ | h <;> rw [h] <;> simp
@[simp] theorem busRead_p : (busRead a s).2.p = s.p := by
  rcases busRead_cases a s with h | ⟨_, h⟩ | ⟨_, h⟩ | h <;> rw [h] <;> simp
@[simp] theorem busRead_cycles : (busRead a s).2.cycles = s.cycles := by
  rcases busRead_cases a s with h | ⟨_, h⟩ | ⟨_, h⟩ | h <;> rw [h] <;> simp
@[simp] theorem busRead_ram : (busRead a s).2.ram = s.ram := by
  rcases busRead_cases a s with h | ⟨_, h⟩ | ⟨_, h⟩ | h <;> rw [h] <;> simp
@[simp] theorem busRead_dma : (busRead a s).2.dma = s.dma := by
  rcases busRead_cases a s with h | ⟨_, h⟩ | ⟨_, h⟩ | h <;> rw [h] <;> simp
@[simp] theorem busRead_cart : (busRead a s).2.cart = s.cart := by
  rcases busRead_cases a s with h | ⟨_, h⟩ | ⟨_, h⟩ | h <;> rw [h] <;> simp
@[simp] theorem busRead_tick : (busRead a s).2.tick = s.tick := by
  rcases busRead_cases a s with h | ⟨_, h⟩ | ⟨_, h⟩ | h <;> rw [h] <;> simp

end Read

section Write
variable (a : Word) (v : Byte) (s : State)

@[simp] theorem busWrite_a : (busWrite a v s).a = s.a := by
  rcases busWrite_cases a v s with h | ⟨_, _, h⟩ | ⟨_, h⟩ | h | ⟨_, h⟩ <;> rw [h] <;> simp
@[simp] theorem busWrite_x : (busWrite a v s).x = s.x := by
  rcases busWrite_cases a v s with h | ⟨_, _, h⟩ | ⟨_, h⟩ | h | ⟨_, h⟩ <;> rw [h] <;> simp
@[simp] theorem busWrite_y : (busWrite a v s).y = s.y := by
  rcases busWrite_cases a v s with h | ⟨_, _, h⟩ | ⟨_, h⟩ | h | ⟨_, h⟩ <;> rw [h] <;> simp
@[simp] theorem busWrite_sp : (busWrite a v s).sp = s.sp := by
  rcases busWrite_cases a v s with h | ⟨_, _, h⟩ | ⟨_, h⟩ | h | ⟨_, h⟩ <;> rw [h] <;> simp
@[simp] theorem busWrite_pc : (busWrite a v s).pc = s.pc := by
  rcases busWrite_cases a v s with h | ⟨_, _, h⟩ | ⟨_, h⟩ | h | ⟨_, h⟩ <;> rw [h] <;> simp
@[simp] theorem busWrite_p : (busWrite a v s).p = s.p := by
  rcases busWrite_cases a v s with h | ⟨_, _, h⟩ | ⟨_, h⟩ | h | ⟨_, h⟩ <;> rw [h] <;> simp
@[simp] theorem busWrite_cycles : (busWrite a v s).cycles = s.cycles := by
  rcases busWrite_cases a v s with h | ⟨_, _, h⟩ | ⟨_, h⟩ | h | ⟨_, h⟩ <;> rw [h] <;> simp
@[simp] theorem busWrite_cart : (busWrite a v s).cart = s.cart := by
  rcases busWrite_cases a v s with h | ⟨_, _, h⟩ | ⟨_, h⟩ | h | ⟨_, h⟩ <;> rw [h] <;> simp
@[simp] theorem busWrite_tick : (busWrite a v s).tick = s.tick := by
  rcases busWrite_cases a v s with h | ⟨_, _, h⟩ | ⟨_, h⟩ | h | ⟨_, h⟩ <;> rw [h] <;> simp
@[simp] theorem busWrite_openReads : (busWrite a v s).openReads = s.openReads := by
  rcases busWrite_cases a v s with h | ⟨_, _, h⟩ | ⟨_, h⟩ | h | ⟨_, h⟩ <;> rw [h] <;> simp

end Write

/-! ## Accesses to plain memory -/

theorem busRead_of_ram (s : State) {a : Word} (h : a ≤ 0x1FFF) : busRead a s = (s.ram.read (ramIndex a), s) := by
  unfold busRead
  rw [readDevice_ram _ h]

theorem busRead_of_rom (s : State) {a : Word} (hc : s.cart.present = true) (h : 0x8000 ≤ a) :
    busRead a s = (s.cart.prgByte (a &&& s.cart.prgMask).toNat, s) := by
  unfold busRead
  rw [readDevice_rom _ hc h]

theorem busWrite_of_ram (v : Byte) (s : State) {a : Word} (h : a ≤ 0x1FFF) :
    busWrite a v s = s.setRam (s.ram.write (ramIndex a) v) := by
  unfold busWrite
  rw [writeDevice_ram _ h]

/-- A write outside RAM leaves RAM alone. -/
theorem busWrite_ram_of_high (v : Byte) (s : State) {a : Word} (h : 0x1FFF < a) : (busWrite a v s).ram = s.ram := by
  have hn : ∀ i, writeDevice s.cart a ≠ .ram i := by
    intro i
    unfold writeDevice
    rw [if_neg (show ¬ a ≤ 0x1FFF by bv_omega)]
    repeat' split
    all_goals exact Device.noConfusion
  unfold busWrite
  split
  · rfl
  · next i e => exact absurd e (hn i)
  all_goals simp

/-- A read of plain memory answers the byte that `memByte` names and has no side effect. -/
theorem busRead_of_memByte (s : State) {a : Word} {b : Byte} (h : s.memByte a = some b) : busRead a s = (b, s) := by
  unfold State.memByte at h
  unfold busRead
  split at h
  · next e => cases h; rw [e]
  · next e => cases h; rw [e]
  · cases h

/-! ## Plain memory -/

/-- `memByte` looks at RAM and the cartridge only. -/
theorem memByte_congr {s t : State} (hr : t.ram = s.ram) (hc : t.cart = s.cart) (a : Word) :
    t.memByte a = s.memByte a := by
  unfold State.memByte
  rw [hr, hc]

theorem memByte_of_ram (s : State) {a : Word} (h : a ≤ 0x1FFF) : s.memByte a = some (s.ram.read (ramIndex a)) := by
  unfold State.memByte
  rw [readDevice_ram _ h]

/-- Above RAM, plain memory is program ROM: RAM's contents do not matter. -/
theorem memByte_setRam_high (s : State) (m : Memory 8) {a : Word} (h : 0x1FFF < a) :
    (s.setRam m).memByte a = s.memByte a := by
  have hn : ∀ i, readDevice s.cart a ≠ .ram i := by
    intro i
    unfold readDevice
    rw [if_neg (show ¬ a ≤ 0x1FFF by bv_omega)]
    repeat' split
    all_goals exact Device.noConfusion
  unfold State.memByte
  rw [State.setRam_cart, State.setRam_ram]
  split
  · rfl
  · next i e => exact absurd e (hn i)
  · rfl

/-! ## The stack: page 0x0100 of RAM -/

theorem stackAddr_le (sp : Byte) : stackAddr sp ≤ 0x1FFF := by
  have h := wordOf_toNat 0x01 sp
  have := sp.isLt
  rw [BitVec.le_def]
  show (wordOf 0x01 sp).toNat ≤ 0x1FFF
  rw [h]
  show 256 * 1 + sp.toNat ≤ 0x1FFF
  omega

theorem ramIndex_stackAddr (sp : Byte) : ramIndex (stackAddr sp) = 256 + sp.toNat := by
  have h := wordOf_toNat 0x01 sp
  have := sp.isLt
  show (wordOf 0x01 sp &&& 0x07FF).toNat = _
  rw [BitVec.toNat_and, h]
  show (256 * 1 + sp.toNat) &&& (2 ^ 11 - 1) = _
  rw [Nat.and_two_pow_sub_one_eq_mod]
  omega

/-- `Push` (R176) is a RAM write and a decrement of `S`. -/
theorem push_eq (v : Byte) (s : State) :
    push v s = (s.setRam (s.ram.write (256 + s.sp.toNat) v)).setSp (s.sp - 1) := by
  unfold push
  rw [busWrite_of_ram v s (stackAddr_le _), ramIndex_stackAddr]

/-- `Pull` (R177) is an increment of `S` and a RAM read. -/
theorem pull_eq (s : State) : pull s = (s.ram.read (256 + (s.sp + 1).toNat), s.setSp (s.sp + 1)) := by
  unfold pull
  rw [busRead_of_ram _ (stackAddr_le _), ramIndex_stackAddr, State.setSp_ram]

/-! ## Soundness of accesses -/

/-- The parts of a state's soundness, as propositions. -/
theorem State.sound_iff (s : State) : s.Sound = true ↔
    s.ram.wf 0x800 = true ∧ flag .u s.p = true ∧ flag .b s.p = false ∧ s.dma.sound = true ∧ s.ppu.sound = true ∧
    s.ppu.nmiLine = false ∧ s.cart.sound = true := by
  simp only [State.Sound, Bool.and_eq_true, Bool.not_eq_true']
  tauto

/-- Soundness without the NMI line: what holds inside a tick too. -/
structure State.Mid (s : State) : Prop where
  ram : s.ram.wf 0x800 = true
  u : flag .u s.p = true
  b : flag .b s.p = false
  dma : s.dma.sound = true
  ppu : s.ppu.sound = true
  cart : s.cart.sound = true

theorem State.sound_iff_mid (s : State) : s.Sound = true ↔ s.Mid ∧ s.ppu.nmiLine = false := by
  rw [s.sound_iff]
  exact ⟨fun h => ⟨⟨h.1, h.2.1, h.2.2.1, h.2.2.2.1, h.2.2.2.2.1, h.2.2.2.2.2.2⟩, h.2.2.2.2.2.1⟩,
    fun h => ⟨h.1.ram, h.1.u, h.1.b, h.1.dma, h.1.ppu, h.2, h.1.cart⟩⟩

/-- A trigger while the engine is idle, or at an offset of 0, keeps the engine sound: it only sets page, offset and
`dma_active`. -/
theorem Dma.trigger_sound (d : Dma) (v : Byte) : (d.trigger v).sound = true := by
  simp [Dma.sound, Dma.trigger]

theorem busRead_mid (a : Word) {s : State} (h : s.Mid) : (busRead a s).2.Mid := by
  refine ⟨by simpa using h.ram, by simpa using h.u, by simpa using h.b, by simpa using h.dma, ?_, by simpa using h.cart⟩
  rcases busRead_cases a s with e | ⟨p, e⟩ | ⟨_, e⟩ | e <;> rw [e]
  · exact h.ppu
  · simpa using Ppu.portRead_sound s.cart s.ppu p h.ppu
  · simpa using h.ppu
  · simpa using h.ppu

theorem busWrite_mid (a : Word) (v : Byte) {s : State} (h : s.Mid) : (busWrite a v s).Mid := by
  refine ⟨?_, by simpa using h.u, by simpa using h.b, ?_, ?_, by simpa using h.cart⟩
  all_goals rcases busWrite_cases a v s with e | ⟨i, hi, e⟩ | ⟨p, e⟩ | e | ⟨_, e⟩ <;> rw [e]
  · exact h.ram
  · simpa using Memory.wf_write v hi h.ram
  · simpa using h.ram
  · simpa using h.ram
  · simpa using h.ram
  · exact h.dma
  · simpa using h.dma
  · simpa using h.dma
  · simpa using s.dma.trigger_sound v
  · simpa using h.dma
  · exact h.ppu
  · simpa using h.ppu
  · simpa using Ppu.portWrite_sound s.cart s.ppu p v h.ppu
  · simpa using h.ppu
  · simpa using h.ppu

/-- No bus access touches the NMI line (R472). -/
@[simp] theorem busRead_nmiLine (a : Word) (s : State) : (busRead a s).2.ppu.nmiLine = s.ppu.nmiLine := by
  rcases busRead_cases a s with e | ⟨p, e⟩ | ⟨_, e⟩ | e <;> rw [e]
  · simpa using (Ppu.portRead_samePipeline s.cart s.ppu p).nmiLine
  · simp
  · simp

@[simp] theorem busWrite_nmiLine (a : Word) (v : Byte) (s : State) :
    (busWrite a v s).ppu.nmiLine = s.ppu.nmiLine := by
  rcases busWrite_cases a v s with e | ⟨_, _, e⟩ | ⟨p, e⟩ | e | ⟨_, e⟩ <;> rw [e]
  · simp
  · simpa using (Ppu.portWrite_samePipeline s.cart s.ppu p v).nmiLine
  · simp
  · simp

end Sys2Proof.Machine
end

