-- ==== Sys2Proof/Laws/Operands.lean ====
section
/-! SUPPORT. What resolving, reading and writing an operand can do. -/

namespace Sys2Proof.Machine

/-! ## Page zero and the modes -/

theorem zext16_toNat (b : Byte) : (zext16 b).toNat = b.toNat := by
  rw [zext16, wordOf_toNat]
  exact (by simp)

theorem zext16_le (b : Byte) : zext16 b ≤ 0x1FFF := by
  rw [BitVec.le_def, zext16_toNat]
  have := b.isLt
  show b.toNat ≤ 0x1FFF
  omega

theorem ramIndex_zext16 (b : Byte) : ramIndex (zext16 b) = b.toNat := by
  have := b.isLt
  show (zext16 b &&& 0x07FF).toNat = _
  rw [BitVec.toNat_and, zext16_toNat]
  show b.toNat &&& (2 ^ 11 - 1) = _
  rw [Nat.and_two_pow_sub_one_eq_mod]
  omega

/-- A pointer of page zero is two bytes of RAM; reading it has no side effect. -/
theorem zeroPagePointer_eq (zp : Byte) (s : State) :
    zeroPagePointer zp s = (wordOf (s.ram.read (zp + 1).toNat) (s.ram.read zp.toNat), s) := by
  simp only [zeroPagePointer, busRead_of_ram _ (zext16_le _), ramIndex_zext16]

/-- Only IND can reach a device while its address is computed: every other mode leaves the state alone. -/
theorem resolve_state (o : Operand) (s : State) (h : ∀ ptr, o ≠ .ind ptr) : (resolve o s).state = s := by
  cases o with
  | ind ptr => exact absurd rfl (h ptr)
  | izx zp => simp only [resolve, zeroPagePointer_eq]
  | izy zp => simp only [resolve, indexed, zeroPagePointer_eq]
  | _ => rfl

/-- An operand that a memory instruction can write has an address. -/
theorem resolve_location (o : Operand) (s : State) :
    (resolve o s).location = .absent ∨ (resolve o s).location = .accumulator ∨
    (∃ v, (resolve o s).location = .immediate v) ∨ ∃ ea, (resolve o s).location = .memory ea := by
  cases (resolve o s).location with
  | absent => exact .inl rfl
  | accumulator => exact .inr (.inl rfl)
  | immediate v => exact .inr (.inr (.inl ⟨v, rfl⟩))
  | memory ea => exact .inr (.inr (.inr ⟨ea, rfl⟩))

/-! ## Fields that resolving and reading leave alone -/

section
variable (o : Operand) (s : State)

/-- The state after a mode's own accesses: one of the operand's own bus reads, or the state itself. -/
theorem resolve_state_cases : (resolve o s).state = s ∨ ∃ a b, (resolve o s).state = (busRead a (busRead b s).2).2 := by
  cases o with
  | ind ptr => exact .inr ⟨_, _, rfl⟩
  | izx zp => exact .inr ⟨_, _, rfl⟩
  | izy zp => exact .inr ⟨_, _, rfl⟩
  | _ => exact .inl rfl

@[simp] theorem resolve_a : (resolve o s).state.a = s.a := by
  rcases resolve_state_cases o s with h | ⟨_, _, h⟩ <;> rw [h]; simp
@[simp] theorem resolve_x : (resolve o s).state.x = s.x := by
  rcases resolve_state_cases o s with h | ⟨_, _, h⟩ <;> rw [h]; simp
@[simp] theorem resolve_y : (resolve o s).state.y = s.y := by
  rcases resolve_state_cases o s with h | ⟨_, _, h⟩ <;> rw [h]; simp
@[simp] theorem resolve_sp : (resolve o s).state.sp = s.sp := by
  rcases resolve_state_cases o s with h | ⟨_, _, h⟩ <;> rw [h]; simp
@[simp] theorem resolve_pc : (resolve o s).state.pc = s.pc := by
  rcases resolve_state_cases o s with h | ⟨_, _, h⟩ <;> rw [h]; simp
@[simp] theorem resolve_p : (resolve o s).state.p = s.p := by
  rcases resolve_state_cases o s with h | ⟨_, _, h⟩ <;> rw [h]; simp
@[simp] theorem resolve_cycles : (resolve o s).state.cycles = s.cycles := by
  rcases resolve_state_cases o s with h | ⟨_, _, h⟩ <;> rw [h]; simp
@[simp] theorem resolve_ram : (resolve o s).state.ram = s.ram := by
  rcases resolve_state_cases o s with h | ⟨_, _, h⟩ <;> rw [h]; simp
@[simp] theorem resolve_dma : (resolve o s).state.dma = s.dma := by
  rcases resolve_state_cases o s with h | ⟨_, _, h⟩ <;> rw [h]; simp
@[simp] theorem resolve_cart : (resolve o s).state.cart = s.cart := by
  rcases resolve_state_cases o s with h | ⟨_, _, h⟩ <;> rw [h]; simp
@[simp] theorem resolve_tick : (resolve o s).state.tick = s.tick := by
  rcases resolve_state_cases o s with h | ⟨_, _, h⟩ <;> rw [h]; simp

variable (l : Location)

/-- An operand fetch changes nothing but what its one bus read changes. -/
theorem fetchOperand_state_cases : (fetchOperand l s).2 = s ∨ ∃ a, (fetchOperand l s).2 = (busRead a s).2 := by
  cases l with
  | memory ea => exact .inr ⟨ea, rfl⟩
  | _ => exact .inl rfl

@[simp] theorem fetchOperand_a : (fetchOperand l s).2.a = s.a := by
  rcases fetchOperand_state_cases s l with h | ⟨_, h⟩ <;> rw [h]; simp
@[simp] theorem fetchOperand_x : (fetchOperand l s).2.x = s.x := by
  rcases fetchOperand_state_cases s l with h | ⟨_, h⟩ <;> rw [h]; simp
@[simp] theorem fetchOperand_y : (fetchOperand l s).2.y = s.y := by
  rcases fetchOperand_state_cases s l with h | ⟨_, h⟩ <;> rw [h]; simp
@[simp] theorem fetchOperand_sp : (fetchOperand l s).2.sp = s.sp := by
  rcases fetchOperand_state_cases s l with h | ⟨_, h⟩ <;> rw [h]; simp
@[simp] theorem fetchOperand_pc : (fetchOperand l s).2.pc = s.pc := by
  rcases fetchOperand_state_cases s l with h | ⟨_, h⟩ <;> rw [h]; simp
@[simp] theorem fetchOperand_p : (fetchOperand l s).2.p = s.p := by
  rcases fetchOperand_state_cases s l with h | ⟨_, h⟩ <;> rw [h]; simp
@[simp] theorem fetchOperand_cycles : (fetchOperand l s).2.cycles = s.cycles := by
  rcases fetchOperand_state_cases s l with h | ⟨_, h⟩ <;> rw [h]; simp
@[simp] theorem fetchOperand_ram : (fetchOperand l s).2.ram = s.ram := by
  rcases fetchOperand_state_cases s l with h | ⟨_, h⟩ <;> rw [h]; simp
@[simp] theorem fetchOperand_dma : (fetchOperand l s).2.dma = s.dma := by
  rcases fetchOperand_state_cases s l with h | ⟨_, h⟩ <;> rw [h]; simp
@[simp] theorem fetchOperand_cart : (fetchOperand l s).2.cart = s.cart := by
  rcases fetchOperand_state_cases s l with h | ⟨_, h⟩ <;> rw [h]; simp
@[simp] theorem fetchOperand_tick : (fetchOperand l s).2.tick = s.tick := by
  rcases fetchOperand_state_cases s l with h | ⟨_, h⟩ <;> rw [h]; simp

@[simp] theorem readOperand_a : (readOperand o s).state.a = s.a := by simp [readOperand]
@[simp] theorem readOperand_x : (readOperand o s).state.x = s.x := by simp [readOperand]
@[simp] theorem readOperand_y : (readOperand o s).state.y = s.y := by simp [readOperand]
@[simp] theorem readOperand_sp : (readOperand o s).state.sp = s.sp := by simp [readOperand]
@[simp] theorem readOperand_pc : (readOperand o s).state.pc = s.pc := by simp [readOperand]
@[simp] theorem readOperand_p : (readOperand o s).state.p = s.p := by simp [readOperand]
@[simp] theorem readOperand_cycles : (readOperand o s).state.cycles = s.cycles := by simp [readOperand]
@[simp] theorem readOperand_ram : (readOperand o s).state.ram = s.ram := by simp [readOperand]
@[simp] theorem readOperand_dma : (readOperand o s).state.dma = s.dma := by simp [readOperand]
@[simp] theorem readOperand_cart : (readOperand o s).state.cart = s.cart := by simp [readOperand]
@[simp] theorem readOperand_tick : (readOperand o s).state.tick = s.tick := by simp [readOperand]

@[simp] theorem readOperand_memByte (a : Word) : (readOperand o s).state.memByte a = s.memByte a :=
  memByte_congr (readOperand_ram o s) (readOperand_cart o s) a

end

/-! ## Soundness -/

theorem resolve_mid (o : Operand) {s : State} (h : s.Mid) : (resolve o s).state.Mid := by
  rcases resolve_state_cases o s with e | ⟨_, _, e⟩ <;> rw [e]
  · exact h
  · exact busRead_mid _ (busRead_mid _ h)

theorem fetchOperand_mid (l : Location) {s : State} (h : s.Mid) : (fetchOperand l s).2.Mid := by
  rcases fetchOperand_state_cases s l with e | ⟨_, e⟩ <;> rw [e]
  · exact h
  · exact busRead_mid _ h

theorem readOperand_mid (o : Operand) {s : State} (h : s.Mid) : (readOperand o s).state.Mid :=
  fetchOperand_mid _ (resolve_mid o h)

theorem writeOperand_mid (l : Location) (r : Byte) {s : State} (h : s.Mid) : (writeOperand l r s).Mid := by
  cases l with
  | memory ea => exact busWrite_mid ea r h
  | accumulator => exact ⟨h.ram, h.u, h.b, h.dma, h.ppu, h.cart⟩
  | absent => exact h
  | immediate _ => exact h

/-! ## The NMI line -/

@[simp] theorem resolve_nmiLine (o : Operand) (s : State) : (resolve o s).state.ppu.nmiLine = s.ppu.nmiLine := by
  rcases resolve_state_cases o s with h | ⟨_, _, h⟩ <;> rw [h]; simp

@[simp] theorem readOperand_nmiLine (o : Operand) (s : State) :
    (readOperand o s).state.ppu.nmiLine = s.ppu.nmiLine := by
  simp only [readOperand]
  rcases fetchOperand_state_cases (resolve o s).state (resolve o s).location with h | ⟨_, h⟩ <;> rw [h] <;> simp

@[simp] theorem writeOperand_nmiLine (l : Location) (r : Byte) (s : State) :
    (writeOperand l r s).ppu.nmiLine = s.ppu.nmiLine := by
  cases l <;> simp [writeOperand]

end Sys2Proof.Machine
end

