-- ==== Sys2Proof/Laws/Exec.lean ====
section
/-! SUPPORT. What the shared shapes of the instructions can do, and that each keeps a state sound. -/

namespace Sys2Proof.Machine

/-! ## Flags of the ALU operations -/

/-- The carry of an addition (R223). -/
def addCarry (a m p : Byte) : Bool := decide (a.toNat + m.toNat + (flag .c p).toNat > 0xFF)

/-- The overflow of an addition (R223). -/
def addOverflow (a m p : Byte) : Bool := (~~~(a ^^^ m) &&& (a ^^^ (addWithCarry a m p).result)).getLsbD 7

/-- Every flag after an addition. -/
theorem flag_addWithCarry (a m p : Byte) (g : Flag) : flag g (addWithCarry a m p).status =
    if g = .n then (addWithCarry a m p).result.getLsbD 7
    else if g = .z then ((addWithCarry a m p).result == 0)
    else if g = .v then addOverflow a m p
    else if g = .c then addCarry a m p
    else flag g p := by
  cases g <;> simp [addWithCarry, addOverflow, addCarry]

/-- Every flag after a comparison. -/
theorem flag_compareFlags (r m p : Byte) (g : Flag) : flag g (compareFlags r m p) =
    if g = .n then (r - m).getLsbD 7 else if g = .z then (r - m == 0)
    else if g = .c then decide (m.toNat ≤ r.toNat) else flag g p := by
  cases g <;> simp [compareFlags]

/-- Every flag after BIT. -/
theorem flag_bitFlags (a m p : Byte) (g : Flag) : flag g (bitFlags a m p) =
    if g = .n then m.getLsbD 7 else if g = .v then m.getLsbD 6 else if g = .z then (a &&& m == 0) else flag g p := by
  cases g <;> simp [bitFlags]

/-- Every flag after a shift with result `r` and carry `k`. -/
theorem flag_shifted (r : Byte) (k : Bool) (p : Byte) (g : Flag) : flag g (shifted r k p).status =
    if g = .n then r.getLsbD 7 else if g = .z then (r == 0) else if g = .c then k else flag g p := by
  cases g <;> simp [shifted]

theorem flag_withZN (r p : Byte) (g : Flag) : flag g (withZN r p).status =
    if g = .n then r.getLsbD 7 else if g = .z then (r == 0) else flag g p := by
  simp [withZN]

/-- A pulled status byte: bit 5 reads 1, bit 4 reads 0, the rest is as pulled (R314). -/
theorem flag_pulledStatus (v : Byte) (g : Flag) : flag g (pulledStatus v) =
    if g = .u then true else if g = .b then false else flag g v := by
  cases g <;> simp [pulledStatus, flag, Flag.pos]

/-- A pushed status byte: bit 5 reads 1, bit 4 is `b`, the rest is `P` (R505). -/
theorem flag_pushedStatus (b : Bool) (p : Byte) (g : Flag) : flag g (pushedStatus b p) =
    if g = .u then true else if g = .b then b else flag g p := by
  cases b <;> cases g <;> simp [pushedStatus, flag, Flag.pos]

/-- A status byte is known by its eight flags. -/
theorem status_ext {p q : Byte} (h : ∀ f, flag f p = flag f q) : p = q := by
  apply BitVec.eq_of_getLsbD_eq
  intro i hi
  have h0 := h .c; have h1 := h .z; have h2 := h .i; have h3 := h .d
  have h4 := h .b; have h5 := h .u; have h6 := h .v; have h7 := h .n
  simp only [flag, Flag.pos] at h0 h1 h2 h3 h4 h5 h6 h7
  have : i = 0 ∨ i = 1 ∨ i = 2 ∨ i = 3 ∨ i = 4 ∨ i = 5 ∨ i = 6 ∨ i = 7 := by omega
  rcases this with rfl | rfl | rfl | rfl | rfl | rfl | rfl | rfl <;> assumption

/-- Pulling a pushed status gives the status back, with bit 5 set and bit 4 clear. -/
theorem pulledStatus_pushedStatus (b : Bool) {p : Byte} (hu : flag .u p = true) (hb : flag .b p = false) :
    pulledStatus (pushedStatus b p) = p := by
  apply status_ext
  intro g
  cases g <;> simp [flag_pulledStatus, flag_pushedStatus, hu, hb]

/-! ## Soundness under field updates -/

namespace State.Mid
variable {s : State}

theorem congr {t : State} (h : s.Mid) (ram : t.ram = s.ram) (p : t.p = s.p) (dma : t.dma = s.dma)
    (ppu : t.ppu = s.ppu) (cart : t.cart = s.cart) : t.Mid :=
  ⟨ram ▸ h.ram, p ▸ h.u, p ▸ h.b, dma ▸ h.dma, ppu ▸ h.ppu, cart ▸ h.cart⟩

theorem setA (h : s.Mid) (v : Byte) : (s.setA v).Mid := h.congr rfl rfl rfl rfl rfl
theorem setX (h : s.Mid) (v : Byte) : (s.setX v).Mid := h.congr rfl rfl rfl rfl rfl
theorem setY (h : s.Mid) (v : Byte) : (s.setY v).Mid := h.congr rfl rfl rfl rfl rfl
theorem setSp (h : s.Mid) (v : Byte) : (s.setSp v).Mid := h.congr rfl rfl rfl rfl rfl
theorem setPc (h : s.Mid) (v : Word) : (s.setPc v).Mid := h.congr rfl rfl rfl rfl rfl
theorem charge (h : s.Mid) (n : Nat) : (s.charge n).Mid := h.congr rfl rfl rfl rfl rfl
theorem setTick (h : s.Mid) (n : Nat) : (s.setTick n).Mid := h.congr rfl rfl rfl rfl rfl
theorem setP (h : s.Mid) {v : Byte} (u : flag .u v = true) (b : flag .b v = false) : (s.setP v).Mid :=
  ⟨h.ram, u, b, h.dma, h.ppu, h.cart⟩
theorem setDma (h : s.Mid) {d : Dma} (hd : d.sound = true) : (s.setDma d).Mid :=
  ⟨h.ram, h.u, h.b, hd, h.ppu, h.cart⟩
theorem setPpu (h : s.Mid) {p : Ppu} (hp : p.sound = true) : (s.setPpu p).Mid :=
  ⟨h.ram, h.u, h.b, h.dma, hp, h.cart⟩

theorem loadA (h : s.Mid) (v : Byte) : (s.loadA v).Mid :=
  (h.setA v).setP (by simp [h.u]) (by simp [h.b])
theorem loadX (h : s.Mid) (v : Byte) : (s.loadX v).Mid :=
  (h.setX v).setP (by simp [h.u]) (by simp [h.b])
theorem loadY (h : s.Mid) (v : Byte) : (s.loadY v).Mid :=
  (h.setY v).setP (by simp [h.u]) (by simp [h.b])
theorem putFlag (h : s.Mid) {f : Flag} (v : Bool) (hu : f ≠ .u) (hb : f ≠ .b) : (s.putFlag f v).Mid :=
  h.setP (by simp [hu, h.u]) (by simp [hb, h.b])

end State.Mid

/-! ## The shared shapes -/

theorem readThen_mid (o : Operand) {f : Byte → State → State} (hf : ∀ v s, State.Mid s → (f v s).Mid) {s : State}
    (h : s.Mid) : (readThen o f s).Mid :=
  (hf _ _ (readOperand_mid o h)).charge _

theorem storeValue_mid (o : Operand) (v : Byte) {s : State} (h : s.Mid) : (storeValue o v s).Mid :=
  (writeOperand_mid _ v (resolve_mid o h)).charge _

theorem modify_mid (o : Operand) {f : Byte → Byte → Alu} (hu : ∀ m p, flag .u (f m p).status = flag .u p)
    (hb : ∀ m p, flag .b (f m p).status = flag .b p) {s : State} (h : s.Mid) : (modify o f s).Mid := by
  have hr := readOperand_mid o h
  exact (writeOperand_mid _ _ (hr.setP ((hu _ _).trans hr.u) ((hb _ _).trans hr.b))).charge _

theorem branch_mid (taken : Bool) (d : Byte) {s : State} (h : s.Mid) : (branch taken d s).Mid := by
  unfold branch
  split
  · exact (h.setPc _).charge _
  · exact h.charge _

theorem push_mid (v : Byte) {s : State} (h : s.Mid) : (push v s).Mid := (busWrite_mid _ v h).setSp _
theorem pull_mid {s : State} (h : s.Mid) : (pull s).2.Mid := busRead_mid _ (h.setSp _)
theorem pushWord_mid (w : Word) {s : State} (h : s.Mid) : (pushWord w s).Mid := push_mid _ (push_mid _ h)
theorem pullWord_mid {s : State} (h : s.Mid) : (pullWord s).2.Mid := pull_mid (pull_mid h)
theorem busRead16_mid (a : Word) {s : State} (h : s.Mid) : (busRead16 a s).2.Mid := busRead_mid _ (busRead_mid _ h)

theorem takeInterrupt_mid (vector : Word) (b : Bool) {s : State} (h : s.Mid) : (takeInterrupt vector b s).Mid := by
  unfold takeInterrupt
  simp only
  have h' := push_mid (pushedStatus b (pushWord s.pc s).p) (pushWord_mid s.pc h)
  exact (busRead16_mid vector (h'.setP (by simp [h'.u]) (by simp [h'.b]))).setPc _

theorem returnFromInterrupt_mid {s : State} (h : s.Mid) : (returnFromInterrupt s).Mid := by
  unfold returnFromInterrupt
  simp only
  have h' := pull_mid h
  exact (pullWord_mid (h'.setP (by simp [flag_pulledStatus]) (by simp [flag_pulledStatus]))).setPc _

theorem dmaStep_mid {s : State} (h : s.Mid) (ha : s.dma.active = true) : (dmaStep s).Mid := by
  have hd := h.dma
  simp only [Dma.sound, ha, Bool.true_or, Bool.true_and] at hd
  unfold dmaStep
  split
  · next hdummy =>
    split
    · exact h.setDma (by simp [Dma.sound, ha])
    · exact h
  · next hdummy =>
    have hdf : s.dma.dummy = false := by simpa using hdummy
    split
    · have hr := busRead_mid (wordOf s.dma.page s.dma.addr) h
      exact hr.setDma (by simp [Dma.sound, ha, hdf])
    · have hp := h.setPpu (Ppu.writeOam_sound s.ppu s.dma.addr s.dma.data h.ppu)
      simp only
      split
      · next e => exact State.Mid.setDma hp (by simpa [Dma.sound] using e)
      · exact State.Mid.setDma hp (by simp [Dma.sound, ha, hdf])

/-! ## The stack operations' frames -/

section
variable (v : Byte) (s : State)

@[simp] theorem push_a : (push v s).a = s.a := by simp [push_eq]
@[simp] theorem push_x : (push v s).x = s.x := by simp [push_eq]
@[simp] theorem push_y : (push v s).y = s.y := by simp [push_eq]
@[simp] theorem push_sp : (push v s).sp = s.sp - 1 := by simp [push_eq]
@[simp] theorem push_pc : (push v s).pc = s.pc := by simp [push_eq]
@[simp] theorem push_p : (push v s).p = s.p := by simp [push_eq]
@[simp] theorem push_cycles : (push v s).cycles = s.cycles := by simp [push_eq]
@[simp] theorem push_ram : (push v s).ram = s.ram.write (256 + s.sp.toNat) v := by simp [push_eq]
@[simp] theorem push_dma : (push v s).dma = s.dma := by simp [push_eq]
@[simp] theorem push_pad0 : (push v s).pad0 = s.pad0 := by simp [push_eq]
@[simp] theorem push_pad1 : (push v s).pad1 = s.pad1 := by simp [push_eq]
@[simp] theorem push_ppu : (push v s).ppu = s.ppu := by simp [push_eq]
@[simp] theorem push_cart : (push v s).cart = s.cart := by simp [push_eq]
@[simp] theorem push_tick : (push v s).tick = s.tick := by simp [push_eq]
@[simp] theorem push_openReads : (push v s).openReads = s.openReads := by simp [push_eq]

@[simp] theorem pull_fst : (pull s).1 = s.ram.read (256 + (s.sp + 1).toNat) := by rw [pull_eq]
@[simp] theorem pull_snd : (pull s).2 = s.setSp (s.sp + 1) := by rw [pull_eq]

/-- `RTI`'s and `RTS`'s two pulls: the low byte first, and `S` two higher. -/
theorem pullWord_eq : pullWord s =
    (wordOf (s.ram.read (256 + (s.sp + 1 + 1).toNat)) (s.ram.read (256 + (s.sp + 1).toNat)),
      s.setSp (s.sp + 1 + 1)) := by
  simp only [pullWord, pull_eq, State.setSp_ram, State.setSp_sp]
  rfl

end

/-! ## Fetching -/

theorem fetchByte_mid {s : State} (h : s.Mid) : (fetchByte s).2.Mid := (busRead_mid _ h).setPc _

theorem fetchOperands_mid (f : Format) {s : State} (h : s.Mid) : (fetchOperands f s).2.Mid := by
  cases f with
  | alone i => exact h
  | skipByte i => exact h.setPc _
  | oneByte g => exact fetchByte_mid h
  | twoBytes g => exact fetchByte_mid (fetchByte_mid h)

theorem fetchInstr_mid {s : State} (h : s.Mid) : (fetchInstr s).2.Mid :=
  fetchOperands_mid _ ((fetchByte_mid h).setP (by simp) (by simpa using (fetchByte_mid h).b))

/-- A byte of plain memory is fetched without a side effect. -/
theorem fetchByte_of_memByte {s : State} {b : Byte} (h : s.memByte s.pc = some b) : fetchByte s = (b, s.advancePc) := by
  simp only [fetchByte, busRead_of_memByte s h]

end Sys2Proof.Machine
end

