-- ==== Sys2Proof/Laws/PerInstr.lean ====
section
/-! SUPPORT. Statements made per instruction: one lemma per constructor of `Instr` in each family. -/

namespace Sys2Proof.Laws.EncodedLength

/-- A well-formed instruction is encoded in as many bytes as its opcode byte alone announces, which are 1, 2 or 3
(R130, R143). -/
def Statement (i : Instr) : Prop :=
  ∀ u : UndocParams, i.wellFormed u = true →
    (encode i).length = (formatOf u (opcode i)).length ∧ 1 ≤ (encode i).length ∧ (encode i).length ≤ 3

/-- Every format has 1 to 3 bytes. -/
theorem length_bounds (f : Format) : 1 ≤ f.length ∧ f.length ≤ 3 := by
  cases f <;> simp [Format.length]

/-- The statement from the opcode byte and the length of its format. -/
theorem of_format {i : Instr} {op : Byte} {f : Format} (hop : opcode i = op) (ha : assignedFormat op = some f)
    (hf : (encode i).length = f.length) : Statement i := by
  subst hop
  intro u _
  have h : (encode i).length = (formatOf u (opcode i)).length := by rw [formatOf, ha]; exact hf
  exact ⟨h, h ▸ length_bounds _⟩

theorem lda (o : ReadOperand) : Statement (.lda o) := by
  cases o
  exacts [of_format (op := 0xA9) rfl rfl rfl, of_format (op := 0xA5) rfl rfl rfl,
    of_format (op := 0xB5) rfl rfl rfl, of_format (op := 0xAD) rfl rfl rfl,
    of_format (op := 0xBD) rfl rfl rfl, of_format (op := 0xB9) rfl rfl rfl,
    of_format (op := 0xA1) rfl rfl rfl, of_format (op := 0xB1) rfl rfl rfl]

theorem ldx (o : LdxOperand) : Statement (.ldx o) := by
  cases o
  exacts [of_format (op := 0xA2) rfl rfl rfl, of_format (op := 0xA6) rfl rfl rfl,
    of_format (op := 0xB6) rfl rfl rfl, of_format (op := 0xAE) rfl rfl rfl,
    of_format (op := 0xBE) rfl rfl rfl]

theorem ldy (o : LdyOperand) : Statement (.ldy o) := by
  cases o
  exacts [of_format (op := 0xA0) rfl rfl rfl, of_format (op := 0xA4) rfl rfl rfl,
    of_format (op := 0xB4) rfl rfl rfl, of_format (op := 0xAC) rfl rfl rfl,
    of_format (op := 0xBC) rfl rfl rfl]

theorem sta (o : StaOperand) : Statement (.sta o) := by
  cases o
  exacts [of_format (op := 0x85) rfl rfl rfl, of_format (op := 0x95) rfl rfl rfl,
    of_format (op := 0x8D) rfl rfl rfl, of_format (op := 0x9D) rfl rfl rfl,
    of_format (op := 0x99) rfl rfl rfl, of_format (op := 0x81) rfl rfl rfl,
    of_format (op := 0x91) rfl rfl rfl]

theorem stx (o : StxOperand) : Statement (.stx o) := by
  cases o
  exacts [of_format (op := 0x86) rfl rfl rfl, of_format (op := 0x96) rfl rfl rfl,
    of_format (op := 0x8E) rfl rfl rfl]

theorem sty (o : StyOperand) : Statement (.sty o) := by
  cases o
  exacts [of_format (op := 0x84) rfl rfl rfl, of_format (op := 0x94) rfl rfl rfl,
    of_format (op := 0x8C) rfl rfl rfl]

theorem tax : Statement (.tax) := of_format (op := 0xAA) rfl rfl rfl

theorem tay : Statement (.tay) := of_format (op := 0xA8) rfl rfl rfl

theorem txa : Statement (.txa) := of_format (op := 0x8A) rfl rfl rfl

theorem tya : Statement (.tya) := of_format (op := 0x98) rfl rfl rfl

theorem tsx : Statement (.tsx) := of_format (op := 0xBA) rfl rfl rfl

theorem txs : Statement (.txs) := of_format (op := 0x9A) rfl rfl rfl

theorem adc (o : ReadOperand) : Statement (.adc o) := by
  cases o
  exacts [of_format (op := 0x69) rfl rfl rfl, of_format (op := 0x65) rfl rfl rfl,
    of_format (op := 0x75) rfl rfl rfl, of_format (op := 0x6D) rfl rfl rfl,
    of_format (op := 0x7D) rfl rfl rfl, of_format (op := 0x79) rfl rfl rfl,
    of_format (op := 0x61) rfl rfl rfl, of_format (op := 0x71) rfl rfl rfl]

theorem sbc (o : ReadOperand) : Statement (.sbc o) := by
  cases o
  exacts [of_format (op := 0xE9) rfl rfl rfl, of_format (op := 0xE5) rfl rfl rfl,
    of_format (op := 0xF5) rfl rfl rfl, of_format (op := 0xED) rfl rfl rfl,
    of_format (op := 0xFD) rfl rfl rfl, of_format (op := 0xF9) rfl rfl rfl,
    of_format (op := 0xE1) rfl rfl rfl, of_format (op := 0xF1) rfl rfl rfl]

theorem and (o : ReadOperand) : Statement (.and o) := by
  cases o
  exacts [of_format (op := 0x29) rfl rfl rfl, of_format (op := 0x25) rfl rfl rfl,
    of_format (op := 0x35) rfl rfl rfl, of_format (op := 0x2D) rfl rfl rfl,
    of_format (op := 0x3D) rfl rfl rfl, of_format (op := 0x39) rfl rfl rfl,
    of_format (op := 0x21) rfl rfl rfl, of_format (op := 0x31) rfl rfl rfl]

theorem ora (o : ReadOperand) : Statement (.ora o) := by
  cases o
  exacts [of_format (op := 0x09) rfl rfl rfl, of_format (op := 0x05) rfl rfl rfl,
    of_format (op := 0x15) rfl rfl rfl, of_format (op := 0x0D) rfl rfl rfl,
    of_format (op := 0x1D) rfl rfl rfl, of_format (op := 0x19) rfl rfl rfl,
    of_format (op := 0x01) rfl rfl rfl, of_format (op := 0x11) rfl rfl rfl]

theorem eor (o : ReadOperand) : Statement (.eor o) := by
  cases o
  exacts [of_format (op := 0x49) rfl rfl rfl, of_format (op := 0x45) rfl rfl rfl,
    of_format (op := 0x55) rfl rfl rfl, of_format (op := 0x4D) rfl rfl rfl,
    of_format (op := 0x5D) rfl rfl rfl, of_format (op := 0x59) rfl rfl rfl,
    of_format (op := 0x41) rfl rfl rfl, of_format (op := 0x51) rfl rfl rfl]

theorem cmp (o : ReadOperand) : Statement (.cmp o) := by
  cases o
  exacts [of_format (op := 0xC9) rfl rfl rfl, of_format (op := 0xC5) rfl rfl rfl,
    of_format (op := 0xD5) rfl rfl rfl, of_format (op := 0xCD) rfl rfl rfl,
    of_format (op := 0xDD) rfl rfl rfl, of_format (op := 0xD9) rfl rfl rfl,
    of_format (op := 0xC1) rfl rfl rfl, of_format (op := 0xD1) rfl rfl rfl]

theorem cpx (o : IndexCompareOperand) : Statement (.cpx o) := by
  cases o
  exacts [of_format (op := 0xE0) rfl rfl rfl, of_format (op := 0xE4) rfl rfl rfl,
    of_format (op := 0xEC) rfl rfl rfl]

theorem cpy (o : IndexCompareOperand) : Statement (.cpy o) := by
  cases o
  exacts [of_format (op := 0xC0) rfl rfl rfl, of_format (op := 0xC4) rfl rfl rfl,
    of_format (op := 0xCC) rfl rfl rfl]

theorem bit (o : BitOperand) : Statement (.bit o) := by
  cases o
  exacts [of_format (op := 0x24) rfl rfl rfl, of_format (op := 0x2C) rfl rfl rfl]

theorem inc (o : StepOperand) : Statement (.inc o) := by
  cases o
  exacts [of_format (op := 0xE6) rfl rfl rfl, of_format (op := 0xF6) rfl rfl rfl,
    of_format (op := 0xEE) rfl rfl rfl, of_format (op := 0xFE) rfl rfl rfl]

theorem dec (o : StepOperand) : Statement (.dec o) := by
  cases o
  exacts [of_format (op := 0xC6) rfl rfl rfl, of_format (op := 0xD6) rfl rfl rfl,
    of_format (op := 0xCE) rfl rfl rfl, of_format (op := 0xDE) rfl rfl rfl]

theorem inx : Statement (.inx) := of_format (op := 0xE8) rfl rfl rfl

theorem iny : Statement (.iny) := of_format (op := 0xC8) rfl rfl rfl

theorem dex : Statement (.dex) := of_format (op := 0xCA) rfl rfl rfl

theorem dey : Statement (.dey) := of_format (op := 0x88) rfl rfl rfl

theorem asl (o : ShiftOperand) : Statement (.asl o) := by
  cases o
  exacts [of_format (op := 0x0A) rfl rfl rfl, of_format (op := 0x06) rfl rfl rfl,
    of_format (op := 0x16) rfl rfl rfl, of_format (op := 0x0E) rfl rfl rfl,
    of_format (op := 0x1E) rfl rfl rfl]

theorem lsr (o : ShiftOperand) : Statement (.lsr o) := by
  cases o
  exacts [of_format (op := 0x4A) rfl rfl rfl, of_format (op := 0x46) rfl rfl rfl,
    of_format (op := 0x56) rfl rfl rfl, of_format (op := 0x4E) rfl rfl rfl,
    of_format (op := 0x5E) rfl rfl rfl]

theorem rol (o : ShiftOperand) : Statement (.rol o) := by
  cases o
  exacts [of_format (op := 0x2A) rfl rfl rfl, of_format (op := 0x26) rfl rfl rfl,
    of_format (op := 0x36) rfl rfl rfl, of_format (op := 0x2E) rfl rfl rfl,
    of_format (op := 0x3E) rfl rfl rfl]

theorem ror (o : ShiftOperand) : Statement (.ror o) := by
  cases o
  exacts [of_format (op := 0x6A) rfl rfl rfl, of_format (op := 0x66) rfl rfl rfl,
    of_format (op := 0x76) rfl rfl rfl, of_format (op := 0x6E) rfl rfl rfl,
    of_format (op := 0x7E) rfl rfl rfl]

theorem bcc (displacement : Byte) : Statement (.bcc displacement) := of_format (op := 0x90) rfl rfl rfl

theorem bcs (displacement : Byte) : Statement (.bcs displacement) := of_format (op := 0xB0) rfl rfl rfl

theorem beq (displacement : Byte) : Statement (.beq displacement) := of_format (op := 0xF0) rfl rfl rfl

theorem bne (displacement : Byte) : Statement (.bne displacement) := of_format (op := 0xD0) rfl rfl rfl

theorem bmi (displacement : Byte) : Statement (.bmi displacement) := of_format (op := 0x30) rfl rfl rfl

theorem bpl (displacement : Byte) : Statement (.bpl displacement) := of_format (op := 0x10) rfl rfl rfl

theorem bvc (displacement : Byte) : Statement (.bvc displacement) := of_format (op := 0x50) rfl rfl rfl

theorem bvs (displacement : Byte) : Statement (.bvs displacement) := of_format (op := 0x70) rfl rfl rfl

theorem jmp (o : JmpOperand) : Statement (.jmp o) := by
  cases o
  exacts [of_format (op := 0x4C) rfl rfl rfl, of_format (op := 0x6C) rfl rfl rfl]

theorem jsr (target : Word) : Statement (.jsr target) := of_format (op := 0x20) rfl rfl rfl

theorem rts : Statement (.rts) := of_format (op := 0x60) rfl rfl rfl

theorem pha : Statement (.pha) := of_format (op := 0x48) rfl rfl rfl

theorem php : Statement (.php) := of_format (op := 0x08) rfl rfl rfl

theorem pla : Statement (.pla) := of_format (op := 0x68) rfl rfl rfl

theorem plp : Statement (.plp) := of_format (op := 0x28) rfl rfl rfl

theorem clc : Statement (.clc) := of_format (op := 0x18) rfl rfl rfl

theorem cld : Statement (.cld) := of_format (op := 0xD8) rfl rfl rfl

theorem cli : Statement (.cli) := of_format (op := 0x58) rfl rfl rfl

theorem clv : Statement (.clv) := of_format (op := 0xB8) rfl rfl rfl

theorem sec : Statement (.sec) := of_format (op := 0x38) rfl rfl rfl

theorem sed : Statement (.sed) := of_format (op := 0xF8) rfl rfl rfl

theorem sei : Statement (.sei) := of_format (op := 0x78) rfl rfl rfl

theorem brk : Statement (.brk) := of_format (op := 0x00) rfl rfl rfl

theorem rti : Statement (.rti) := of_format (op := 0x40) rfl rfl rfl

theorem nop : Statement (.nop) := of_format (op := 0xEA) rfl rfl rfl

/-- XXX: the opcode byte is unassigned, so its format is the one of `UNDOC_MODE` (R140). -/
theorem xxx (op : Byte) (o : UndocOperand) : Statement (.xxx op o) := by
  intro u h
  simp only [Instr.wellFormed, Bool.and_eq_true, beq_iff_eq, unassigned, Option.isNone_iff_eq_none] at h
  have hf : formatOf u op = undocFormat u op := by rw [formatOf, h.1]; rfl
  have hlen : (encode (.xxx op o)).length = (formatOf u op).length := by
    rw [hf]
    have hm := h.2
    cases o <;> (unfold undocFormat; rw [← hm]; rfl)
  exact ⟨hlen, hlen ▸ length_bounds _⟩

end Sys2Proof.Laws.EncodedLength
end

