-- ==== Sys2Proof/Tests/Slice0.lean ====
section
/-! SUPPORT. Tests: decoding of words written out from the spec's encodings, one small instruction per constructor, the
buses and units, the well-formedness check on ill-formed terms, and a witness for the hypotheses of every statement
that has some. Expected values come from spec/95_test_vectors.md, from the worked examples of the rules, or from hand
calculation by the rule named. -/

namespace Sys2Proof.Tests

open Sys2Proof Sys2Proof.Machine Sys2Proof.Claims

/-! ## Helpers -/

/-- A machine with two program banks that are 0 but for the vectors of spec/95 section 2 (NMI 0x9000, IRQ 0xA000). -/
def cpu (pc : Word) (a x y sp p : Byte) (ram : Memory 8) : State :=
  { State.reset with
    pc, a, x, y, sp, p, ram, cart := { Cartridge.blank with prg := [(0x7FFB, 0x90), (0x7FFF, 0xA0)] } }

/-- A plain machine at 0x8000. -/
def plain : State := cpu 0x8000 0x11 0x22 0x33 0xFD 0x24 [(0x010, 0x7F)]

/-- One whole instruction of the given bytes, placed at `PC`, then a check of the state it leaves. -/
def after (s : State) (code : List Byte) (f : State → Bool) : Bool :=
  match cpuClock (placeAll s s.pc code) with
  | .next t => f t
  | .fault _ => false
  | .refused _ => false

/-- One tick, then a check of the state it leaves. -/
def afterTick (s : State) (f : State → Bool) : Bool :=
  match step s with
  | .next t => f t
  | .fault _ => false
  | .refused _ => false

/-- The seven-tuple of spec/95 (cost on top of the 7 after reset) and bytes of RAM. -/
def is (pc : Word) (a x y sp p : Byte) (cost : Nat) (ram : List (Nat × Byte)) (t : State) : Bool :=
  t.pc == pc && t.a == a && t.x == x && t.y == y && t.sp == sp && t.p == p && t.cycles == 7 + cost &&
    ram.all fun c => t.ram.read c.1 == c.2

/-- The bytes decode to this instruction and nothing is left. -/
def reads (bytes : List Byte) (i : Instr) : Bool :=
  match decode [] bytes with
  | .ok (j, rest) => j == i && rest.isEmpty
  | .error _ => false

/-- A picture unit at a dot, with zero memories. -/
def unit (scanline : Int) (cycle : Nat) (ctrl mask : Byte) : Ppu :=
  { Ppu.afterReset [] [] [] [] [] with scanline, cycle, ctrl, mask }

/-! ## Well-formedness: an ill-formed term for each check -/

/-- XXX must not carry an assigned opcode (R131). -/
theorem test_wellFormed_refuses_assigned_opcode : (Instr.xxx 0xA9 .imm).wellFormed [] = false := by decide

/-- XXX must carry an operand in the mode of its opcode (R141: 0x04 is ZP0). -/
theorem test_wellFormed_refuses_wrong_mode : (Instr.xxx 0x04 .imp).wellFormed [] = false := by decide

/-- The mode is the run's to choose (R10, R141). -/
theorem test_wellFormed_follows_parameters :
    (Instr.xxx 0x04 (.zp0 0x10)).wellFormed [⟨0x04, .imp, 2, false⟩] = false := by decide

theorem test_wellFormed_accepts_table_row : (Instr.xxx 0x04 (.zp0 0x10)).wellFormed [] = true := by decide

/-! ## Decoding: bytes written out from R132 and R136 -/

theorem test_decode_rejects_no_byte : decode [] [] = .error .empty := rfl

theorem test_decode_rejects_truncated : decode [] [0b10101101, 0x34] = .error (.truncated 0xAD) := rfl

theorem test_decode_loads_stores :
    reads [0b10101001, 0x10] (.lda (.imm 0x10)) = true ∧
    reads [0b10110001, 0x20] (.lda (.izy 0x20)) = true ∧
    reads [0b10110110, 0xFF] (.ldx (.zpy 0xFF)) = true ∧
    reads [0b10111100, 0x00, 0x03] (.ldy (.abx 0x0300)) = true ∧
    reads [0b10000001, 0x20] (.sta (.izx 0x20)) = true ∧
    reads [0b10010110, 0xF0] (.stx (.zpy 0xF0)) = true ∧
    reads [0b10010100, 0x10] (.sty (.zpx 0x10)) = true := by decide

theorem test_decode_transfers :
    reads [0b10101010] (.tax) = true ∧
    reads [0b10101000] (.tay) = true ∧
    reads [0b10001010] (.txa) = true ∧
    reads [0b10011000] (.tya) = true ∧
    reads [0b10111010] (.tsx) = true ∧
    reads [0b10011010] (.txs) = true := by decide

theorem test_decode_arithmetic :
    reads [0b01111001, 0x34, 0x12] (.adc (.aby 0x1234)) = true ∧
    reads [0b11101001, 0x01] (.sbc (.imm 0x01)) = true ∧
    reads [0b00100101, 0x10] (.and (.zp0 0x10)) = true ∧
    reads [0b00010101, 0x10] (.ora (.zpx 0x10)) = true ∧
    reads [0b01001101, 0x34, 0x12] (.eor (.abs 0x1234)) = true ∧
    reads [0b11011101, 0x34, 0x12] (.cmp (.abx 0x1234)) = true ∧
    reads [0b11100000, 0x10] (.cpx (.imm 0x10)) = true ∧
    reads [0b11001100, 0x34, 0x12] (.cpy (.abs 0x1234)) = true ∧
    reads [0b00101100, 0x02, 0x20] (.bit (.abs 0x2002)) = true := by decide

theorem test_decode_steps :
    reads [0b11100110, 0x20] (.inc (.zp0 0x20)) = true ∧
    reads [0b11011110, 0x34, 0x12] (.dec (.abx 0x1234)) = true ∧
    reads [0b11101000] (.inx) = true ∧
    reads [0b11001000] (.iny) = true ∧
    reads [0b11001010] (.dex) = true ∧
    reads [0b10001000] (.dey) = true := by decide

theorem test_decode_shifts :
    reads [0b00001010] (.asl .acc) = true ∧
    reads [0b01000110, 0x10] (.lsr (.zp0 0x10)) = true ∧
    reads [0b00110110, 0x10] (.rol (.zpx 0x10)) = true ∧
    reads [0b01111110, 0x34, 0x12] (.ror (.abx 0x1234)) = true := by decide

theorem test_decode_branches :
    reads [0b10010000, 0x02] (.bcc 0x02) = true ∧
    reads [0b10110000, 0x02] (.bcs 0x02) = true ∧
    reads [0b11110000, 0xFE] (.beq 0xFE) = true ∧
    reads [0b11010000, 0xFB] (.bne 0xFB) = true ∧
    reads [0b00110000, 0x7F] (.bmi 0x7F) = true ∧
    reads [0b00010000, 0xFB] (.bpl 0xFB) = true ∧
    reads [0b01010000, 0x80] (.bvc 0x80) = true ∧
    reads [0b01110000, 0x10] (.bvs 0x10) = true := by decide

theorem test_decode_jumps :
    reads [0b01001100, 0x00, 0xC0] (.jmp (.abs 0xC000)) = true ∧
    reads [0b01101100, 0xFF, 0x02] (.jmp (.ind 0x02FF)) = true ∧
    reads [0b00100000, 0x34, 0x12] (.jsr 0x1234) = true ∧
    reads [0b01100000] (.rts) = true := by decide

theorem test_decode_stack_and_system :
    reads [0b01001000] (.pha) = true ∧
    reads [0b00001000] (.php) = true ∧
    reads [0b01101000] (.pla) = true ∧
    reads [0b00101000] (.plp) = true ∧
    reads [0b00000000] (.brk) = true ∧
    reads [0b01000000] (.rti) = true ∧
    reads [0b11101010] (.nop) = true := by decide

theorem test_decode_flags :
    reads [0b00011000] (.clc) = true ∧
    reads [0b11011000] (.cld) = true ∧
    reads [0b01011000] (.cli) = true ∧
    reads [0b10111000] (.clv) = true ∧
    reads [0b00111000] (.sec) = true ∧
    reads [0b11111000] (.sed) = true ∧
    reads [0b01111000] (.sei) = true := by decide

theorem test_decode_unassigned :
    reads [0b00000100, 0x10] (.xxx 0x04 (.zp0 0x10)) = true ∧
    reads [0b00000010] (.xxx 0x02 .imp) = true ∧
    reads [0b00011100, 0xFF, 0x02] (.xxx 0x1C (.abx 0x02FF)) = true ∧
    reads [0b10100011, 0x20] (.xxx 0xA3 (.izx 0x20)) = true ∧
    reads [0b11101011, 0x55] (.xxx 0xEB .imm) = true := by decide

theorem test_decodeTableWord_numbers_first_byte_lowest :
    decodeTableWord 24 0x1234AD = some (.lda (.abs 0x1234)) := by decide

theorem test_decodeTableWord_zero_above_nbits : decodeTableWord 8 0x1234AD = some (.lda (.abs 0x0000)) := by decide

/-! ## Loads, stores, transfers -/

-- spec/95_test_vectors.md V10
theorem test_lda_indirect_y_wraps_in_page_zero :
    after (cpu 0x8000 0x00 0x00 0x01 0xFD 0x24 [(0x000, 0x03), (0x301, 0xC3)]) [0xB1, 0xFF]
      (is 0x8002 0xC3 0x00 0x01 0xFD 0xA4 5 []) = true := by decide

-- spec/95_test_vectors.md V11
theorem test_ldx_zero_page_y_wraps :
    after (cpu 0x8000 0x00 0x00 0x02 0xFD 0x24 [(0x001, 0x07)]) [0xB6, 0xFF]
      (is 0x8002 0x00 0x07 0x02 0xFD 0x24 4 []) = true := by decide

-- spec/95_test_vectors.md V13
theorem test_ldy_absolute_x :
    after (cpu 0x8000 0x00 0x05 0x00 0xFD 0x24 []) [0xBC, 0x00, 0x03]
      (is 0x8003 0x00 0x05 0x00 0xFD 0x26 4 []) = true := by decide

-- spec/95_test_vectors.md V16
theorem test_sta_indirect_y_crosses :
    after (cpu 0x8000 0x22 0x00 0x01 0xFD 0x24 [(0x020, 0xFF), (0x021, 0x02)]) [0x91, 0x20]
      (is 0x8002 0x22 0x00 0x01 0xFD 0x24 6 [(0x300, 0x22)]) = true := by decide

-- spec/95_test_vectors.md V18
theorem test_stx_zero_page_y_wraps :
    after (cpu 0x8000 0x00 0x66 0x20 0xFD 0x24 []) [0x96, 0xF0]
      (is 0x8002 0x00 0x66 0x20 0xFD 0x24 4 [(0x010, 0x66)]) = true := by decide

-- spec/95_test_vectors.md V19
theorem test_sty_zero_page_x :
    after (cpu 0x8000 0x00 0x01 0x88 0xFD 0x24 []) [0x94, 0x10]
      (is 0x8002 0x00 0x01 0x88 0xFD 0x24 4 [(0x011, 0x88)]) = true := by decide

-- spec/95_test_vectors.md V22
theorem test_tax :
    after (cpu 0x8000 0x80 0x00 0x00 0xFD 0x24 []) [0xAA]
      (is 0x8001 0x80 0x80 0x00 0xFD 0xA4 2 []) = true := by decide

-- spec/95_test_vectors.md V23
theorem test_tay :
    after (cpu 0x8000 0x00 0x00 0x01 0xFD 0x24 []) [0xA8]
      (is 0x8001 0x00 0x00 0x00 0xFD 0x26 2 []) = true := by decide

-- spec/95_test_vectors.md V24
theorem test_txa :
    after (cpu 0x8000 0xFF 0x7F 0x00 0xFD 0x24 []) [0x8A]
      (is 0x8001 0x7F 0x7F 0x00 0xFD 0x24 2 []) = true := by decide

-- spec/95_test_vectors.md V25
theorem test_tya :
    after (cpu 0x8000 0x00 0x00 0xF0 0xFD 0x24 []) [0x98]
      (is 0x8001 0xF0 0x00 0xF0 0xFD 0xA4 2 []) = true := by decide

-- spec/95_test_vectors.md V26
theorem test_tsx :
    after (cpu 0x8000 0x00 0x00 0x00 0xFD 0x24 []) [0xBA]
      (is 0x8001 0x00 0xFD 0x00 0xFD 0xA4 2 []) = true := by decide

-- spec/95_test_vectors.md V27
theorem test_txs_writes_no_flag :
    after (cpu 0x8000 0x00 0x00 0x00 0xFD 0x24 []) [0x9A]
      (is 0x8001 0x00 0x00 0x00 0x00 0x24 2 []) = true := by decide

/-! ## Arithmetic, logic, compares, steps -/

-- spec/95_test_vectors.md V43
theorem test_adc_carry_in_and_out :
    after (cpu 0x8000 0xFF 0x00 0x00 0xFD 0x25 []) [0x69, 0xFF]
      (is 0x8002 0xFF 0x00 0x00 0xFD 0xA5 2 []) = true := by decide

-- spec/95_test_vectors.md V44
theorem test_adc_overflow :
    after (cpu 0x8000 0x50 0x00 0x00 0xFD 0x24 []) [0x69, 0x50]
      (is 0x8002 0xA0 0x00 0x00 0xFD 0xE4 2 []) = true := by decide

-- spec/95_test_vectors.md V48
theorem test_sbc_overflow :
    after (cpu 0x8000 0x80 0x00 0x00 0xFD 0x25 []) [0xE9, 0x01]
      (is 0x8002 0x7F 0x00 0x00 0xFD 0x65 2 []) = true := by decide

-- spec/95_test_vectors.md V50
theorem test_sbc_borrow :
    after (cpu 0x8000 0x05 0x00 0x00 0xFD 0x24 []) [0xE9, 0x03]
      (is 0x8002 0x01 0x00 0x00 0xFD 0x25 2 []) = true := by decide

-- spec/95_test_vectors.md V53
theorem test_and :
    after (cpu 0x8000 0xF0 0x00 0x00 0xFD 0x24 []) [0x29, 0x3C]
      (is 0x8002 0x30 0x00 0x00 0xFD 0x24 2 []) = true := by decide

-- spec/95_test_vectors.md V55
theorem test_ora :
    after (cpu 0x8000 0x0F 0x00 0x00 0xFD 0x24 []) [0x09, 0x80]
      (is 0x8002 0x8F 0x00 0x00 0xFD 0xA4 2 []) = true := by decide

-- spec/95_test_vectors.md V56
theorem test_eor :
    after (cpu 0x8000 0xAA 0x00 0x00 0xFD 0x24 []) [0x49, 0xAA]
      (is 0x8002 0x00 0x00 0x00 0xFD 0x26 2 []) = true := by decide

-- spec/95_test_vectors.md V60
theorem test_cmp_sign_of_difference :
    after (cpu 0x8000 0x80 0x00 0x00 0xFD 0x64 []) [0xC9, 0x00]
      (is 0x8002 0x80 0x00 0x00 0xFD 0xE5 2 []) = true := by decide

-- spec/95_test_vectors.md V61
theorem test_cpx :
    after (cpu 0x8000 0x00 0x10 0x00 0xFD 0x24 []) [0xE0, 0x10]
      (is 0x8002 0x00 0x10 0x00 0xFD 0x27 2 []) = true := by decide

-- spec/95_test_vectors.md V62
theorem test_cpy :
    after (cpu 0x8000 0x00 0x00 0x05 0xFD 0x24 []) [0xC0, 0x06]
      (is 0x8002 0x00 0x00 0x05 0xFD 0xA4 2 []) = true := by decide

-- spec/95_test_vectors.md V64
theorem test_bit_copies_bits_six_and_seven :
    after (cpu 0x8000 0x3F 0x00 0x00 0xFD 0x24 [(0x300, 0xC0)]) [0x2C, 0x00, 0x03]
      (is 0x8003 0x3F 0x00 0x00 0xFD 0xE6 4 []) = true := by decide

-- spec/95_test_vectors.md V66
theorem test_inc_absolute_x_crosses :
    after (cpu 0x8000 0x00 0x01 0x00 0xFD 0x24 [(0x300, 0x7F)]) [0xFE, 0xFF, 0x02]
      (is 0x8003 0x00 0x01 0x00 0xFD 0xA4 7 [(0x300, 0x80)]) = true := by decide

-- spec/95_test_vectors.md V67
theorem test_dec_wraps :
    after (cpu 0x8000 0x00 0x00 0x00 0xFD 0x24 []) [0xC6, 0x20]
      (is 0x8002 0x00 0x00 0x00 0xFD 0xA4 5 [(0x020, 0xFF)]) = true := by decide

-- spec/95_test_vectors.md V69
theorem test_inx_wraps :
    after (cpu 0x8000 0x00 0xFF 0x00 0xFD 0x25 []) [0xE8]
      (is 0x8001 0x00 0x00 0x00 0xFD 0x27 2 []) = true := by decide

-- spec/95_test_vectors.md V70
theorem test_iny :
    after (cpu 0x8000 0x00 0x00 0x7F 0xFD 0x24 []) [0xC8]
      (is 0x8001 0x00 0x00 0x80 0xFD 0xA4 2 []) = true := by decide

-- spec/95_test_vectors.md V71
theorem test_dex_wraps :
    after (cpu 0x8000 0x00 0x00 0x00 0xFD 0x24 []) [0xCA]
      (is 0x8001 0x00 0xFF 0x00 0xFD 0xA4 2 []) = true := by decide

-- spec/95_test_vectors.md V72
theorem test_dey :
    after (cpu 0x8000 0x00 0x00 0x01 0xFD 0x24 []) [0x88]
      (is 0x8001 0x00 0x00 0x00 0xFD 0x26 2 []) = true := by decide

/-! ## Shifts and rotates -/

-- spec/95_test_vectors.md V87
theorem test_asl_memory_leaves_a :
    after (cpu 0x8000 0x33 0x00 0x00 0xFD 0x24 [(0x010, 0xC0)]) [0x06, 0x10]
      (is 0x8002 0x33 0x00 0x00 0xFD 0xA5 5 [(0x010, 0x80)]) = true := by decide

-- spec/95_test_vectors.md V90
theorem test_lsr_memory :
    after (cpu 0x8000 0x00 0x00 0x00 0xFD 0x24 [(0x300, 0xFF)]) [0x5E, 0x00, 0x03]
      (is 0x8003 0x00 0x00 0x00 0xFD 0x25 7 [(0x300, 0x7F)]) = true := by decide

-- spec/95_test_vectors.md V88
theorem test_rol_memory :
    after (cpu 0x8000 0x00 0x01 0x00 0xFD 0x25 [(0x300, 0x40)]) [0x3E, 0xFF, 0x02]
      (is 0x8003 0x00 0x01 0x00 0xFD 0xA4 7 [(0x300, 0x81)]) = true := by decide

-- spec/95_test_vectors.md V89
theorem test_ror_memory :
    after (cpu 0x8000 0x00 0x00 0x00 0xFD 0x25 [(0x010, 0x02)]) [0x66, 0x10]
      (is 0x8002 0x00 0x00 0x00 0xFD 0xA4 5 [(0x010, 0x81)]) = true := by decide

-- spec/95_test_vectors.md V85
theorem test_ror_accumulator :
    after (cpu 0x8000 0x01 0x00 0x00 0xFD 0x25 []) [0x6A]
      (is 0x8001 0x80 0x00 0x00 0xFD 0xA5 2 []) = true := by decide

/-! ## Control transfer -/

-- spec/95_test_vectors.md V100
theorem test_bcc_taken :
    after (cpu 0x8000 0x00 0x00 0x00 0xFD 0x24 []) [0x90, 0x02]
      (is 0x8004 0x00 0x00 0x00 0xFD 0x24 3 []) = true := by decide

-- spec/95_test_vectors.md V101
theorem test_bcs_not_taken :
    after (cpu 0x8000 0x00 0x00 0x00 0xFD 0x24 []) [0xB0, 0x02]
      (is 0x8002 0x00 0x00 0x00 0xFD 0x24 2 []) = true := by decide

-- spec/95_test_vectors.md V102
theorem test_beq_to_itself :
    after (cpu 0x8000 0x00 0x00 0x00 0xFD 0x26 []) [0xF0, 0xFE]
      (is 0x8000 0x00 0x00 0x00 0xFD 0x26 3 []) = true := by decide

-- spec/95_test_vectors.md V109
theorem test_bne_crosses_page :
    after (cpu 0x80FD 0x00 0x00 0x00 0xFD 0x24 []) [0xD0, 0x01]
      (is 0x8100 0x00 0x00 0x00 0xFD 0x24 4 []) = true := by decide

-- spec/95_test_vectors.md V104
theorem test_bmi_crosses_page :
    after (cpu 0x80F0 0x00 0x00 0x00 0xFD 0xA4 []) [0x30, 0x7F]
      (is 0x8171 0x00 0x00 0x00 0xFD 0xA4 4 []) = true := by decide

-- spec/95_test_vectors.md V105
theorem test_bpl_backwards :
    after (cpu 0x8003 0x00 0x00 0x00 0xFD 0x24 []) [0x10, 0xFB]
      (is 0x8000 0x00 0x00 0x00 0xFD 0x24 3 []) = true := by decide

-- spec/95_test_vectors.md V106
theorem test_bvc_backwards :
    after (cpu 0x8000 0x00 0x00 0x00 0xFD 0x24 []) [0x50, 0x80]
      (is 0x7F82 0x00 0x00 0x00 0xFD 0x24 4 []) = true := by decide

-- spec/95_test_vectors.md V107
theorem test_bvs_not_taken :
    after (cpu 0x8000 0x00 0x00 0x00 0xFD 0x24 []) [0x70, 0x10]
      (is 0x8002 0x00 0x00 0x00 0xFD 0x24 2 []) = true := by decide

-- spec/95_test_vectors.md V112
theorem test_jmp_indirect_at_page_end :
    after (cpu 0x8000 0x00 0x00 0x00 0xFD 0x24 [(0x200, 0x12), (0x2FF, 0x34), (0x300, 0x56)]) [0x6C, 0xFF, 0x02]
      (is 0x1234 0x00 0x00 0x00 0xFD 0x24 5 []) = true := by decide

-- spec/95_test_vectors.md V115
theorem test_jsr_wraps_stack :
    after (cpu 0x8000 0x00 0x00 0x00 0x00 0x24 []) [0x20, 0x00, 0x90]
      (is 0x9000 0x00 0x00 0x00 0xFE 0x24 6 [(0x100, 0x80), (0x1FF, 0x02)]) = true := by decide

-- spec/95_test_vectors.md V117
theorem test_rts_wraps_stack_and_pc :
    after (cpu 0x8000 0x00 0x00 0x00 0xFF 0x24 [(0x100, 0xFF), (0x101, 0xFF)]) [0x60]
      (is 0x0000 0x00 0x00 0x00 0x01 0x24 6 []) = true := by decide

/-! ## Stack, flags, system -/

-- spec/95_test_vectors.md V130
theorem test_pha :
    after (cpu 0x8000 0x42 0x00 0x00 0xFD 0x24 []) [0x48]
      (is 0x8001 0x42 0x00 0x00 0xFC 0x24 3 [(0x1FD, 0x42)]) = true := by decide

-- spec/95_test_vectors.md V132
theorem test_php :
    after (cpu 0x8000 0x00 0x00 0x00 0xFD 0xE5 []) [0x08]
      (is 0x8001 0x00 0x00 0x00 0xFC 0xE5 3 [(0x1FD, 0xF5)]) = true := by decide

-- spec/95_test_vectors.md V134
theorem test_pla_wraps_stack :
    after (cpu 0x8000 0x01 0x00 0x00 0xFF 0x24 []) [0x68]
      (is 0x8001 0x00 0x00 0x00 0x00 0x26 4 []) = true := by decide

-- spec/95_test_vectors.md V135
theorem test_plp_drops_bit_four :
    after (cpu 0x8000 0x00 0x00 0x00 0xFC 0x24 [(0x1FD, 0xFF)]) [0x28]
      (is 0x8001 0x00 0x00 0x00 0xFD 0xEF 4 []) = true := by decide

-- spec/95_test_vectors.md V137
theorem test_clc :
    after (cpu 0x8000 0x00 0x00 0x00 0xFD 0x25 []) [0x18]
      (is 0x8001 0x00 0x00 0x00 0xFD 0x24 2 []) = true := by decide

-- spec/95_test_vectors.md V138
theorem test_cld :
    after (cpu 0x8000 0x00 0x00 0x00 0xFD 0x2C []) [0xD8]
      (is 0x8001 0x00 0x00 0x00 0xFD 0x24 2 []) = true := by decide

-- spec/95_test_vectors.md V139
theorem test_cli :
    after (cpu 0x8000 0x00 0x00 0x00 0xFD 0x24 []) [0x58]
      (is 0x8001 0x00 0x00 0x00 0xFD 0x20 2 []) = true := by decide

-- spec/95_test_vectors.md V140
theorem test_clv :
    after (cpu 0x8000 0x00 0x00 0x00 0xFD 0x64 []) [0xB8]
      (is 0x8001 0x00 0x00 0x00 0xFD 0x24 2 []) = true := by decide

-- spec/95_test_vectors.md V141
theorem test_sec :
    after (cpu 0x8000 0x00 0x00 0x00 0xFD 0x24 []) [0x38]
      (is 0x8001 0x00 0x00 0x00 0xFD 0x25 2 []) = true := by decide

-- spec/95_test_vectors.md V142
theorem test_sed :
    after (cpu 0x8000 0x00 0x00 0x00 0xFD 0x24 []) [0xF8]
      (is 0x8001 0x00 0x00 0x00 0xFD 0x2C 2 []) = true := by decide

-- spec/95_test_vectors.md V143
theorem test_sei :
    after (cpu 0x8000 0x00 0x00 0x00 0xFD 0x20 []) [0x78]
      (is 0x8001 0x00 0x00 0x00 0xFD 0x24 2 []) = true := by decide

-- spec/95_test_vectors.md V145
theorem test_brk :
    after (cpu 0x8000 0x00 0x00 0x00 0xFD 0xA1 []) [0x00, 0xFF]
      (is 0xA000 0x00 0x00 0x00 0xFA 0xA5 7 [(0x1FB, 0xB1), (0x1FC, 0x02), (0x1FD, 0x80)]) = true := by decide

-- spec/95_test_vectors.md V147
theorem test_rti :
    after (cpu 0x8000 0x00 0x00 0x00 0xFA 0x24 [(0x1FB, 0xC3), (0x1FD, 0x90)]) [0x40]
      (is 0x9000 0x00 0x00 0x00 0xFD 0xE3 6 []) = true := by decide

-- spec/95_test_vectors.md V149
theorem test_nop_sets_bit_five :
    after (cpu 0x8000 0x00 0x00 0x00 0xFD 0x04 []) [0xEA]
      (is 0x8001 0x00 0x00 0x00 0xFD 0x24 2 []) = true := by decide

-- spec/95_test_vectors.md V152
theorem test_xxx_page_cross :
    after (cpu 0x8000 0x00 0x01 0x00 0xFD 0x24 []) [0x1C, 0xFF, 0x02]
      (is 0x8003 0x00 0x01 0x00 0xFD 0x24 5 []) = true := by decide

/-! ## Interrupts, reset, host -/

-- by R502: nothing at all changes
theorem test_masked_irq : cpuIrq plain = plain := by decide

-- by R505: PC 0x8000, P 0x20, S 0xFD; pushed status has bit 5 set and bit 4 clear
theorem test_irq_entry :
    is 0xA000 0x11 0x22 0x33 0xFA 0x24 7 [(0x1FD, 0x80), (0x1FC, 0x00), (0x1FB, 0x20)]
      (cpuIrq { plain with p := 0x20 }) = true := by decide

-- spec/95_test_vectors.md E2: reset pushes nothing
theorem test_reset_registers :
    is 0x8000 0x00 0x00 0x00 0xFD 0x24 0 [(0x1FD, 0x77)]
      (systemReset { plain with
        p := 0xFF, sp := 0x10, cycles := 1000, ram := [(0x1FD, 0x77)],
        cart := { Cartridge.blank with prg := [(0x7FFD, 0x80)] } }) = true := by decide

theorem test_host_or_buttons : ((plain.orButtons true 0x81).orButtons true 0x02).readButtons true = 0x83 := by decide

/-! ## The buses and the cartridge -/

-- spec/95_test_vectors.md E1
theorem test_one_bank_is_mirrored :
    let s := { plain with cart := { Cartridge.blank with extraPrgBanks := 0, prg := [(0x0000, 0xA9), (0x3FFF, 0x5C)] } }
    (busRead 0x8000 s).1 = 0xA9 ∧ (busRead 0xC000 s).1 = 0xA9 ∧ (busRead 0xBFFF s).1 = 0x5C ∧
      (busRead 0xFFFF s).1 = 0x5C := by decide

-- by R90, R91: bits come out lowest first, then 0
theorem test_controller_bits :
    (List.range 10).map (fun n => nthRead 0x4016 n (busWrite 0x4016 0x00 (plain.assignButtons false 0xA5))) =
      [1, 0, 1, 0, 0, 1, 0, 1, 0, 0] := by decide

-- by R379 (a)
theorem test_status_read_clears_vertical_blank :
    let s := plain.setPpu (plain.ppu.setVerticalBlank true)
    (busRead 0x2002 s).1 = 0x80 ∧ (busRead 0x2002 (busRead 0x2002 s).2).1 = 0x00 := by decide

-- by R379 (b)
theorem test_palette_alias :
    let s := busWrite 0x2007 0x2A (busWrite 0x2006 0x10 (busWrite 0x2006 0x3F plain))
    s.ppu.pal = [(0x00, 0x2A)] ∧ s.inspectPpu 0x3F00 = 0x2A := by decide

-- by R366: the first read below 0x3F00 gives the old buffer
theorem test_data_port_one_behind :
    let s := plain.setPpu { plain.ppu with v := 0x2000, nt := [(0x000, 0x5A)] }
    (busRead 0x2007 s).1 = 0x00 ∧ (busRead 0x2007 (busRead 0x2007 s).2).1 = 0x5A := by decide

-- by R374: logical tables 0 and 1 are one in horizontal mirroring, 0 and 2 in vertical
theorem test_nametable_mirroring :
    ntIndex .horizontal 0x2405 = 0x005 ∧ ntIndex .horizontal 0x2805 = 0x405 ∧
      ntIndex .vertical 0x2405 = 0x405 ∧ ntIndex .vertical 0x2805 = 0x005 := by decide

-- by R10, R141: a run that gives opcode 0x02 the mode ZPX, 9 cycles and no penalty
theorem test_undoc_parameters :
    after { plain with cart := { plain.cart with undoc := [⟨0x02, .zpx, 9, false⟩] } } [0x02, 0x10]
      (is 0x8002 0x11 0x22 0x33 0xFD 0x24 9 []) = true := by decide

/-! ## The picture unit's clock -/

-- by R414: row 29 wraps into the other nametable, row 31 does not
theorem test_vertical_increment_wraps :
    ({ unit 0 256 0x00 0x08 with v := 0x73A0 } : Ppu).incrementScrollY.v = 0x0800 ∧
      ({ unit 0 256 0x00 0x08 with v := 0x73E0 } : Ppu).incrementScrollY.v = 0x0000 := by decide

-- by R411: tile (4, 2) of nametable 0: attribute byte 0x23C1, low 2 bits of its lower left quadrant
theorem test_attribute_fetch :
    let p := { unit 0 3 0x00 0x08 with v := 0x0044, nt := [(0x3C1, 0x20)] }
    (p.clock Cartridge.blank).bg.nextAttr = 2 := by decide

-- by R412, R415: dot 257 reloads the low halves and copies the horizontal bits
theorem test_dot_257 :
    let p := { unit (-1) 257 0x00 0x08 with t := 0x7FFF, bg := { Background.zero with nextLsb := 0x5A, patLo := 0x0180 } }
    (p.clock Cartridge.blank).v = 0x041F ∧ (p.clock Cartridge.blank).bg.patLo = 0x035A := by decide

-- by R416: only on scanline -1
theorem test_vertical_copy_dots :
    ({ unit (-1) 304 0x00 0x10 with t := 0x7FFF } : Ppu).clock Cartridge.blank =
        { unit (-1) 305 0x00 0x10 with t := 0x7FFF, v := 0x7BE0 } ∧
      ({ unit 0 304 0x00 0x10 with t := 0x7FFF } : Ppu).clock Cartridge.blank =
        { unit 0 305 0x00 0x10 with t := 0x7FFF } := by decide

-- by R83, R371, R372: the character byte answers, not what was written
theorem test_pattern_write_is_not_read_back :
    let c := { Cartridge.blank with chr := [(0x1FFF, 0x5A)] }
    ((unit 0 0 0x00 0x00).write c 0x1FFF 0x77).read c 0x1FFF = 0x5A ∧
      ((unit 0 0 0x00 0x00).write { c with present := false } 0x1FFF 0x77).read { c with present := false } 0x1FFF = 0x77 := by
  decide

-- by R426: 8x16, id 0x21, row 3, flipped vertically: bottom tile 0x21 of table 1, row 4
theorem test_tall_flipped_sprite_row :
    (unit 13 340 0x20 0x18).spriteRowAddr 13 { SpriteSlot.blank with y := 10, id := 0x21, attr := 0x80 } = 0x1214 := by
  decide

-- by R424: the record at y = 10 is on scanlines 10 to 17
theorem test_sprite_range :
    let oam : Memory 8 := [(0, 10), (4, 3), (8, 11)]
    ((scanOam oam 10 8 3 0 8).1.map (·.y), (scanOam oam 18 8 3 0 8).1.map (·.y)) = ([10, 3], [11]) := by decide

-- by R432: a sprite pixel behind an opaque background
theorem test_background_in_front :
    combine { value := 1, palette := 2, front := false, first := false }
      { value := 3, palette := 5, front := false, first := true } =
      { value := 1, palette := 2, front := false, first := false } := by decide

-- by R442
theorem test_frame_end :
    (unit 260 340 0x00 0x00).advance = { unit (-1) 0 0x00 0x00 with frameComplete := true } := by decide

-- by R441, R470, R505: the NMI is delivered in the tick of dot (241, 1), here without an instruction
theorem test_nmi_delivery :
    afterTick { plain with tick := 1, ppu := unit 241 1 0x80 0x00 }
      (fun t => is 0x9000 0x11 0x22 0x33 0xFA 0x24 7 [(0x1FD, 0x80), (0x1FC, 0x00), (0x1FB, 0x24)] t &&
        !t.ppu.nmiLine && t.ppu.verticalBlank && t.tick == 2) = true := by decide

/-! ## DMA -/

-- by R461, R462: the alignment step, one read, one write
theorem test_dma_steps :
    let s := busWrite 0x4014 0x00 { plain with ram := [(0x000, 0x5A)] }
    let t := dmaStep ((dmaStep ((dmaStep (s.setTick 3)).setTick 6)).setTick 9)
    t.ppu.oam = [(0, 0x5A)] ∧ t.dma = { page := 0x00, addr := 0x01, data := 0x5A, active := true, dummy := false } := by
  decide

-- by R462: the last write ends the transfer
theorem test_dma_end :
    let s := { plain with tick := 9, dma := { page := 0x00, addr := 0xFF, data := 0x5A, active := true, dummy := false } }
    (dmaStep s).ppu.oam = [(255, 0x5A)] ∧
      (dmaStep s).dma = { page := 0x00, addr := 0x00, data := 0x5A, active := false, dummy := true } := by decide

/-! ## The host's entry -/

theorem test_withFetchWord_runs_first :
    afterTick (State.reset.withFetchWord 16 0x42A9) (fun t => t.a == 0x42 && t.pc == 0x0002 && t.cycles == 9) = true := by
  decide

theorem test_withFetchWord_during_transfer :
    afterTick (State.withFetchWord { plain with tick := 5, dma := { Dma.idle with active := true } } 8 0xE8)
      (fun t => t.x == 0x23 && t.pc == 0x8001) = true := by decide

/-! ## Witnesses: states and operands that meet the hypotheses of the statements -/

/-- For the statements whose only hypotheses on the state are soundness and a cartridge (StepKeepsSound,
ResetForgetsEverythingButMemories, BrkEntersHandler, RtiUndoesInterruptEntry, StoresWriteOneByte, IncAndDecReplaceTheByte,
ShiftsAndRotatesMoveOneBit, JsrPushesReturnAddress, RtsUndoesJsr, PushesStoreOneByte, StackWrapsInItsPage). -/
theorem witness_sound_state_with_cartridge : plain.Sound = true ∧ plain.cart.present = true := by decide

theorem witness_DecodeUndoesEncode : (Instr.xxx 0xBF (.aby 0xFFFF)).wellFormed [] = true ∧
    (Instr.xxx 0x02 (.ind 0xFFFF)).wellFormed [⟨0x02, .ind, 9, true⟩] = true := by decide

theorem witness_EncodeUndoesDecode : decode [] [0xEB, 0x55, 0x01] = .ok (.xxx 0xEB .imm, [0x01]) := rfl

theorem witness_EncodeUndoesDecode_kept :
    decode [] [0xAD, 0x34, 0x12] = .ok (.lda (.abs 0x1234), []) ∧ ∀ op, Instr.lda (.abs 0x1234) ≠ .xxx op .imm :=
  ⟨rfl, fun _ h => nomatch h⟩

theorem witness_EveryOpcodeByteExecutes : unassigned 0x02 = true ∧ unassigned 0xFF = true := by decide

/-- The bytes of LDA #0x42 in RAM at `PC`, at the last address of RAM's third mirror and beyond a wrap of the index. -/
def coded : State := { plain with pc := 0x17FF, ram := [(0x000, 0x42), (0x7FF, 0xA9)] }

theorem witness_StepRunsDecodedInstruction :
    coded.tick % 3 = 0 ∧ coded.dma.active = false ∧ CodeAt coded coded.pc [0xA9, 0x42] ∧
      decode coded.cart.undoc [0xA9, 0x42] = .ok (.lda (.imm 0x42), []) :=
  ⟨rfl, rfl, ⟨rfl, rfl, trivial⟩, rfl⟩

theorem witness_TickRunsDotThenSlotThenNmi :
    (plain.setTick 2).tick % 3 ≠ 0 ∧ plain.tick % 3 = 0 ∧ plain.dma.active = false ∧
      ((plain.setDma { Dma.idle with active := true }).tick % 3 = 0 ∧
        (plain.setDma { Dma.idle with active := true }).dma.active = true) ∧
      plain.ppu.nmiLine = false ∧ (plain.setPpu plain.ppu.raiseNmi).ppu.nmiLine = true := by decide

theorem witness_LaunchStateAfterReset :
    plain.cart.present = true ∧ plain.cart.sound = true ∧ Memory.wf 0x800 ([(0x7FF, 1)] : Memory 8) = true ∧
      Memory.wf 0x2000 ([(0x1FFF, 1)] : Memory 8) = true ∧ Memory.wf 0x20 ([(0x1F, 1)] : Memory 8) = true ∧
      Memory.wf 0x100 ([(0xFF, 1)] : Memory 8) = true ∧ Memory.wf (240 * 256) ([(61439, 1)] : Memory 6) = true := by
  decide

theorem witness_NmiArrivesAtVerticalBlank :
    let s := plain.setPpu (unit 241 1 0x80 0x00)
    s.Sound = true ∧ s.cart.present = true ∧ s.ppu.scanline = 241 ∧ s.ppu.cycle = 1 ∧ s.ppu.enableNmi = true := by
  decide

theorem witness_NmiArrivesAtVerticalBlank_disabled :
    let s := plain.setPpu (unit 241 1 0x7F 0x00)
    s.Sound = true ∧ s.cart.present = true ∧
      ¬(s.ppu.scanline = 241 ∧ s.ppu.cycle = 1 ∧ s.ppu.enableNmi = true) := by decide

theorem witness_InterruptEntrySavesAndVectors :
    let s := { plain with sp := 0x01 }
    (nmiVector = 0xFFFA ∧ irqVector = 0xFFFE) ∧ s.Sound = true ∧ s.cart.present = true := by decide

theorem witness_IrqIsMaskedAndNmiIsNot : flag .i plain.p = true ∧ flag .i (plain.setP 0x20).p = false := by decide

theorem witness_BranchesFollowTheirFlag :
    (flag .c 0xFF = true ∧ flag .z 0xFF = true ∧ flag .n 0xFF = true ∧ flag .v 0xFF = true) ∧
      flag .c 0x00 = false ∧ flag .z 0x00 = false ∧ flag .n 0x00 = false ∧ flag .v 0x00 = false := by decide

theorem witness_NopAndPlaceholderDoNothing :
    (undocRow [] 0x1C).penalty = true ∧ (resolve (.abx 0x02FF) plain).crossed = true ∧
      (resolve (.abx 0x0200) plain).crossed = false ∧ (undocRow [] 0x1F).penalty = false := by decide

theorem witness_NopAndPlaceholderDoNothing_no_device : ∀ ptr, UndocOperand.abx 0x02FF ≠ .ind ptr := fun _ h => nomatch h

theorem witness_stored_address_in_and_above_ram :
    (resolve (.abs 0x1FFF) plain).location = .memory 0x1FFF ∧
      (resolve (.abs 0x2000) plain).location = .memory 0x2000 := by decide

/-- Two addresses that are one byte of RAM, and two that are not. -/
theorem witness_SameMemoryOutside : SameCell 0x1801 0x0001 ∧ ¬SameCell 0x0801 0x0000 ∧ ¬SameCell 0x2000 0x0000 := by
  unfold SameCell
  decide

/-- The first and last address of each range of `BusReadDecodes` and `BusWriteDecodes`. -/
theorem witness_BusReadDecodes :
    ((0x0000 : Word).toNat < 0x2000 ∧ (0x1FFF : Word).toNat < 0x2000) ∧
      (0x2000 ≤ (0x2000 : Word).toNat ∧ (0x3FFF : Word).toNat < 0x4000) ∧
      ((0x4016 : Word).toNat = 0x4016 ∧ (0x4017 : Word).toNat = 0x4017) ∧
      (0x4000 ≤ (0x4000 : Word).toNat ∧ (0x4015 : Word).toNat < 0x4016) ∧
      (0x4018 ≤ (0x4018 : Word).toNat ∧ (0x7FFF : Word).toNat < 0x8000) ∧
      (0x8000 ≤ (0x8000 : Word).toNat ∧ plain.cart.present = true) ∧
      (0x8000 ≤ (0xFFFF : Word).toNat ∧ { Cartridge.blank with present := false }.present = false) := by decide

theorem witness_BusWriteDecodes :
    ((0x4000 : Word).toNat < 0x4014 ∧ (0x4013 : Word).toNat < 0x4014) ∧ (0x4014 : Word).toNat = 0x4014 ∧
      (0x4015 : Word).toNat = 0x4015 ∧ 0x4018 ≤ (0x4018 : Word).toNat ∧ 0x4018 ≤ (0xFFFF : Word).toNat := by decide

theorem witness_RamIsMirrored :
    plain.Sound = true ∧ (0x1FFF : Word).toNat < 0x2000 ∧ (0x07FF : Word).toNat < 0x2000 ∧
      (0x1FFF : Word).toNat % 0x800 = (0x07FF : Word).toNat % 0x800 := by decide

/-- The first and last address of each clause. -/
theorem witness_ReadsChangeOnlyTheirDevice :
    (0x2000 ≤ (0x2002 : Word).toNat ∧ (0x3FFA : Word).toNat < 0x4000 ∧ (0x2002 : Word).toNat % 8 = 2 ∧
      (0x3FFA : Word).toNat % 8 = 2) ∧
    (0x2000 ≤ (0x2007 : Word).toNat ∧ (0x3FFF : Word).toNat < 0x4000 ∧ (0x2007 : Word).toNat % 8 = 7 ∧
      (0x3FFF : Word).toNat % 8 = 7) ∧
    ((0x4016 : Word).toNat = 0x4016 ∧ (0x4017 : Word).toNat = 0x4017) ∧
    (0x4000 ≤ (0x4000 : Word).toNat ∧ (0x4015 : Word).toNat < 0x4016 ∧ 0x4018 ≤ (0x4018 : Word).toNat ∧
      (0x7FFF : Word).toNat < 0x8000 ∧ 0x8000 ≤ (0x8000 : Word).toNat ∧ plain.cart.present = true ∧
      { Cartridge.blank with present := false }.present = false) ∧
    ((0x1FFF : Word).toNat < 0x2000 ∧ (0x3FFE : Word).toNat < 0x4000 ∧ (0x3FFE : Word).toNat % 8 ≠ 2 ∧
      (0x3FFE : Word).toNat % 8 ≠ 7) := by decide

theorem witness_ControllerShiftsLatchedButtons :
    let s := plain.assignButtons true 0x80
    7 < 8 ∧ (s.readButtons true).getLsbD 7 = true ∧ (s.readButtons true).getLsbD 6 = false := by decide

theorem witness_ScrollAndAddressWrites :
    (unit 0 0 0x00 0x00).w = false ∧ { unit 0 0 0x00 0x00 with w := true }.w = true := by decide

theorem witness_DataPortIsOneReadBehind :
    (Scroll.address 0x7EFF).toNat < 0x3F00 ∧ 0x3F00 ≤ (Scroll.address 0x7F00).toNat := by decide

theorem witness_PaletteAliasesAreOneCell :
    (unit 0 0 0x00 0x01).sound = true ∧ 0x3F00 ≤ (0x3F00 : PpuAddr).toNat ∧ 0x3F00 ≤ (0x3FF0 : PpuAddr).toNat ∧
      (0x3F00 : PpuAddr).toNat % 16 = (0x3FF0 : PpuAddr).toNat % 16 := by decide

theorem witness_PatternAndNametableMemory :
    (unit 0 0 0x00 0x00).sound = true ∧ 0x2000 ≤ (0x2000 : PpuAddr).toNat ∧ (0x3EFF : PpuAddr).toNat < 0x3F00 ∧
      physicalTable .vertical 0x2EFF = physicalTable .vertical 0x3EFF ∧ (0x1FFF : PpuAddr).toNat < 0x2000 ∧
      0x3F00 ≤ (0x3F00 : PpuAddr).toNat ∧ plain.cart.present = true ∧
      { Cartridge.blank with present := false }.present = false := by decide

theorem witness_FrameIs89342Dots :
    (unit 260 340 0x00 0x00).sound = true ∧ dotIndex (unit 260 340 0x00 0x00) = 89341 ∧
      (unit (-1) 0 0x00 0x00).sound = true ∧ dotIndex (unit (-1) 0 0x00 0x00) = 0 := by decide

theorem witness_StatusFlagChanges :
    ((unit 241 1 0x80 0x00).scanline = 241 ∧ (unit 241 1 0x80 0x00).cycle = 1) ∧
      ((unit (-1) 1 0x00 0x00).scanline = -1 ∧ (unit (-1) 1 0x00 0x00).cycle = 1) ∧
      ¬((unit 241 2 0x00 0x00).scanline = 241 ∧ (unit 241 2 0x00 0x00).cycle = 1) ∧
      (EvaluationDot (unit 0 257 0x00 0x00) ∧ EvaluationDot (unit 239 257 0x00 0x00) ∧
        ¬EvaluationDot (unit (-1) 257 0x00 0x00)) ∧
      8 < (inRangeRecords (unit 7 257 0x00 0x00) 7).length ∧ ¬8 < (inRangeRecords (unit 8 257 0x00 0x00) 8).length ∧
      ((unit 0 5 0x00 0x00).setSpriteZeroHit true).spriteZeroHit = true ∧ ¬VisibleDot (unit 0 257 0x00 0x00) := by
  decide

theorem witness_rendering : (unit 0 0 0x00 0xE7).rendering = false ∧ (unit 0 0 0x00 0x10).rendering = true := by decide

/-- The first and last dot of each range of the pipelines. -/
theorem witness_BackgroundPipelineByDot :
    PipelineDot (unit (-1) 2 0x00 0x08) ∧ PipelineDot (unit 239 257 0x00 0x08) ∧ PipelineDot (unit 0 321 0x00 0x08) ∧
      PipelineDot (unit 0 337 0x00 0x08) ∧ ¬PipelineDot (unit 0 1 0x00 0x08) ∧ ¬PipelineDot (unit 0 258 0x00 0x08) ∧
      ¬PipelineDot (unit 0 338 0x00 0x08) ∧ ¬PipelineDot (unit 240 8 0x00 0x08) := by decide

theorem witness_SpritePipelineByDot :
    inRangeRecords (unit 5 257 0x00 0x18) 5 = List.range 64 ∧ EvaluationDot (unit 0 257 0x00 0x18) ∧
      SpriteFetchDot (unit 239 340 0x00 0x18) ∧ ¬SpriteFetchDot (unit (-1) 340 0x00 0x18) ∧
      (SpriteShiftDot (unit 0 2 0x00 0x10) ∧ SpriteShiftDot (unit (-1) 257 0x00 0x10) ∧
        ¬EvaluationDot (unit (-1) 257 0x00 0x10) ∧ ¬SpriteShiftDot (unit 0 2 0x00 0x08)) := by decide

theorem witness_SpritePipelineByDot_rows :
    HasPatternRow (unit 7 340 0x00 0x18) { SpriteSlot.blank with y := 0 } ∧
      HasPatternRow (unit 15 340 0x20 0x18) { SpriteSlot.blank with y := 0 } ∧
      HasPatternRow (unit 0 340 0x00 0x18) { SpriteSlot.blank with y := 0 } := by
  unfold HasPatternRow
  decide

theorem witness_PixelPriorityAndZeroHit :
    (unit 239 256 0x00 0x18).sound = true ∧ VisibleDot (unit 239 256 0x00 0x18) ∧ VisibleDot (unit 0 1 0x00 0x18) ∧
      ¬VisibleDot (unit 239 257 0x00 0x18) ∧ ¬VisibleDot (unit (-1) 5 0x00 0x18) := by decide

/-- A unit whose dot (0, 9) shows an opaque pixel of both layers, the sprite's that of sprite 0. -/
def overlapping : Ppu :=
  { unit 0 9 0x00 0x18 with
    bg := { Background.zero with patLo := 0x4000, attHi := 0x4000 }
    sprites :=
      { Sprites.empty with
        slots := { SpriteSlot.blank with attr := 0x21, x := 0, patHi := 0x40 } :: List.replicate 7 SpriteSlot.blank
        count := 1, zeroPossible := true }
    pal := [(0x09, 0x2A), (0x16, 0x15)] }

-- by R430 to R432, R436 to R438: background value 1 of palette 2 before a sprite behind it, and a hit
theorem test_zero_hit_behind_background :
    let q := overlapping.clock Cartridge.blank
    shownSprite q 9 = some 0 ∧ backgroundDot q 9 = (1, 2) ∧ q.spriteZeroHit = true ∧ q.fb = [(8, 0x2A)] := by decide

/-- A transfer from page 3 about to take its first slot, at an even and at an odd tick. -/
def starting (tick : Nat) : State :=
  { plain with tick, dma := { page := 0x03, addr := 0, data := 0, active := true, dummy := true } }

theorem witness_TransferTakes513Or514Slots :
    TransferStarting 0x03 (starting 6) ∧ transferSlots 6 = 514 ∧ TransferStarting 0x03 (starting 3) ∧
      transferSlots 3 = 513 :=
  ⟨⟨rfl, rfl, rfl, rfl, rfl⟩, rfl, ⟨rfl, rfl, rfl, rfl, rfl⟩, rfl⟩

theorem witness_TransferCopiesThePage :
    (starting 3).Sound = true ∧ ((0x03 : Byte).toNat < 0x20 → (0x03 : Byte).toNat % 8 ≠ 1) ∧
      (starting 3).memByte (wordOf 0x03 0xFF) = some 0x00 := by decide

end Sys2Proof.Tests
end

