-- ==== Sys2Proof/Proofs/BusWrite.lean ====
section
/-! What a bus write does at every address (R73): first the device each address selects, then the write's one effect on
that device. -/

namespace Sys2Proof.Machine

/-! ## Mirrored indices -/

/-- RAM repeats every 0x800 bytes (R76). -/
theorem ramIndex_eq_mod (a : Word) : ramIndex a = a.toNat % 0x800 := by
  show (a &&& 0x07FF).toNat = _
  rw [BitVec.toNat_and]
  exact Nat.and_two_pow_sub_one_eq_mod a.toNat 11

/-- The picture unit's ports repeat every 8 bytes (R77). -/
theorem setWidth_three_eq_mod (a : Word) : a.setWidth 3 = BitVec.ofNat 3 (a.toNat % 8) :=
  BitVec.eq_of_toNat_eq (by simp)

/-! ## The device a write selects above RAM -/

theorem writeDevice_port (c : Cartridge) {a : Word} (h : 0x2000 ≤ a) (h' : a ≤ 0x3FFF) :
    writeDevice c a = .port (a.setWidth 3) := by
  rw [writeDevice_low c (by bv_omega), if_neg (by bv_omega), if_pos h']

theorem writeDevice_dmaTrigger (c : Cartridge) : writeDevice c 0x4014 = .dmaTrigger := by
  rw [writeDevice_low c (by decide)]
  rfl

theorem writeDevice_pad0 (c : Cartridge) : writeDevice c 0x4016 = .pad false := by
  rw [writeDevice_low c (by decide)]
  rfl

theorem writeDevice_pad1 (c : Cartridge) : writeDevice c 0x4017 = .pad true := by
  rw [writeDevice_low c (by decide)]
  rfl

/-- Between the ports and the cartridge's window only the DMA trigger and the two controllers answer a write. -/
theorem writeDevice_unmapped (c : Cartridge) {a : Word} (h : 0x4000 ≤ a) (h' : a < 0x8000)
    (hd : a ≠ 0x4014) (h0 : a ≠ 0x4016) (h1 : a ≠ 0x4017) : writeDevice c a = .nothing := by
  rw [writeDevice_low c h', if_neg (by bv_omega), if_neg (by bv_omega), if_neg hd, if_neg (not_or.mpr ⟨h0, h1⟩)]

/-! ## The effect of a write on each device -/

section Effect
variable {a : Word} (v : Byte) (s : State)

theorem busWrite_of_port (h : 0x2000 ≤ a) (h' : a ≤ 0x3FFF) :
    busWrite a v s = s.setPpu (s.ppu.portWrite s.cart (a.setWidth 3) v) := by
  unfold busWrite
  rw [writeDevice_port _ h h']

theorem busWrite_dmaTrigger : busWrite 0x4014 v s = s.setDma (s.dma.trigger v) := by
  unfold busWrite
  rw [writeDevice_dmaTrigger]

theorem busWrite_pad0 : busWrite 0x4016 v s = s.setPad0 s.pad0.latch := by
  unfold busWrite
  rw [writeDevice_pad0]
  rfl

theorem busWrite_pad1 : busWrite 0x4017 v s = s.setPad1 s.pad1.latch := by
  unfold busWrite
  rw [writeDevice_pad1]
  rfl

theorem busWrite_of_unmapped (h : 0x4000 ≤ a) (h' : a < 0x8000) (hd : a ≠ 0x4014) (h0 : a ≠ 0x4016)
    (h1 : a ≠ 0x4017) : busWrite a v s = s := by
  unfold busWrite
  rw [writeDevice_unmapped _ h h' hd h0 h1]

/-- A write to the cartridge's window changes nothing: ROM ignores it, and with no cartridge no device answers. -/
theorem busWrite_of_high (h : 0x8000 ≤ a) : busWrite a v s = s := by
  unfold busWrite
  rw [writeDevice_high _ h]
  cases s.cart.present <;> rfl

end Effect

/-! ## The obligation -/

/-- Settles O44: each clause is the effect of the one device its addresses select. -/
theorem busWriteDecodes : Obligations.BusWriteDecodes := by
  unfold Obligations.BusWriteDecodes
  intro a v s
  refine ⟨fun ram => ?_, fun lo hi => ?_, fun dma => ?_, fun pad0 => ?_, fun pad1 => ?_, fun other => ?_⟩
  · rw [busWrite_of_ram v s (by bv_omega), ramIndex_eq_mod]
    rfl
  · rw [busWrite_of_port v s (by bv_omega) (by bv_omega), setWidth_three_eq_mod]
    rfl
  · obtain rfl : a = 0x4014 := BitVec.eq_of_toNat_eq dma
    exact busWrite_dmaTrigger v s
  · obtain rfl : a = 0x4016 := BitVec.eq_of_toNat_eq pad0
    exact busWrite_pad0 v s
  · obtain rfl : a = 0x4017 := BitVec.eq_of_toNat_eq pad1
    exact busWrite_pad1 v s
  · by_cases rom : 0x8000 ≤ a
    · exact busWrite_of_high v s rom
    · exact busWrite_of_unmapped v s (by bv_omega) (by bv_omega) (by bv_omega) (by bv_omega) (by bv_omega)

end Sys2Proof.Machine
end

