-- ==== Sys2Proof/Proofs/Stack.lean ====
section
/-! The stack operations in plain memory (R34, R176, R177): what a write to one byte of RAM leaves as it was, the byte a
push stores, and the push and pull that undo each other. -/

namespace Sys2Proof.Machine

open Sys2Proof.Claims

/-! ## One byte of RAM -/

/-- Two RAM addresses that are not mirrors of one byte select different indices (R76). -/
theorem ramIndex_ne_of_not_sameCell {a b : Word} (ha : a ≤ 0x1FFF) (hb : b ≤ 0x1FFF) (h : ¬SameCell a b) :
    ramIndex b ≠ ramIndex a :=
  fun same => h (.inr ⟨ha, hb, (BitVec.eq_of_toNat_eq same).symm⟩)

theorem memByte_setRam_write_same {s : State} (hw : s.ram.wf 0x800 = true) {a : Word} (ha : a ≤ 0x1FFF) (v : Byte) :
    (s.setRam (s.ram.write (ramIndex a) v)).memByte a = some v := by
  rw [memByte_of_ram _ ha, State.setRam_ram, Memory.read_write_same hw]

/-- Writing one byte of RAM changes that byte and its mirrors only. -/
theorem sameMemoryOutside_setRam_write {s : State} (hw : s.ram.wf 0x800 = true) {b : Word} (hb : b ≤ 0x1FFF)
    (v : Byte) : SameMemoryOutside [b] s (s.setRam (s.ram.write (ramIndex b) v)) := by
  intro a outside
  by_cases ha : a ≤ 0x1FFF
  · have other := ramIndex_ne_of_not_sameCell ha hb (outside b (List.mem_singleton_self b))
    rw [memByte_of_ram _ ha, memByte_of_ram _ ha, State.setRam_ram, Memory.read_write_ne hw other]
  · exact memByte_setRam_high s _ (by bv_omega)

/-! ## The stack's arithmetic -/

theorem stackAddr_eq_ofNat (sp : Byte) : stackAddr sp = BitVec.ofNat 16 (0x0100 + sp.toNat) := by
  have slot : (stackAddr sp).toNat = 256 * 1 + sp.toNat := wordOf_toNat 0x01 sp
  bv_omega

/-- A push wraps `S` from 0x00 to 0xFF. -/
theorem push_sp_toNat (v : Byte) (s : State) : (push v s).sp.toNat = (s.sp.toNat + 255) % 256 := by
  rw [push_sp]
  bv_omega

/-- A pull reads the slot above `S`, wrapping from 0xFF to 0x00. -/
theorem pull_eq_toNat (s : State) : pull s = (s.ram.read (256 + (s.sp.toNat + 1) % 256), s.setSp (s.sp + 1)) := by
  rw [pull_eq, BitVec.toNat_add]
  rfl

/-! ## What a push stores, and what a pull gives back -/

section
variable {s : State} (v : Byte)

theorem push_memByte_slot (hw : s.ram.wf 0x800 = true) : (push v s).memByte (stackAddr s.sp) = some v := by
  rw [push_eq, ← ramIndex_stackAddr]
  exact memByte_setRam_write_same hw (stackAddr_le s.sp) v

theorem push_sameMemoryOutside (hw : s.ram.wf 0x800 = true) :
    SameMemoryOutside [stackAddr s.sp] s (push v s) := by
  rw [push_eq, ← ramIndex_stackAddr]
  exact sameMemoryOutside_setRam_write hw (stackAddr_le s.sp) v

theorem push_sameDevices : SameDevices s (push v s) :=
  ⟨push_dma v s, push_pad0 v s, push_pad1 v s, push_ppu v s, push_openReads v s⟩

theorem pull_push_sp : (pull (push v s)).2.sp = s.sp := by simp

theorem pull_push_value (hw : s.ram.wf 0x800 = true) : (pull (push v s)).1 = v := by
  have back : (push v s).sp + 1 = s.sp := by simp
  rw [pull_fst, back, push_ram, Memory.read_write_same hw]

end

/-! ## The obligation -/

/-- Settles O42: a push is one RAM write at its slot, a pull one RAM read at the slot above. -/
theorem stackWrapsInItsPage : Obligations.StackWrapsInItsPage := by
  unfold Obligations.StackWrapsInItsPage
  intro v s sound
  have hw : s.ram.wf 0x800 = true := ((s.sound_iff_mid).mp sound).1.ram
  rw [← stackAddr_eq_ofNat]
  exact ⟨push v s, rfl, push_memByte_slot v hw, push_sp_toNat v s, push_sameMemoryOutside v hw,
    ⟨push_a v s, push_x v s, push_y v s⟩, push_pc v s, push_p v s, push_cycles v s, push_sameDevices v,
    ⟨push_cart v s, push_tick v s⟩, pull_eq_toNat s, pull_push_value v hw, pull_push_sp v⟩

end Sys2Proof.Machine
end

