-- ==== Sys2Proof/Proofs/LoadStore.lean ====
section
/-! Loads, stores and transfers: what an update of the CPU's data registers leaves alone, the flags of `SetZN`, and what
the two shared shapes of the instructions, the operand read and the one-byte store, leave (R174, R180, R194, R561). -/

namespace Sys2Proof.Machine

open Sys2Proof.Claims

/-! ## Updates of the data registers and the status -/

/-- Only `A`, `X`, `Y` and `P` may differ: all that an instruction does with a byte it has read. -/
structure SameOutsideAXYP (s t : State) : Prop where
  sp : t.sp = s.sp
  pc : t.pc = s.pc
  cycles : t.cycles = s.cycles
  ram : t.ram = s.ram
  dma : t.dma = s.dma
  pad0 : t.pad0 = s.pad0
  pad1 : t.pad1 = s.pad1
  ppu : t.ppu = s.ppu
  cart : t.cart = s.cart
  tick : t.tick = s.tick
  openReads : t.openReads = s.openReads

section
variable (s : State) (v : Byte)

theorem loadA_sameOutsideAXYP : SameOutsideAXYP s (s.loadA v) :=
  ⟨rfl, rfl, rfl, rfl, rfl, rfl, rfl, rfl, rfl, rfl, rfl⟩

theorem loadX_sameOutsideAXYP : SameOutsideAXYP s (s.loadX v) :=
  ⟨rfl, rfl, rfl, rfl, rfl, rfl, rfl, rfl, rfl, rfl, rfl⟩

theorem loadY_sameOutsideAXYP : SameOutsideAXYP s (s.loadY v) :=
  ⟨rfl, rfl, rfl, rfl, rfl, rfl, rfl, rfl, rfl, rfl, rfl⟩

end

theorem sameMemory_of_ram_cart {s t : State} (ram : t.ram = s.ram) (cart : t.cart = s.cart) : SameMemory s t :=
  memByte_congr ram cart

theorem SameOutsideAXYP.registersOnly_charge {s t : State} (h : SameOutsideAXYP s t) (n : Nat) :
    RegistersOnly s (t.charge n) :=
  ⟨sameMemory_of_ram_cart h.ram h.cart, h.ram, ⟨h.dma, h.pad0, h.pad1, h.ppu, h.openReads⟩, h.cart, h.tick⟩

/-! ## The flags of `SetZN` (R180) -/

theorem beq_zero_eq_decide_toNat (r : Byte) : (r == 0) = decide (r.toNat = 0) := by
  rw [Bool.eq_iff_iff, beq_iff_eq, decide_eq_true_eq]
  exact BitVec.toNat_inj.symm

theorem getLsbD_seven_eq_decide_toNat (r : Byte) : r.getLsbD 7 = decide (0x80 ≤ r.toNat) :=
  BitVec.msb_eq_decide r

theorem zeroNegativeOf_of_setZN {t : State} {r p : Byte} (h : t.p = setZN r p) : ZeroNegativeOf r t := by
  unfold ZeroNegativeOf
  rw [h, flag_setZN, flag_setZN, ← beq_zero_eq_decide_toNat, ← getLsbD_seven_eq_decide_toNat]
  exact ⟨rfl, rfl⟩

theorem flagsKept_of_setZN {s t : State} {r : Byte} (h : t.p = setZN r s.p) : FlagsKept [.z, .n] s t := by
  intro f other
  obtain ⟨notZ, notN⟩ : f ≠ .z ∧ f ≠ .n := by simpa using other
  rw [h, flag_setZN, if_neg notN, if_neg notZ]

/-! ## Reading an operand -/

/-- The model charges R561's cost in every mode R561 gives a read instruction: only an indexed mode reports a page
crossing. -/
theorem readCycles_eq_readCost {o : Operand} {s : State} (h : readCost o (readOperand o s).crossed ≠ 0) :
    readCycles o (readOperand o s).crossed = readCost o (readOperand o s).crossed := by
  cases o with
  | imp | acc | rel _ | ind _ => exact absurd rfl h
  | _ => rfl

/-- An instruction that reads its operand and then changes only `A`, `X`, `Y` and `P`. -/
theorem readThen_afterRead {o : Operand} {f : Byte → State → State} {s : State}
    (kept : ∀ v u, SameOutsideAXYP u (f v u)) (cost : readCost o (readOperand o s).crossed ≠ 0) :
    AfterRead o s (readThen o f s) := by
  have after := kept (readOperand o s).value (readOperand o s).state
  have ram : (readThen o f s).ram = s.ram := after.ram.trans (readOperand_ram o s)
  have cart : (readThen o f s).cart = s.cart := after.cart.trans (readOperand_cart o s)
  have cycles : (readThen o f s).cycles = s.cycles + readCost o (readOperand o s).crossed := by
    rw [← readCycles_eq_readCost cost, ← readOperand_cycles o s, ← after.cycles]
    rfl
  exact ⟨after.sp.trans (readOperand_sp o s), after.pc.trans (readOperand_pc o s), sameMemory_of_ram_cart ram cart, ram,
    after.dma.trans (readOperand_dma o s), ⟨cart, after.tick.trans (readOperand_tick o s)⟩, after.ppu, after.pad0,
    after.pad1, after.openReads, cycles⟩

/-- Such an instruction with Z and N from `r`: what it leaves, flags included. -/
theorem readThen_of_setZN {o : Operand} {f : Byte → State → State} {s : State} {r : Byte}
    (kept : ∀ v u, SameOutsideAXYP u (f v u))
    (status : (f (readOperand o s).value (readOperand o s).state).p = setZN r (readOperand o s).state.p)
    (cost : readCost o (readOperand o s).crossed ≠ 0) :
    ZeroNegativeOf r (readThen o f s) ∧ FlagsKept [.z, .n] s (readThen o f s) ∧ AfterRead o s (readThen o f s) := by
  rw [readOperand_p] at status
  exact ⟨zeroNegativeOf_of_setZN status, flagsKept_of_setZN status, readThen_afterRead kept cost⟩

theorem readForm_readCost_ne_zero (o : ReadOperand) (crossed : Bool) : readCost o.operand crossed ≠ 0 := by
  cases o <;> simp [ReadOperand.operand, readCost]

theorem ldxForm_readCost_ne_zero (o : LdxOperand) (crossed : Bool) : readCost o.operand crossed ≠ 0 := by
  cases o <;> simp [LdxOperand.operand, readCost]

theorem ldyForm_readCost_ne_zero (o : LdyOperand) (crossed : Bool) : readCost o.operand crossed ≠ 0 := by
  cases o <;> simp [LdyOperand.operand, readCost]

/-! ## Storing a byte -/

theorem busWrite_sameMemory_of_high (v : Byte) (s : State) {ea : Word} (high : 0x1FFF < ea) :
    SameMemory s (busWrite ea v s) :=
  sameMemory_of_ram_cart (busWrite_ram_of_high v s high) (busWrite_cart ea v s)

theorem busWrite_memByte_same (v : Byte) {s : State} (hw : s.ram.wf 0x800 = true) {ea : Word} (low : ea ≤ 0x1FFF) :
    (busWrite ea v s).memByte ea = some v := by
  rw [busWrite_of_ram v s low]
  exact memByte_setRam_write_same hw low v

theorem busWrite_sameMemoryOutside (ea : Word) (v : Byte) {s : State} (hw : s.ram.wf 0x800 = true) :
    SameMemoryOutside [ea] s (busWrite ea v s) := by
  by_cases low : ea ≤ 0x1FFF
  · rw [busWrite_of_ram v s low]
    exact sameMemoryOutside_setRam_write hw low v
  · exact fun a _ => busWrite_sameMemory_of_high v s (BitVec.not_le.mp low) a

/-- One bus write of `v` to `ea`, whatever its cost. -/
theorem stored_busWrite_charge (ea : Word) (v : Byte) {s : State} (hw : s.ram.wf 0x800 = true) (n : Nat) :
    Stored ea v s ((busWrite ea v s).charge n) :=
  ⟨busWrite_memByte_same v hw, busWrite_sameMemoryOutside ea v hw, busWrite_sameMemory_of_high v s, rfl, rfl, rfl, rfl,
    busWrite_openReads ea v s, busWrite_cart ea v s, busWrite_tick ea v s⟩

theorem storeCycles_eq_storeCost {o : Operand} (h : storeCost o ≠ 0) : storeCycles o = storeCost o := by
  cases o with
  | imp | acc | imm _ | rel _ | ind _ => exact absurd rfl h
  | _ => rfl

/-- A mode with a store's cost computes an address, and no device sees how. -/
theorem resolve_of_storeCost_ne_zero {o : Operand} (h : storeCost o ≠ 0) (s : State) :
    (∃ ea, (resolve o s).location = .memory ea) ∧ (resolve o s).state = s := by
  refine ⟨?_, resolve_state o s fun ptr ind => h (ind ▸ rfl)⟩
  cases o with
  | imp | acc | imm _ | rel _ | ind _ => exact absurd rfl h
  | _ => exact ⟨_, rfl⟩

/-- In such a mode a store is one bus write at the address the mode computes, at R561's cost. -/
theorem storeValue_eq_busWrite {o : Operand} (h : storeCost o ≠ 0) (v : Byte) (s : State) :
    ∃ ea, (resolve o s).location = .memory ea ∧ storeValue o v s = (busWrite ea v s).charge (storeCost o) := by
  obtain ⟨⟨ea, location⟩, unchanged⟩ := resolve_of_storeCost_ne_zero h s
  refine ⟨ea, location, ?_⟩
  simp only [storeValue, location, unchanged, writeOperand, storeCycles_eq_storeCost h]

theorem storeValue_afterStore {o : Operand} (cost : storeCost o ≠ 0) (v : Byte) {s : State}
    (hw : s.ram.wf 0x800 = true) : AfterStore o v s (storeValue o v s) := by
  obtain ⟨ea, location, write⟩ := storeValue_eq_busWrite cost v s
  rw [write]
  exact ⟨⟨ea, location, stored_busWrite_charge ea v hw _⟩, busWrite_a ea v s, busWrite_x ea v s, busWrite_y ea v s,
    busWrite_sp ea v s, busWrite_pc ea v s, busWrite_p ea v s, congrArg (· + storeCost o) (busWrite_cycles ea v s)⟩

theorem staForm_storeCost_ne_zero (o : StaOperand) : storeCost o.operand ≠ 0 := by
  cases o <;> simp [StaOperand.operand, storeCost]

theorem stxForm_storeCost_ne_zero (o : StxOperand) : storeCost o.operand ≠ 0 := by
  cases o <;> simp [StxOperand.operand, storeCost]

theorem styForm_storeCost_ne_zero (o : StyOperand) : storeCost o.operand ≠ 0 := by
  cases o <;> simp [StyOperand.operand, storeCost]

/-! ## Loads (R191 to R193) -/

/-- Settles O20: the encodings by computation, each load by the rule of the operand read. -/
theorem loadsWriteTheirRegister : Obligations.LoadsWriteTheirRegister := by
  unfold Obligations.LoadsWriteTheirRegister
  refine ⟨fun b w => ?_, fun b w => ?_, fun b w => ?_, fun o s => ?_, fun o s => ?_, fun o s => ?_⟩
  · exact ⟨rfl, rfl, rfl, rfl, rfl, rfl, rfl, rfl⟩
  · exact ⟨rfl, rfl, rfl, rfl, rfl⟩
  · exact ⟨rfl, rfl, rfl, rfl, rfl⟩
  · exact ⟨_, rfl, rfl, readOperand_x _ s, readOperand_y _ s,
      readThen_of_setZN (fun v u => loadA_sameOutsideAXYP u v) rfl (readForm_readCost_ne_zero o _)⟩
  · exact ⟨_, rfl, rfl, readOperand_a _ s, readOperand_y _ s,
      readThen_of_setZN (fun v u => loadX_sameOutsideAXYP u v) rfl (ldxForm_readCost_ne_zero o _)⟩
  · exact ⟨_, rfl, rfl, readOperand_a _ s, readOperand_x _ s,
      readThen_of_setZN (fun v u => loadY_sameOutsideAXYP u v) rfl (ldyForm_readCost_ne_zero o _)⟩

/-! ## Stores (R194 to R196) -/

/-- Settles O21: the encodings by computation, each store by the rule of the one bus write. -/
theorem storesWriteOneByte : Obligations.StoresWriteOneByte := by
  unfold Obligations.StoresWriteOneByte
  refine ⟨fun b w => ?_, fun b w => ?_, fun b w => ?_, fun s sound => ?_⟩
  · exact ⟨rfl, rfl, rfl, rfl, rfl, rfl, rfl⟩
  · exact ⟨rfl, rfl, rfl⟩
  · exact ⟨rfl, rfl, rfl⟩
  · have hw : s.ram.wf 0x800 = true := ((s.sound_iff_mid).mp sound).1.ram
    exact ⟨fun o => ⟨_, rfl, storeValue_afterStore (staForm_storeCost_ne_zero o) s.a hw⟩,
      fun o => ⟨_, rfl, storeValue_afterStore (stxForm_storeCost_ne_zero o) s.x hw⟩,
      fun o => ⟨_, rfl, storeValue_afterStore (styForm_storeCost_ne_zero o) s.y hw⟩⟩

/-! ## Transfers (R197 to R202) -/

/-- A two-cycle instruction that changes `A`, `X`, `Y` and `P` only, with Z and N from `value`. -/
theorem writesRegister_of_next {i : Instr} {op : Byte} {g : State → State} {value a x y : State → Byte}
    (enc : encode i = [op]) (next : ∀ s, exec i s = .next ((g s).charge 2)) (kept : ∀ s, SameOutsideAXYP s (g s))
    (regs : ∀ s, (g s).a = a s ∧ (g s).x = x s ∧ (g s).y = y s) (status : ∀ s, (g s).p = setZN (value s) s.p) :
    WritesRegister i op value a x y := by
  refine ⟨enc, fun s => ?_⟩
  obtain ⟨ha, hx, hy⟩ := regs s
  exact ⟨_, next s, ha, hx, hy, zeroNegativeOf_of_setZN (status s), flagsKept_of_setZN (status s), (kept s).sp,
    (kept s).pc, congrArg (· + 2) (kept s).cycles, (kept s).registersOnly_charge 2⟩

section
variable {i : Instr} {op : Byte} {value : State → Byte}

theorem writesRegister_of_loadA (enc : encode i = [op]) (next : ∀ s, exec i s = .next ((s.loadA (value s)).charge 2)) :
    WritesRegister i op value value (·.x) (·.y) :=
  writesRegister_of_next enc next (fun s => loadA_sameOutsideAXYP s _) (fun _ => ⟨rfl, rfl, rfl⟩) fun _ => rfl

theorem writesRegister_of_loadX (enc : encode i = [op]) (next : ∀ s, exec i s = .next ((s.loadX (value s)).charge 2)) :
    WritesRegister i op value (·.a) value (·.y) :=
  writesRegister_of_next enc next (fun s => loadX_sameOutsideAXYP s _) (fun _ => ⟨rfl, rfl, rfl⟩) fun _ => rfl

theorem writesRegister_of_loadY (enc : encode i = [op]) (next : ∀ s, exec i s = .next ((s.loadY (value s)).charge 2)) :
    WritesRegister i op value (·.a) (·.x) value :=
  writesRegister_of_next enc next (fun s => loadY_sameOutsideAXYP s _) (fun _ => ⟨rfl, rfl, rfl⟩) fun _ => rfl

end

/-- TXS (R202) changes `S` and the cycle count, and no flag. -/
theorem exec_txs (s : State) : exec .txs s = .next ((s.setSp s.x).charge 2) := rfl

/-- Settles O22: five transfers load a register with Z and N from it, and TXS writes `S` alone. -/
theorem transfersCopyOneRegister : Obligations.TransfersCopyOneRegister := by
  unfold Obligations.TransfersCopyOneRegister
  refine ⟨?tax, ?tay, ?txa, ?tya, ?tsx, rfl, fun s => ?txs⟩
  case tax => exact writesRegister_of_loadX rfl fun _ => rfl
  case tay => exact writesRegister_of_loadY rfl fun _ => rfl
  case txa => exact writesRegister_of_loadA rfl fun _ => rfl
  case tya => exact writesRegister_of_loadA rfl fun _ => rfl
  case tsx => exact writesRegister_of_loadX rfl fun _ => rfl
  case txs =>
    have outside : RegistersOnly s ((s.setSp s.x).charge 2) :=
      ⟨sameMemory_of_ram_cart rfl rfl, rfl, ⟨rfl, rfl, rfl, rfl, rfl⟩, rfl, rfl⟩
    exact ⟨_, exec_txs s, rfl, rfl, ⟨rfl, rfl, rfl⟩, rfl, rfl, outside⟩

end Sys2Proof.Machine
end

