-- ==== Sys2Proof/Proofs/Arithmetic.lean ====
section
/-! Arithmetic, logic, comparisons, BIT, and increments and decrements (R222 to R237): first the numbers behind the ALU's
bit formulas, then what a read instruction of each shape leaves, then the one read and one write of `modify`. -/

namespace Sys2Proof.Machine

open Sys2Proof.Claims

/-! ## The numbers of an addition (R223) -/

theorem addWithCarry_result_toNat (a m p : Byte) :
    (addWithCarry a m p).result.toNat = (a.toNat + m.toNat + (flag .c p).toNat) % 256 :=
  BitVec.toNat_ofNat ..

theorem flag_c_toNat_le_one (p : Byte) : (flag .c p).toNat ≤ 1 := Bool.toNat_le _

/-- A byte as a signed number, by its sign bit. -/
theorem byte_toInt_eq_ite (b : Byte) : b.toInt = if 0x80 ≤ b.toNat then (b.toNat : Int) - 256 else b.toNat := by
  rw [BitVec.toInt_eq_toNat_cond]
  split <;> split <;> omega

/-- The overflow formula in sign bits: equal signs of the operands, another sign of the result (R223). -/
theorem addOverflow_eq_signs (a m p : Byte) : addOverflow a m p =
    (!(decide (0x80 ≤ a.toNat) ^^ decide (0x80 ≤ m.toNat)) &&
      (decide (0x80 ≤ a.toNat) ^^ decide (0x80 ≤ (addWithCarry a m p).result.toNat))) := by
  simp [addOverflow, ← getLsbD_seven_eq_decide_toNat]

/-- V says that the signed sum leaves a byte's range. -/
theorem addOverflow_eq_decide (a m p : Byte) : addOverflow a m p =
    decide (a.toInt + m.toInt + (flag .c p).toNat < -128 ∨ 127 < a.toInt + m.toInt + (flag .c p).toNat) := by
  have ha := a.isLt
  have hm := m.isLt
  have hc := flag_c_toNat_le_one p
  rw [addOverflow_eq_signs, addWithCarry_result_toNat, byte_toInt_eq_ite a, byte_toInt_eq_ite m, Bool.eq_iff_iff]
  by_cases sa : 0x80 ≤ a.toNat <;> by_cases sm : 0x80 ≤ m.toNat <;> simp [sa, sm] <;> omega

/-! ## The complemented operand of a subtraction (R224) -/

theorem complement_toNat (m : Byte) : (m ^^^ 0xFF).toNat = 255 - m.toNat := by
  rw [show (0xFF : Byte) = BitVec.allOnes 8 from rfl, BitVec.xor_allOnes, BitVec.toNat_not]

theorem complement_toInt (m : Byte) : (m ^^^ 0xFF).toInt = -1 - m.toInt := by
  have hm := m.isLt
  rw [byte_toInt_eq_ite, byte_toInt_eq_ite m, complement_toNat]
  split <;> split <;> omega

/-! ## Read instructions -/

theorem setP_sameOutsideAXYP (s : State) (p : Byte) : SameOutsideAXYP s (s.setP p) :=
  ⟨rfl, rfl, rfl, rfl, rfl, rfl, rfl, rfl, rfl, rfl, rfl⟩

theorem aluA_sameOutsideAXYP (s : State) (r : Alu) : SameOutsideAXYP s (s.aluA r) :=
  ⟨rfl, rfl, rfl, rfl, rfl, rfl, rfl, rfl, rfl, rfl, rfl⟩

theorem indexCompareForm_readCost_ne_zero (o : IndexCompareOperand) (crossed : Bool) :
    readCost o.operand crossed ≠ 0 := by
  cases o <;> simp [IndexCompareOperand.operand, readCost]

theorem bitForm_readCost_ne_zero (o : BitOperand) (crossed : Bool) : readCost o.operand crossed ≠ 0 := by
  cases o <;> simp [BitOperand.operand, readCost]

/-- ADC and SBC add a byte `g m` made from the operand: what such an instruction leaves. -/
theorem readThen_addWithCarry {o : Operand} (g : Byte → Byte) {s t : State} {m : Byte}
    (hm : m = g (readOperand o s).value)
    (ht : t = readThen o (fun m u => u.aluA (addWithCarry u.a (g m) u.p)) s)
    (cost : readCost o (readOperand o s).crossed ≠ 0) :
    t.a = (addWithCarry s.a m s.p).result ∧ flag .c t.p = addCarry s.a m s.p ∧ flag .v t.p = addOverflow s.a m s.p ∧
    ZeroNegativeOf t.a t ∧ FlagsKept [.c, .z, .v, .n] s t ∧ t.x = s.x ∧ t.y = s.y ∧ AfterRead o s t := by
  have sum : t.a = (addWithCarry s.a m s.p).result ∧ t.p = (addWithCarry s.a m s.p).status := by
    rw [ht, hm, ← readOperand_a o s, ← readOperand_p o s]
    exact ⟨rfl, rfl⟩
  obtain ⟨result, status⟩ := sum
  refine ⟨result, ?carry, ?overflow, ?zn, ?kept, ?x, ?y, ?after⟩
  case carry => rw [status, flag_addWithCarry]; rfl
  case overflow => rw [status, flag_addWithCarry]; rfl
  case zn => rw [result]; exact zeroNegativeOf_of_setZN status
  case kept =>
    intro f other
    obtain ⟨notC, notZ, notV, notN⟩ : f ≠ .c ∧ f ≠ .z ∧ f ≠ .v ∧ f ≠ .n := by simpa using other
    rw [status, flag_addWithCarry, if_neg notN, if_neg notZ, if_neg notV, if_neg notC]
  case x => rw [ht]; exact readOperand_x o s
  case y => rw [ht]; exact readOperand_y o s
  case after => rw [ht]; exact readThen_afterRead (fun _ u => aluA_sameOutsideAXYP u _) cost

/-- An accumulator instruction that loads `A` with `op` of `A` and the operand, where `op` acts on each bit alone. -/
theorem combines_of_loadA {mk : ReadOperand → Instr} {op : Byte → Byte → Byte} {f : Bool → Bool → Bool}
    (next : ∀ o s, exec (mk o) s = .next (readThen o.operand (fun m u => u.loadA (op u.a m)) s))
    (bits : ∀ (a m : Byte) (i : Nat), (op a m).getLsbD i = f (a.getLsbD i) (m.getLsbD i)) : Combines mk f := by
  intro o s
  obtain ⟨zn, kept, after⟩ := readThen_of_setZN (o := o.operand) (f := fun m u => u.loadA (op u.a m)) (s := s)
    (fun _ u => loadA_sameOutsideAXYP u _) rfl (readForm_readCost_ne_zero o _)
  refine ⟨_, next o s, fun i => ?_, zn, kept, readOperand_x _ s, readOperand_y _ s, after⟩
  rw [← readOperand_a o.operand s]
  exact bits _ _ i

/-- What an instruction leaves that only writes a status byte, computed from one register, the operand and `P`. -/
theorem readThen_setP {o : Operand} {reg : State → Byte} {flags : Byte → Byte → Byte → Byte} {s t : State}
    (ht : t = readThen o (fun m u => u.setP (flags (reg u) m u.p)) s) (same : reg (readOperand o s).state = reg s)
    (cost : readCost o (readOperand o s).crossed ≠ 0) :
    t.p = flags (reg s) (readOperand o s).value s.p ∧ SameAXY s t ∧ AfterRead o s t := by
  subst ht
  refine ⟨?_, ⟨readOperand_a o s, readOperand_x o s, readOperand_y o s⟩,
    readThen_afterRead (fun _ u => setP_sameOutsideAXYP u _) cost⟩
  rw [← same, ← readOperand_p o s]
  rfl

theorem comparesRegister_of_next {i : Instr} {o : Operand} {reg : State → Byte} {s : State}
    (next : exec i s = .next (readThen o (fun m u => u.setP (compareFlags (reg u) m u.p)) s))
    (same : reg (readOperand o s).state = reg s) (cost : readCost o (readOperand o s).crossed ≠ 0) :
    ComparesRegister i o (reg s) s := by
  obtain ⟨status, ⟨a, x, y⟩, after⟩ := readThen_setP rfl same cost
  refine ⟨_, next, ?carry, zeroNegativeOf_of_setZN status, ?kept, a, x, y, after⟩
  case carry => rw [status, flag_compareFlags]; rfl
  case kept =>
    intro f other
    obtain ⟨notC, notZ, notN⟩ : f ≠ .c ∧ f ≠ .z ∧ f ≠ .n := by simpa using other
    rw [status, flag_compareFlags, if_neg notN, if_neg notZ, if_neg notC]

/-- Z of BIT: the conjunction has no bit set. -/
theorem and_beq_zero_iff (a m : Byte) :
    (a &&& m == 0) = true ↔ ∀ i : Fin 8, ¬(a.getLsbD i = true ∧ m.getLsbD i = true) := by
  rw [beq_iff_eq]
  constructor
  · intro empty i ⟨ha, hm⟩
    have bit : (a &&& m).getLsbD i = true := by rw [BitVec.getLsbD_and, ha, hm]; rfl
    simp [empty] at bit
  · intro disjoint
    refine BitVec.eq_of_getLsbD_eq fun i hi => ?_
    simpa using disjoint ⟨i, hi⟩

/-! ## Read-modify-write instructions (R178, R561) -/

/-- No bus write looks at the status byte. -/
theorem busWrite_setP (ea : Word) (v p : Byte) (s : State) : busWrite ea v (s.setP p) = (busWrite ea v s).setP p := by
  unfold busWrite
  rw [State.setP_cart]
  cases writeDevice s.cart ea with
  | pad second => cases second <;> rfl
  | _ => rfl

theorem modifyCycles_eq_modifyCost {o : Operand} (h : modifyCost o ≠ 0) : modifyCycles o = modifyCost o := by
  cases o with
  | imp | imm _ | zpy _ | rel _ | aby _ | ind _ | izx _ | izy _ => exact absurd rfl h
  | _ => rfl

/-- A mode with a read-modify-write cost is the accumulator or computes an address. -/
theorem acc_or_memory_of_modifyCost_ne_zero {o : Operand} (h : modifyCost o ≠ 0) (s : State) :
    o = .acc ∨ ∃ ea, (readOperand o s).location = .memory ea := by
  cases o with
  | imp | imm _ | zpy _ | rel _ | aby _ | ind _ | izx _ | izy _ => exact absurd rfl h
  | acc => exact .inl rfl
  | _ => exact .inr ⟨_, rfl⟩

/-- One bus write of `v` and a new status byte, whatever the cost. -/
theorem stored_busWrite_setP_charge (ea : Word) (v p : Byte) {s : State} (hw : s.ram.wf 0x800 = true) (n : Nat) :
    Stored ea v s ((busWrite ea v (s.setP p)).charge n) := by
  rw [busWrite_setP]
  exact stored_busWrite_charge ea v hw n

/-- In an address's mode, a read-modify-write instruction is one bus write at the address that was read. -/
theorem modify_eq_busWrite {o : Operand} {f : Byte → Byte → Alu} {s : State} {ea : Word} {r : Alu}
    (location : (readOperand o s).location = .memory ea) (hr : r = f (readOperand o s).value s.p) :
    modify o f s = (busWrite ea r.result ((readOperand o s).state.setP r.status)).charge (modifyCycles o) := by
  simp only [modify, location, writeOperand, readOperand_p, hr]

theorem modify_p {o : Operand} (f : Byte → Byte → Alu) (s : State) (cost : modifyCost o ≠ 0) :
    (modify o f s).p = (f (readOperand o s).value s.p).status := by
  obtain rfl | ⟨ea, location⟩ := acc_or_memory_of_modifyCost_ne_zero cost s
  · rfl
  · rw [modify_eq_busWrite location rfl]
    exact busWrite_p ea _ _

theorem modify_afterModify {o : Operand} (f : Byte → Byte → Alu) {s : State} (hw : s.ram.wf 0x800 = true)
    (cost : modifyCost o ≠ 0) : AfterModify o (f (readOperand o s).value s.p).result s (modify o f s) := by
  obtain rfl | ⟨ea, location⟩ := acc_or_memory_of_modifyCost_ne_zero cost s
  · exact ⟨⟨rfl, sameMemory_of_ram_cart rfl rfl, rfl, ⟨rfl, rfl, rfl, rfl, rfl⟩, rfl, rfl⟩, rfl, rfl, rfl, rfl, rfl⟩
  · rw [modify_eq_busWrite location rfl, modifyCycles_eq_modifyCost cost]
    have hw' : (readOperand o s).state.ram.wf 0x800 = true := by rwa [readOperand_ram]
    unfold AfterModify WrittenBack
    rw [location]
    exact ⟨⟨by simp, stored_busWrite_setP_charge ea _ _ hw' _⟩, by simp⟩

theorem stepForm_modifyCost_ne_zero (o : StepOperand) : modifyCost o.operand ≠ 0 := by
  cases o <;> simp [StepOperand.operand, modifyCost]

/-- A memory instruction that writes back a byte `n` higher modulo 256, with Z and N from it. -/
theorem addsToByte_of_withZN {mk : StepOperand → Instr} {g : Byte → Byte} {n : Nat}
    (next : ∀ o s, exec (mk o) s = .next (modify o.operand (fun m p => withZN (g m) p) s))
    (sum : ∀ m : Byte, (g m).toNat = (m.toNat + n) % 256) : AddsToByte mk n := by
  intro o s sound
  have hw : s.ram.wf 0x800 = true := ((s.sound_iff_mid).mp sound).1.ram
  have cost := stepForm_modifyCost_ne_zero o
  have status := modify_p (fun m p => withZN (g m) p) s cost
  exact ⟨_, g (readOperand o.operand s).value, next o s, sum _, zeroNegativeOf_of_setZN status,
    flagsKept_of_setZN status, modify_afterModify _ hw cost⟩

/-! ## The obligations -/

/-- Settles O23: the addition's numbers, and the shared shape of the operand read. -/
theorem adcAddsWithCarry : Obligations.AdcAddsWithCarry := by
  unfold Obligations.AdcAddsWithCarry
  refine ⟨fun b w => ⟨rfl, rfl, rfl, rfl, rfl, rfl, rfl, rfl⟩, fun o s => ?_⟩
  obtain ⟨result, carry, overflow, rest⟩ := readThen_addWithCarry (s := s) id rfl rfl (readForm_readCost_ne_zero o _)
  exact ⟨_, _, _, rfl, rfl, rfl, result ▸ addWithCarry_result_toNat .., carry,
    overflow.trans (addOverflow_eq_decide ..), rest⟩

/-- SBC is the addition of the complemented operand (R224). -/
theorem exec_sbc (o : ReadOperand) (s : State) : exec (.sbc o) s =
    .next (readThen o.operand (fun m u => u.aluA (addWithCarry u.a (m ^^^ 0xFF) u.p)) s) := rfl

/-- Settles O24: ADC of the complement, whose value is 255 minus the operand's and whose signed value is minus 1 minus
the operand's. -/
theorem sbcSubtractsWithBorrow : Obligations.SbcSubtractsWithBorrow := by
  unfold Obligations.SbcSubtractsWithBorrow
  refine ⟨fun b w => ⟨rfl, rfl, rfl, rfl, rfl, rfl, rfl, rfl⟩, fun o s => ?_⟩
  obtain ⟨result, carry, overflow, rest⟩ :=
    readThen_addWithCarry (s := s) (· ^^^ 0xFF) rfl rfl (readForm_readCost_ne_zero o _)
  have hm := (readOperand o.operand s).value.isLt
  have hc := flag_c_toNat_le_one s.p
  refine ⟨_, _, _, rfl, rfl, exec_sbc o s, ?_, carry.trans ?_, overflow.trans ?_, rest⟩
  · rw [result, addWithCarry_result_toNat, complement_toNat]
    omega
  · rw [addCarry, complement_toNat, decide_eq_decide]
    omega
  · rw [addOverflow_eq_decide, complement_toInt, decide_eq_decide]
    omega

/-- Settles O25: each operator acts on every bit alone. -/
theorem logicWorksBitwise : Obligations.LogicWorksBitwise := by
  unfold Obligations.LogicWorksBitwise
  refine ⟨fun b w => ?_, fun b w => ?_, fun b w => ?_, ?and, ?ora, ?eor⟩
  · exact ⟨rfl, rfl, rfl, rfl, rfl, rfl, rfl, rfl⟩
  · exact ⟨rfl, rfl, rfl, rfl, rfl, rfl, rfl, rfl⟩
  · exact ⟨rfl, rfl, rfl, rfl, rfl, rfl, rfl, rfl⟩
  case and => exact combines_of_loadA (fun _ _ => rfl) fun _ _ _ => BitVec.getLsbD_and
  case ora => exact combines_of_loadA (fun _ _ => rfl) fun _ _ _ => BitVec.getLsbD_or
  case eor => exact combines_of_loadA (fun _ _ => rfl) fun _ _ _ => BitVec.getLsbD_xor

/-- Settles O26: the encodings by computation, each comparison by the rule of its shape. -/
theorem comparesWriteFlagsOnly : Obligations.ComparesWriteFlagsOnly := by
  unfold Obligations.ComparesWriteFlagsOnly
  refine ⟨fun b w => ?_, fun b w => ?_, fun b w => ?_, fun s => ⟨fun o => ?cmp, fun o => ?cpx, fun o => ?cpy⟩⟩
  · exact ⟨rfl, rfl, rfl, rfl, rfl, rfl, rfl, rfl⟩
  · exact ⟨rfl, rfl, rfl⟩
  · exact ⟨rfl, rfl, rfl⟩
  case cmp => exact comparesRegister_of_next (reg := (·.a)) rfl (readOperand_a _ s) (readForm_readCost_ne_zero o _)
  case cpx =>
    exact comparesRegister_of_next (reg := (·.x)) rfl (readOperand_x _ s) (indexCompareForm_readCost_ne_zero o _)
  case cpy =>
    exact comparesRegister_of_next (reg := (·.y)) rfl (readOperand_y _ s) (indexCompareForm_readCost_ne_zero o _)

/-- Settles O27: the flags BIT writes, read off its status byte. -/
theorem bitTestsOperand : Obligations.BitTestsOperand := by
  unfold Obligations.BitTestsOperand
  refine ⟨fun b w => ⟨rfl, rfl⟩, fun o s => ?_⟩
  obtain ⟨status, same, after⟩ := readThen_setP (reg := (·.a)) (flags := bitFlags) rfl (readOperand_a _ s)
    (bitForm_readCost_ne_zero o _)
  refine ⟨_, _, rfl, rfl, ?zero, ?negative, ?overflow, ?kept, same, after⟩
  case zero => rw [status, flag_bitFlags]; exact and_beq_zero_iff ..
  case negative => rw [status, flag_bitFlags]; rfl
  case overflow => rw [status, flag_bitFlags]; rfl
  case kept =>
    intro f other
    obtain ⟨notZ, notV, notN⟩ : f ≠ .z ∧ f ≠ .v ∧ f ≠ .n := by simpa using other
    rw [status, flag_bitFlags, if_neg notN, if_neg notV, if_neg notZ]

/-- Settles O28: DEC adds 255 modulo 256. -/
theorem incAndDecReplaceTheByte : Obligations.IncAndDecReplaceTheByte := by
  unfold Obligations.IncAndDecReplaceTheByte
  refine ⟨fun b w => ⟨rfl, rfl, rfl, rfl⟩, fun b w => ⟨rfl, rfl, rfl, rfl⟩, ?inc, ?dec⟩
  case inc => exact addsToByte_of_withZN (fun _ _ => rfl) fun m => BitVec.toNat_add m 1
  case dec => exact addsToByte_of_withZN (g := (· - 1)) (fun _ _ => rfl) fun m => by bv_omega

/-- Settles O29: each step loads its index register from itself plus or minus 1. -/
theorem indexStepsByOne : Obligations.IndexStepsByOne := by
  unfold Obligations.IndexStepsByOne
  refine ⟨?inx, ?iny, ?dex, ?dey⟩
  case inx => exact writesRegister_of_loadX rfl fun _ => rfl
  case iny => exact writesRegister_of_loadY rfl fun _ => rfl
  case dex => exact writesRegister_of_loadX rfl fun _ => rfl
  case dey => exact writesRegister_of_loadY rfl fun _ => rfl

end Sys2Proof.Machine
end

