-- ==== Sys2Proof/Proofs/Shifts.lean ====
section
/-! Shifts and rotates (R260 to R264): the bits shifted out and the results as numbers, then what `modify` leaves of such
an operation. -/

namespace Sys2Proof.Machine

open Sys2Proof.Claims

/-! ## The bits shifted out -/

theorem getLsbD_seven_toNat (m : Byte) : (m.getLsbD 7).toNat = m.toNat / 128 := by
  have bit : (m.getLsbD 7).toNat = m.toNat / 2 ^ 7 % 2 := Nat.toNat_testBit m.toNat 7
  have hm := m.isLt
  omega

theorem getLsbD_zero_toNat (m : Byte) : (m.getLsbD 0).toNat = m.toNat % 2 := by
  have bit : (m.getLsbD 0).toNat = m.toNat / 2 ^ 0 % 2 := Nat.toNat_testBit m.toNat 0
  omega

/-! ## The results -/

theorem shiftLeft_one_toNat (m : Byte) : (m <<< 1).toNat = (2 * m.toNat) % 256 := by
  rw [BitVec.toNat_shiftLeft, Nat.shiftLeft_eq, Nat.mul_comm]

theorem shiftRight_one_toNat (m : Byte) : (m >>> 1).toNat = m.toNat / 2 := by
  rw [BitVec.toNat_ushiftRight, Nat.shiftRight_eq_div_pow]

theorem aslOp_result_toNat (m p : Byte) : (aslOp m p).result.toNat = (2 * m.toNat) % 256 := shiftLeft_one_toNat m

theorem lsrOp_result_toNat (m p : Byte) : (lsrOp m p).result.toNat = m.toNat / 2 := shiftRight_one_toNat m

/-- The carry of a left rotation enters at bit 0, a bit the shift cleared: the disjunction is a sum. -/
theorem rolOp_result_toNat (m p : Byte) :
    (rolOp m p).result.toNat = (2 * m.toNat) % 256 + (flag .c p).toNat := by
  have carryIn : (if flag .c p then 0x01 else 0x00 : Byte).toNat = (flag .c p).toNat := by
    cases flag .c p <;> rfl
  have even : (2 * m.toNat) % 256 = 2 ^ 1 * (m.toNat % 128) := by omega
  have small : (flag .c p).toNat < 2 ^ 1 := Bool.toNat_lt _
  calc (rolOp m p).result.toNat
      = (2 * m.toNat) % 256 ||| (flag .c p).toNat := by
        rw [← shiftLeft_one_toNat, ← carryIn, ← BitVec.toNat_or]
        rfl
    _ = (2 * m.toNat) % 256 + (flag .c p).toNat := by rw [even, Nat.two_pow_add_eq_or_of_lt small]

/-- The carry of a right rotation enters at bit 7, a bit the shift cleared. The model takes it as a number
turned into a byte. -/
theorem rorOp_result_toNat (m p : Byte) :
    (rorOp m p).result.toNat = 128 * (flag .c p).toNat + m.toNat / 2 := by
  have carryIn : ((if flag .c p then 0x80 else 0x00 : Nat) : Byte).toNat = 2 ^ 7 * (flag .c p).toNat := by
    cases flag .c p <;> rfl
  have small : m.toNat / 2 < 2 ^ 7 := by have hm := m.isLt; omega
  calc (rorOp m p).result.toNat
      = 2 ^ 7 * (flag .c p).toNat ||| m.toNat / 2 := by
        rw [← shiftRight_one_toNat, ← carryIn, ← BitVec.toNat_or]
        rfl
    _ = 128 * (flag .c p).toNat + m.toNat / 2 := (Nat.two_pow_add_eq_or_of_lt small _).symm

/-! ## The instructions -/

theorem shiftForm_modifyCost_ne_zero (o : ShiftOperand) : modifyCost o.operand ≠ 0 := by
  cases o <;> simp [ShiftOperand.operand, modifyCost]

/-- An instruction that modifies its operand by `op`, a shift (R260) whose carry out is the bit `k` of the operand. -/
theorem shifts_of_shifted {mk : ShiftOperand → Instr} {op : Byte → Byte → Alu} {k : Byte → Bool}
    {rel : Nat → Nat → Nat → Nat → Prop} (next : ∀ o s, exec (mk o) s = .next (modify o.operand op s))
    (shift : ∀ m p, op m p = shifted (op m p).result (k m) p)
    (bits : ∀ m p, rel m.toNat (flag .c p).toNat (op m p).result.toNat (k m).toNat) : Shifts mk rel := by
  intro o s sound
  have hw : s.ram.wf 0x800 = true := ((s.sound_iff_mid).mp sound).1.ram
  have cost := shiftForm_modifyCost_ne_zero o
  have status := (modify_p op s cost).trans (congrArg Alu.status (shift _ _))
  refine ⟨_, _, next o s, ?rel, zeroNegativeOf_of_setZN status, ?kept, modify_afterModify op hw cost⟩
  case rel =>
    have carryOut : flag .c (modify o.operand op s).p = k (readOperand o.operand s).value := by
      rw [status, flag_shifted]
      rfl
    rw [carryOut]
    exact bits _ _
  case kept =>
    intro f other
    obtain ⟨notC, notZ, notN⟩ : f ≠ .c ∧ f ≠ .z ∧ f ≠ .n := by simpa using other
    rw [status, flag_shifted, if_neg notN, if_neg notZ, if_neg notC]

/-! ## The obligation -/

/-- Settles O30: the encodings by computation, each instruction by the numbers of its operation. -/
theorem shiftsAndRotatesMoveOneBit : Obligations.ShiftsAndRotatesMoveOneBit := by
  unfold Obligations.ShiftsAndRotatesMoveOneBit
  refine ⟨fun b w => ?_, fun b w => ?_, fun b w => ?_, fun b w => ?_, ?asl, ?lsr, ?rol, ?ror⟩
  · exact ⟨rfl, rfl, rfl, rfl, rfl⟩
  · exact ⟨rfl, rfl, rfl, rfl, rfl⟩
  · exact ⟨rfl, rfl, rfl, rfl, rfl⟩
  · exact ⟨rfl, rfl, rfl, rfl, rfl⟩
  case asl =>
    exact shifts_of_shifted (k := (·.getLsbD 7)) (fun _ _ => rfl) (fun _ _ => rfl) fun m p =>
      ⟨aslOp_result_toNat m p, getLsbD_seven_toNat m⟩
  case lsr =>
    exact shifts_of_shifted (k := (·.getLsbD 0)) (fun _ _ => rfl) (fun _ _ => rfl) fun m p =>
      ⟨lsrOp_result_toNat m p, getLsbD_zero_toNat m⟩
  case rol =>
    refine shifts_of_shifted (k := (·.getLsbD 7)) (fun _ _ => rfl) (fun _ _ => rfl) fun m p => ?_
    rw [rolOp_result_toNat, getLsbD_seven_toNat]
    omega
  case ror =>
    refine shifts_of_shifted (k := (·.getLsbD 0)) (fun _ _ => rfl) (fun _ _ => rfl) fun m p => ?_
    rw [rorOp_result_toNat, getLsbD_zero_toNat]
    omega

end Sys2Proof.Machine
end

