-- ==== Sys2Proof/Proofs/StackWords.lean ====
section
/-! Words on the stack (R176, R177): the slots of the stack page as distinct bytes of RAM, and what the two pushes of a
word store and leave. -/

namespace Sys2Proof.Machine

open Sys2Proof.Claims

/-! ## The slots of the stack page -/

/-- The slot's address as R290 and R505 write it. -/
theorem stackAddr_eq_or (sp : Byte) : stackAddr sp = 0x0100 ||| zext16 sp := by
  apply BitVec.eq_of_toNat_eq
  calc (stackAddr sp).toNat
      = 256 * 1 + sp.toNat := wordOf_toNat 0x01 sp
    _ = 256 * 1 ||| sp.toNat := Nat.two_pow_add_eq_or_of_lt sp.isLt 1
    _ = (0x0100 ||| zext16 sp).toNat := by rw [BitVec.toNat_or, zext16_toNat]; rfl

theorem ramIndex_eq_of_sameCell {a b : Word} (h : SameCell a b) : ramIndex a = ramIndex b := by
  obtain rfl | ⟨-, -, mirrored⟩ := h
  · rfl
  · exact congrArg BitVec.toNat mirrored

/-- Different stack pointers select different bytes of RAM. -/
theorem not_sameCell_stackAddr {sp sp' : Byte} (h : sp ≠ sp') : ¬SameCell (stackAddr sp) (stackAddr sp') := by
  intro same
  have index := ramIndex_eq_of_sameCell same
  rw [ramIndex_stackAddr, ramIndex_stackAddr] at index
  exact h (BitVec.eq_of_toNat_eq (Nat.add_left_cancel index))

theorem sameMemoryOutside_append {l l' : List Word} {s t u : State} (h : SameMemoryOutside l s t)
    (h' : SameMemoryOutside l' t u) : SameMemoryOutside (l ++ l') s u :=
  fun a outside => (h' a fun b hb => outside b (List.mem_append_right l hb)).trans
    (h a fun b hb => outside b (List.mem_append_left l' hb))

/-! ## Pushing a word -/

section
variable (w : Word) (s : State)

@[simp] theorem pushWord_a : (pushWord w s).a = s.a := by simp [pushWord]
@[simp] theorem pushWord_x : (pushWord w s).x = s.x := by simp [pushWord]
@[simp] theorem pushWord_y : (pushWord w s).y = s.y := by simp [pushWord]
@[simp] theorem pushWord_p : (pushWord w s).p = s.p := by simp [pushWord]
@[simp] theorem pushWord_cycles : (pushWord w s).cycles = s.cycles := by simp [pushWord]
@[simp] theorem pushWord_cart : (pushWord w s).cart = s.cart := by simp [pushWord]
@[simp] theorem pushWord_tick : (pushWord w s).tick = s.tick := by simp [pushWord]

@[simp] theorem pushWord_sp : (pushWord w s).sp = s.sp - 2 := by
  rw [pushWord, push_sp, push_sp]
  bv_omega

theorem pushWord_sameDevices : SameDevices s (pushWord w s) := by simp [pushWord, SameDevices]

end

section
variable {s : State} (w : Word)

/-- The low byte goes to the second slot. -/
theorem pushWord_memByte_low (mid : s.Mid) :
    (pushWord w s).memByte (stackAddr (s.sp - 1)) = some (loByte w) := by
  rw [← push_sp (hiByte w) s]
  exact push_memByte_slot _ (push_mid _ mid).ram

/-- The high byte goes to the first slot, which the second push leaves alone. -/
theorem pushWord_memByte_high (mid : s.Mid) : (pushWord w s).memByte (stackAddr s.sp) = some (hiByte w) := by
  have other : ¬SameCell (stackAddr s.sp) (stackAddr (push (hiByte w) s).sp) :=
    not_sameCell_stackAddr (by rw [push_sp]; bv_omega)
  have kept := push_sameMemoryOutside (loByte w) (push_mid (hiByte w) mid).ram (stackAddr s.sp)
    (List.forall_mem_singleton.mpr other)
  exact kept.trans (push_memByte_slot _ mid.ram)

theorem pushWord_sameMemoryOutside (mid : s.Mid) :
    SameMemoryOutside [stackAddr s.sp, stackAddr (s.sp - 1)] s (pushWord w s) := by
  rw [← push_sp (hiByte w) s]
  exact sameMemoryOutside_append (push_sameMemoryOutside _ mid.ram) (push_sameMemoryOutside _ (push_mid _ mid).ram)

end

end Sys2Proof.Machine
end

