-- ==== Sys2Proof/Proofs/BranchJump.lean ====
section
/-! Branches, jumps, calls and returns (R280 to R291): a branch's target and page cost as numbers, then each instruction
as the one update of `PC` and `S` it makes. -/

namespace Sys2Proof.Machine

open Sys2Proof.Claims

/-! ## Words as numbers -/

theorem hiByte_toNat (w : Word) : (hiByte w).toNat = w.toNat / 256 := by
  have whole := wordOf_toNat (hiByte w) (loByte w)
  rw [wordOf_hiByte_loByte] at whole
  have low := (loByte w).isLt
  omega

theorem loByte_toNat (w : Word) : (loByte w).toNat = w.toNat % 256 := by
  have whole := wordOf_toNat (hiByte w) (loByte w)
  rw [wordOf_hiByte_loByte] at whole
  have low := (loByte w).isLt
  omega

/-- `sext_16` (R12): the high byte is 0xFF for a byte with bit 7. -/
theorem sext16_toNat (d : Byte) : (sext16 d).toNat = signExtended d := by
  unfold sext16 signExtended
  rw [wordOf_toNat, getLsbD_seven_eq_decide_toNat]
  by_cases positive : d.toNat < 0x80
  · simp [positive, Nat.not_le.mpr positive]
  · simp [positive, Nat.not_lt.mp positive]

/-! ## Updates of `PC` and `S` -/

theorem setSp_setPc_charge_registersOnly (sp : Byte) (pc : Word) (n : Nat) (s : State) :
    RegistersOnly s (((s.setSp sp).setPc pc).charge n) :=
  ⟨sameMemory_of_ram_cart rfl rfl, rfl, ⟨rfl, rfl, rfl, rfl, rfl⟩, rfl, rfl⟩

theorem setPc_charge_registersOnly (pc : Word) (n : Nat) (s : State) : RegistersOnly s ((s.setPc pc).charge n) :=
  setSp_setPc_charge_registersOnly s.sp pc n s

/-! ## Branches (R280) -/

theorem branch_taken (d : Byte) (s : State) : branch true d s =
    (s.setPc (s.pc + sext16 d)).charge (3 + (hiByte (s.pc + sext16 d) != hiByte s.pc).toNat) := rfl

theorem branch_untaken (d : Byte) (s : State) : branch false d s = s.charge 2 := rfl

/-- A branch changes `PC` and the cycle count, taken or not. -/
theorem branch_eq_setPc_charge (taken : Bool) (d : Byte) (s : State) :
    ∃ pc n, branch taken d s = (s.setPc pc).charge n := by
  cases taken with
  | true => exact ⟨_, _, branch_taken d s⟩
  | false => exact ⟨s.pc, 2, branch_untaken d s⟩

/-- The cost of a taken branch (R280): two addresses are on one page when their high bytes agree. -/
theorem takenCost_eq (target pc : Word) : 3 + (hiByte target != hiByte pc).toNat =
    if target.toNat / 0x100 = pc.toNat / 0x100 then 3 else 4 := by
  have samePage : hiByte target = hiByte pc ↔ target.toNat / 0x100 = pc.toNat / 0x100 := by
    rw [← BitVec.toNat_inj, hiByte_toNat, hiByte_toNat]
  by_cases same : target.toNat / 0x100 = pc.toNat / 0x100
  · rw [if_pos same, bne_eq_false_iff_eq.mpr (samePage.mpr same), Bool.toNat_false]
  · rw [if_neg same, bne_iff_ne.mpr (mt samePage.mp same), Bool.toNat_true]

/-- The eight branches are `branch` on their conditions. -/
theorem branches_of_next {mk : Byte → Instr} {op : Byte} {cond : State → Bool}
    (enc : ∀ d, encode (mk d) = [op, d]) (next : ∀ d s, exec (mk d) s = .next (branch (cond s) d s)) :
    Branches mk op cond := by
  intro d s
  refine ⟨enc d, _, next d s, fun taken => ?_, fun untaken => ?_, ?frame⟩
  · rw [taken, branch_taken]
    exact ⟨(BitVec.toNat_add ..).trans (by rw [sext16_toNat]), congrArg (s.cycles + ·) (takenCost_eq _ _)⟩
  · rw [untaken, branch_untaken]
    exact ⟨rfl, rfl⟩
  case frame =>
    obtain ⟨pc, n, update⟩ := branch_eq_setPc_charge (cond s) d s
    rw [update]
    exact ⟨rfl, rfl, rfl, rfl, rfl, setPc_charge_registersOnly pc n s⟩

/-! ## JMP (R289) -/

theorem exec_jmp_abs (w : Word) (s : State) : exec (.jmp (.abs w)) s = .next ((s.setPc w).charge 3) := rfl

/-- Beyond the pointer's two reads, JMP changes `PC` and the cycle count. -/
theorem exec_jmp_ind (ptr : Word) (s : State) : exec (.jmp (.ind ptr)) s =
    .next (((resolve (.ind ptr) s).state.setPc (indirectPointer ptr s).1).charge 5) := rfl

/-- The pointer's second byte comes from the pointer's own page (R171). -/
theorem pointerHigh_eq (ptr : Word) : wordOf (hiByte ptr) (loByte ptr + 1) =
    BitVec.ofNat 16 (256 * (ptr.toNat / 256) + (ptr.toNat + 1) % 256) := by
  apply BitVec.eq_of_toNat_eq
  have wrapped : (loByte ptr + 1).toNat = (ptr.toNat % 256 + 1) % 256 := by
    rw [← loByte_toNat]
    exact BitVec.toNat_add ..
  have bound := ptr.isLt
  rw [wordOf_toNat, hiByte_toNat, wrapped, BitVec.toNat_ofNat]
  omega

/-! ## JSR and RTS (R290, R291) -/

theorem exec_jsr (w : Word) (s : State) :
    exec (.jsr w) s = .next (((pushWord (s.pc - 1) s).setPc w).charge 6) := rfl

/-- RTS takes the word of the two slots above `S`. -/
theorem exec_rts (s : State) : exec .rts s = .next (((s.setSp (s.sp + 2)).setPc
    (wordOf (stackByte s (s.sp + 2)) (stackByte s (s.sp + 1)) + 1)).charge 6) := by
  have twoHigher : s.sp + 1 + 1 = s.sp + 2 := BitVec.add_assoc ..
  have pulled : exec .rts s = .next (((pullWord s).2.setPc ((pullWord s).1 + 1)).charge 6) := rfl
  rw [pulled, pullWord_eq, twoHigher]
  rfl

/-! ## The obligations -/

/-- Settles O31: each encoding by computation, each branch by the rule of `branch`. -/
theorem branchesFollowTheirFlag : Obligations.BranchesFollowTheirFlag := by
  unfold Obligations.BranchesFollowTheirFlag
  refine ⟨?_, ?_, ?_, ?_, ?_, ?_, ?_, ?_⟩
  all_goals exact branches_of_next (fun _ => rfl) fun _ _ => rfl

/-- Settles O32: the absolute target is the operand; the indirect one is the word of two reads, and only they touch a
device. -/
theorem jmpTakesItsTarget : Obligations.JmpTakesItsTarget := by
  unfold Obligations.JmpTakesItsTarget
  refine ⟨fun w => ⟨rfl, rfl⟩, fun w s => ?abs, fun ptr s => ?ind⟩
  case abs =>
    exact ⟨_, exec_jmp_abs w s, rfl, ⟨rfl, rfl, rfl⟩, rfl, rfl, rfl, setPc_charge_registersOnly w 3 s⟩
  case ind =>
    rw [← pointerHigh_eq]
    have memory : SameMemory s (resolve (.ind ptr) s).state :=
      sameMemory_of_ram_cart (resolve_ram _ s) (resolve_cart _ s)
    exact ⟨_, _, _, _, _, rfl, rfl, exec_jmp_ind ptr s, wordOf_toNat ..,
      ⟨resolve_a (.ind ptr) s, resolve_x (.ind ptr) s, resolve_y (.ind ptr) s⟩, resolve_sp (.ind ptr) s,
      resolve_p (.ind ptr) s, congrArg (· + 5) (resolve_cycles (.ind ptr) s), memory, ⟨rfl, rfl, rfl, rfl, rfl⟩,
      resolve_cart (.ind ptr) s, resolve_tick (.ind ptr) s⟩

/-- Settles O33: JSR is the push of one word and an update of `PC`. -/
theorem jsrPushesReturnAddress : Obligations.JsrPushesReturnAddress := by
  unfold Obligations.JsrPushesReturnAddress
  refine ⟨fun _ => rfl, fun w s sound => ?_⟩
  have mid : s.Mid := ((s.sound_iff_mid).mp sound).1
  rw [← stackAddr_eq_or, ← stackAddr_eq_or]
  exact ⟨_, exec_jsr w s, rfl, pushWord_sp _ s, pushWord_memByte_high _ mid, pushWord_memByte_low _ mid,
    pushWord_sameMemoryOutside _ mid, ⟨pushWord_a _ s, pushWord_x _ s, pushWord_y _ s⟩, pushWord_p _ s,
    congrArg (· + 6) (pushWord_cycles _ s), pushWord_sameDevices _ s, pushWord_cart _ s, pushWord_tick _ s⟩

/-- Settles O34: RTS writes `S`, `PC` and the cycle count. -/
theorem rtsPullsReturnAddress : Obligations.RtsPullsReturnAddress := by
  unfold Obligations.RtsPullsReturnAddress
  refine ⟨rfl, fun s => ?_⟩
  exact ⟨_, exec_rts s, rfl, rfl, ⟨rfl, rfl, rfl⟩, rfl, rfl, setSp_setPc_charge_registersOnly _ _ 6 s⟩

end Sys2Proof.Machine
end

