-- ==== Sys2Proof/Proofs/StackFlags.lean ====
section
/-! Pushes and pulls of `A` and `P`, and the flag instructions (R311 to R321): each is one update of the state, built
from the stack's own rules, and its clauses are read off that update. -/

namespace Sys2Proof.Machine

open Sys2Proof.Claims

/-! ## PHA and PHP (R311, R312) -/

/-- With bit 4 asked for, the pushed status is the `P | 0x30` of R312 and R322. -/
theorem pushedStatus_true (p : Byte) : pushedStatus true p = p ||| 0x30 := by
  apply status_ext
  intro g
  rw [flag_pushedStatus]
  cases g <;> simp [flag, Flag.pos]

theorem exec_php (s : State) : exec .php s = .next ((push (s.p ||| 0x30) s).charge 3) := by
  rw [← pushedStatus_true]
  rfl

/-- A three-cycle instruction that is one push. -/
theorem pushesByte_of_push {i : Instr} {op : Byte} {v : State → Byte} (enc : encode i = [op])
    (next : ∀ s, exec i s = .next ((push (v s) s).charge 3)) : PushesByte i op v := by
  refine ⟨enc, fun s sound => ?_⟩
  have hw : s.ram.wf 0x800 = true := ((s.sound_iff_mid).mp sound).1.ram
  rw [← stackAddr_eq_or]
  exact ⟨_, next s, push_memByte_slot _ hw, push_sameMemoryOutside _ hw, push_sp (v s) s,
    ⟨push_a _ s, push_x _ s, push_y _ s⟩, push_p _ s, push_pc _ s, congrArg (· + 3) (push_cycles _ s),
    push_sameDevices _, push_cart _ s, push_tick _ s⟩

/-! ## PLA and PLP (R313, R314) -/

theorem pull_eq_stackByte (s : State) : pull s = (stackByte s (s.sp + 1), s.setSp (s.sp + 1)) := pull_eq s

theorem exec_pla (s : State) :
    exec .pla s = .next (((s.setSp (s.sp + 1)).loadA (stackByte s (s.sp + 1))).charge 4) := by
  have pulled : exec .pla s = .next (((pull s).2.loadA (pull s).1).charge 4) := rfl
  rw [pulled, pull_eq_stackByte]

theorem exec_plp (s : State) :
    exec .plp s = .next (((s.setSp (s.sp + 1)).setP (pulledStatus (stackByte s (s.sp + 1)))).charge 4) := by
  have pulled : exec .plp s = .next (((pull s).2.setP (pulledStatus (pull s).1)).charge 4) := rfl
  rw [pulled, pull_eq_stackByte]

/-! ## Flag instructions (R315 to R321) -/

theorem flag_putFlag_same (f : Flag) (v : Bool) (s : State) : flag f (s.putFlag f v).p = v :=
  (flag_setFlag ..).trans (if_pos rfl)

theorem putFlag_flagsKept (f : Flag) (v : Bool) (s : State) : FlagsKept [f] s (s.putFlag f v) :=
  fun _ other => (flag_setFlag ..).trans (if_neg (List.ne_of_not_mem_cons other).symm)

/-- A two-cycle instruction that writes one flag. -/
theorem writesFlag_of_putFlag {i : Instr} {op : Byte} {f : Flag} {v : Bool} (enc : encode i = [op])
    (next : ∀ s, exec i s = .next ((s.putFlag f v).charge 2)) : WritesFlag i op f v :=
  ⟨enc, fun s => ⟨_, next s, flag_putFlag_same f v s, putFlag_flagsKept f v s, rfl, rfl, rfl, rfl, rfl, rfl,
    (setP_sameOutsideAXYP s _).registersOnly_charge 2⟩⟩

/-! ## The obligations -/

/-- Settles O36: each is one push, PHP's of the status with bits 4 and 5 set. -/
theorem pushesStoreOneByte : Obligations.PushesStoreOneByte :=
  ⟨pushesByte_of_push rfl fun _ => rfl, pushesByte_of_push rfl exec_php⟩

/-- Settles O37: after the pull's step of `S`, PLA only loads `A` and PLP only replaces `P`. -/
theorem pullsLoadOneByte : Obligations.PullsLoadOneByte := by
  unfold Obligations.PullsLoadOneByte
  refine ⟨rfl, rfl, fun s => ?pla, fun s => ?plp⟩
  case pla =>
    exact ⟨_, exec_pla s, rfl, zeroNegativeOf_of_setZN rfl, flagsKept_of_setZN rfl, rfl, rfl, rfl, rfl, rfl,
      (loadA_sameOutsideAXYP (s.setSp (s.sp + 1)) _).registersOnly_charge 4⟩
  case plp =>
    exact ⟨_, exec_plp s, rfl, rfl, ⟨rfl, rfl, rfl⟩, rfl, rfl,
      (setP_sameOutsideAXYP (s.setSp (s.sp + 1)) _).registersOnly_charge 4⟩

/-- Settles O38: each encoding by computation, each instruction by the rule of one flag's update. -/
theorem flagInstructionsWriteOneFlag : Obligations.FlagInstructionsWriteOneFlag := by
  unfold Obligations.FlagInstructionsWriteOneFlag
  refine ⟨?_, ?_, ?_, ?_, ?_, ?_, ?_⟩
  all_goals exact writesFlag_of_putFlag rfl fun _ => rfl

end Sys2Proof.Machine
end

