-- ==== Sys2Proof/Proofs/InterruptEntry.lean ====
section
/-! Interrupt entry and return (R322, R323, R505): the entry through a vector of ROM as three pushes and an update of
`P` and `PC`, and the return as one update of `S`, `P` and `PC`. -/

namespace Sys2Proof.Machine

open Sys2Proof.Claims

/-! ## The three pushed bytes -/

/-- What an entry puts on the stack: the return address, then the status. -/
def pushFrame (ret : Word) (status : Byte) (s : State) : State := push status (pushWord ret s)

section
variable (ret : Word) (status : Byte) {s : State}

theorem pushFrame_sp : (pushFrame ret status s).sp = s.sp - 3 := by
  rw [pushFrame, push_sp, pushWord_sp]
  bv_omega

theorem pushFrame_sameAXY : SameAXY s (pushFrame ret status s) := by simp [pushFrame, SameAXY]

@[simp] theorem pushFrame_p : (pushFrame ret status s).p = s.p := by simp [pushFrame]
@[simp] theorem pushFrame_cycles : (pushFrame ret status s).cycles = s.cycles := by simp [pushFrame]
@[simp] theorem pushFrame_cart : (pushFrame ret status s).cart = s.cart := by simp [pushFrame]
@[simp] theorem pushFrame_tick : (pushFrame ret status s).tick = s.tick := by simp [pushFrame]

theorem pushFrame_sameDevices : SameDevices s (pushFrame ret status s) := by
  simp [pushFrame, pushWord, SameDevices]

/-- A push leaves the other slots of the stack page alone. -/
theorem push_memByte_slot_ne (v : Byte) (hw : s.ram.wf 0x800 = true) {sp : Byte} (other : sp ≠ s.sp) :
    (push v s).memByte (stackAddr sp) = s.memByte (stackAddr sp) :=
  push_sameMemoryOutside v hw _ (List.forall_mem_singleton.mpr (not_sameCell_stackAddr other))

variable (mid : s.Mid)
include mid

theorem pushFrame_memByte_high : (pushFrame ret status s).memByte (stackAddr s.sp) = some (hiByte ret) := by
  rw [pushFrame, push_memByte_slot_ne _ (pushWord_mid ret mid).ram (by rw [pushWord_sp]; bv_omega)]
  exact pushWord_memByte_high ret mid

theorem pushFrame_memByte_low : (pushFrame ret status s).memByte (stackAddr (s.sp - 1)) = some (loByte ret) := by
  rw [pushFrame, push_memByte_slot_ne _ (pushWord_mid ret mid).ram (by rw [pushWord_sp]; bv_omega)]
  exact pushWord_memByte_low ret mid

theorem pushFrame_memByte_status : (pushFrame ret status s).memByte (stackAddr (s.sp - 2)) = some status := by
  rw [← pushWord_sp ret s]
  exact push_memByte_slot status (pushWord_mid ret mid).ram

theorem pushFrame_sameMemoryOutside :
    SameMemoryOutside [stackAddr s.sp, stackAddr (s.sp - 1), stackAddr (s.sp - 2)] s (pushFrame ret status s) := by
  rw [← pushWord_sp ret s]
  exact sameMemoryOutside_append (pushWord_sameMemoryOutside ret mid)
    (push_sameMemoryOutside status (pushWord_mid ret mid).ram)

end

/-! ## The entry (R505) -/

/-- A word of the cartridge's window is read with no side effect (R81, R100). -/
theorem busRead16_of_rom {s : State} {vector : Word} (hc : s.cart.present = true) (lo : 0x8000 ≤ vector)
    (hi : 0x8000 ≤ vector + 1) : busRead16 vector s = (vectorWord s.cart vector, s) := by
  simp only [busRead16, busRead_of_rom s hc lo, busRead_of_rom s hc hi]
  rfl

section
variable {vector : Word} (b : Bool) {s : State} (hc : s.cart.present = true) (lo : 0x8000 ≤ vector)
  (hi : 0x8000 ≤ vector + 1)
include hc lo hi

theorem takeInterrupt_eq : takeInterrupt vector b s =
    ((pushFrame s.pc (pushedStatus b s.p) s).setP (setFlag .i true s.p)).setPc (vectorWord s.cart vector) := by
  simp only [takeInterrupt, pushWord_p, push_p]
  rw [busRead16_of_rom (by simpa using hc) lo hi]
  simp [pushFrame]

theorem takeInterrupt_entered (mid : s.Mid) : Entered vector b s.pc s (takeInterrupt vector b s) := by
  rw [takeInterrupt_eq b hc lo hi]
  unfold Entered
  simp only [← stackAddr_eq_or]
  exact ⟨pushFrame_memByte_high _ _ mid, pushFrame_memByte_low _ _ mid, pushFrame_memByte_status _ _ mid,
    pushFrame_sameMemoryOutside _ _ mid, pushFrame_sp s.pc (pushedStatus b s.p), flag_putFlag_same .i true s,
    putFlag_flagsKept .i true s, rfl, pushFrame_sameAXY _ _⟩

theorem takeInterrupt_cycles : (takeInterrupt vector b s).cycles = s.cycles := by
  simp [takeInterrupt_eq b hc lo hi]

theorem takeInterrupt_sameDevices : SameDevices s (takeInterrupt vector b s) := by
  rw [takeInterrupt_eq b hc lo hi]
  exact pushFrame_sameDevices s.pc (pushedStatus b s.p)

theorem takeInterrupt_sameHost : SameHost s (takeInterrupt vector b s) := by
  simp [SameHost, takeInterrupt_eq b hc lo hi]

end

/-! ## The return (R323) -/

theorem pullWord_eq_stackByte (s : State) : pullWord s =
    (wordOf (stackByte s (s.sp + 2)) (stackByte s (s.sp + 1)), s.setSp (s.sp + 2)) := by
  have twoHigher : s.sp + 1 + 1 = s.sp + 2 := BitVec.add_assoc ..
  rw [pullWord_eq, twoHigher]
  rfl

/-- RTI takes the status from the slot above `S` and `PC` from the two above that. -/
theorem returnFromInterrupt_eq (s : State) : returnFromInterrupt s =
    ((s.setSp (s.sp + 3)).setP (pulledStatus (stackByte s (s.sp + 1)))).setPc
      (wordOf (stackByte s (s.sp + 3)) (stackByte s (s.sp + 2))) := by
  have twoHigher : s.sp + 1 + 1 = s.sp + 2 := BitVec.add_assoc ..
  have threeHigher : s.sp + 1 + 2 = s.sp + 3 := BitVec.add_assoc ..
  simp only [returnFromInterrupt, pull_eq_stackByte, pullWord_eq_stackByte, State.setP_sp, State.setSp_sp,
    twoHigher, threeHigher]
  rfl

/-! ## The obligations -/

/-- Settles O17: the entry through 0xFFFE with bit 4 set, taken one byte past the opcode. -/
theorem brkEntersHandler : Obligations.BrkEntersHandler := by
  unfold Obligations.BrkEntersHandler
  refine ⟨rfl, fun s sound present => ?_⟩
  have next : exec .brk s = .next ((takeInterrupt 0xFFFE true s.advancePc).charge 7) := rfl
  have hc : s.advancePc.cart.present = true := present
  have mid : s.advancePc.Mid := ((s.sound_iff_mid).mp sound).1.setPc (s.pc + 1)
  have lo : (0x8000 : Word) ≤ 0xFFFE := by decide
  have hi : (0x8000 : Word) ≤ 0xFFFE + 1 := by decide
  have entered := takeInterrupt_entered true hc lo hi mid
  have cycles := takeInterrupt_cycles true hc lo hi
  have devices := takeInterrupt_sameDevices true hc lo hi
  have host := takeInterrupt_sameHost true hc lo hi
  exact ⟨_, next, entered, congrArg (· + 7) cycles, devices, host⟩

/-- Settles O18: RTI is the return's one update of `S`, `P` and `PC`, at 6 cycles. -/
theorem rtiPullsStatusThenPc : Obligations.RtiPullsStatusThenPc := by
  unfold Obligations.RtiPullsStatusThenPc
  refine ⟨rfl, fun s => ?_⟩
  have next : exec .rti s = .next ((returnFromInterrupt s).charge 6) := rfl
  rw [next, returnFromInterrupt_eq]
  exact ⟨_, rfl, rfl, rfl, rfl, rfl, ⟨rfl, rfl, rfl⟩,
    setPc_charge_registersOnly _ 6 ((s.setSp (s.sp + 3)).setP (pulledStatus (stackByte s (s.sp + 1))))⟩

end Sys2Proof.Machine
end

