-- ==== Sys2Proof/Proofs/PpuPorts.lean ====
section
/-! The picture unit's ports (R357 to R368): the bits of the scroll/address registers after a field is replaced, then
the replacements the ports make as masks and shifts, then the advance of `v` after a data access. -/

namespace Sys2Proof.Machine

/-! ## The bits of the scroll/address registers (R352) -/

namespace Scroll

section
variable (r : ScrollReg) (i : Nat)

theorem coarseX_getLsbD : (coarseX r).getLsbD i = (decide (i < 5) && r.getLsbD i) := by
  rw [coarseX, BitVec.getLsbD_extractLsb', Nat.zero_add]

theorem coarseY_getLsbD : (coarseY r).getLsbD i = (decide (i < 5) && r.getLsbD (5 + i)) :=
  BitVec.getLsbD_extractLsb' ..

theorem nametableX_getLsbD : (nametableX r).getLsbD i = (decide (i < 1) && r.getLsbD (10 + i)) :=
  BitVec.getLsbD_extractLsb' ..

theorem nametableY_getLsbD : (nametableY r).getLsbD i = (decide (i < 1) && r.getLsbD (11 + i)) :=
  BitVec.getLsbD_extractLsb' ..

theorem fineY_getLsbD : (fineY r).getLsbD i = (decide (i < 3) && r.getLsbD (12 + i)) :=
  BitVec.getLsbD_extractLsb' ..

theorem make_getLsbD (fineY : BitVec 3) (nametableY nametableX : BitVec 1) (coarseY coarseX : BitVec 5) :
    (make fineY nametableY nametableX coarseY coarseX).getLsbD i =
      if i < 5 then coarseX.getLsbD i
      else if i < 10 then coarseY.getLsbD (i - 5)
      else if i < 11 then nametableX.getLsbD (i - 10)
      else if i < 12 then nametableY.getLsbD (i - 11)
      else fineY.getLsbD (i - 12) := by
  simp only [make, BitVec.getLsbD_append]
  grind

theorem setCoarseX_getLsbD (x : BitVec 5) :
    (setCoarseX r x).getLsbD i = if i < 5 then x.getLsbD i else r.getLsbD i := by
  simp only [setCoarseX, make_getLsbD, coarseY_getLsbD, nametableX_getLsbD, nametableY_getLsbD, fineY_getLsbD]
  grind

theorem setCoarseY_getLsbD (y : BitVec 5) :
    (setCoarseY r y).getLsbD i = if 5 ≤ i ∧ i < 10 then y.getLsbD (i - 5) else r.getLsbD i := by
  simp only [setCoarseY, make_getLsbD, coarseX_getLsbD, nametableX_getLsbD, nametableY_getLsbD, fineY_getLsbD]
  grind

theorem setNametableX_getLsbD (b : BitVec 1) :
    (setNametableX r b).getLsbD i = if i = 10 then b.getLsbD 0 else r.getLsbD i := by
  simp only [setNametableX, make_getLsbD, coarseX_getLsbD, coarseY_getLsbD, nametableY_getLsbD, fineY_getLsbD]
  grind

theorem setNametableY_getLsbD (b : BitVec 1) :
    (setNametableY r b).getLsbD i = if i = 11 then b.getLsbD 0 else r.getLsbD i := by
  simp only [setNametableY, make_getLsbD, coarseX_getLsbD, coarseY_getLsbD, nametableX_getLsbD, fineY_getLsbD]
  grind

theorem setFineY_getLsbD (y : BitVec 3) :
    (setFineY r y).getLsbD i = if 12 ≤ i then y.getLsbD (i - 12) else r.getLsbD i := by
  simp only [setFineY, make_getLsbD, coarseX_getLsbD, coarseY_getLsbD, nametableX_getLsbD, nametableY_getLsbD]
  grind

end

/-! ## The ports' replacements as masks and shifts

Both sides of each equation have the same 15 bits: either the bit of the register that the mask keeps, or the bit of
the written byte that the shift puts there. -/

section
variable (r : ScrollReg) (d : Byte)

/-- The control write's two bits of `t` (R360). -/
theorem setNametables_eq_mask :
    setNametableY (setNametableX r (bit1 (d.getLsbD 0))) (bit1 (d.getLsbD 1)) =
      (r &&& 0x73FF) ||| ((d.setWidth 15 &&& 0x0003) <<< 10) := by
  refine BitVec.eq_of_getLsbD_eq fun i hi => ?_
  rw [setNametableY_getLsbD, setNametableX_getLsbD]
  interval_cases i <;> simp [bit1]

/-- The first scroll write's field of `t` (R364). -/
theorem setCoarseX_eq_mask :
    setCoarseX r (d.extractLsb' 3 5) = (r &&& 0x7FE0) ||| (d.setWidth 15 >>> 3) := by
  refine BitVec.eq_of_getLsbD_eq fun i hi => ?_
  rw [setCoarseX_getLsbD]
  interval_cases i <;> simp

/-- The second scroll write's two fields of `t` (R364). -/
theorem setFineY_setCoarseY_eq_mask :
    setCoarseY (setFineY r (d.extractLsb' 0 3)) (d.extractLsb' 3 5) =
      (r &&& 0x0C1F) ||| ((d.setWidth 15 &&& 0x07) <<< 12) ||| ((d.setWidth 15 >>> 3) <<< 5) := by
  refine BitVec.eq_of_getLsbD_eq fun i hi => ?_
  rw [setCoarseY_getLsbD, setFineY_getLsbD]
  interval_cases i <;> simp

/-- The first address write: the high six bits, with bit 14 cleared (R365). -/
theorem highByte_eq_mask :
    (0#1 : BitVec 1) ++ d.extractLsb' 0 6 ++ r.extractLsb' 0 8 =
      (((d.setWidth 15 &&& 0x3F) <<< 8) ||| (r &&& 0x00FF) : ScrollReg) := by
  refine BitVec.eq_of_getLsbD_eq fun i hi => ?_
  rw [BitVec.getLsbD_append, BitVec.getLsbD_append]
  interval_cases i <;> simp

/-- The second address write: the low byte (R365). -/
theorem lowByte_eq_mask :
    r.extractLsb' 8 7 ++ d = ((r &&& 0x7F00) ||| d.setWidth 15 : ScrollReg) := by
  refine BitVec.eq_of_getLsbD_eq fun i hi => ?_
  rw [BitVec.getLsbD_append]
  interval_cases i <;> simp

end

theorem address_toNat (r : ScrollReg) : (address r).toNat = r.toNat % 0x4000 := BitVec.toNat_setWidth ..

end Scroll

/-! ## The advance of `v` (R366, R367) -/

namespace Ppu

variable (c : Cartridge) (p : Ppu) (a : PpuAddr) (d : Byte)

theorem advanceV_v_toNat :
    p.advanceV.v.toNat = (p.v.toNat + if p.incrementMode then 32 else 1) % 0x8000 := by
  rw [advanceV, BitVec.toNat_add]
  cases p.incrementMode <;> rfl

/-! A write to the unit's memories changes no register (R371). -/

@[simp] theorem write_v : (p.write c a d).v = p.v := by
  unfold write
  split_ifs <;> rfl

@[simp] theorem write_incrementMode : (p.write c a d).incrementMode = p.incrementMode := by
  unfold write
  split_ifs <;> rfl

theorem write_advanceV : (p.write c a d).advanceV = { p.write c a d with v := p.advanceV.v } := by
  simp only [advanceV, write_v, write_incrementMode]

end Ppu

/-! ## The obligations -/

/-- Settles O48: the control write's bits of `t` are a mask; every other clause is the port's own definition. -/
theorem controlStatusAndOamPorts : Obligations.ControlStatusAndOamPorts := by
  unfold Obligations.ControlStatusAndOamPorts
  intro c p d
  have control : p.portWrite c 0 d = p.writeControl d := rfl
  rw [control, Ppu.writeControl, Scroll.setNametables_eq_mask]
  exact ⟨⟨_, rfl, rfl⟩, rfl, rfl, rfl, rfl, rfl, rfl, rfl, rfl, rfl, rfl, rfl⟩

/-- Settles O49: the toggle picks the write, and each write's fields of `t` are its mask. -/
theorem scrollAndAddressWrites : Obligations.ScrollAndAddressWrites := by
  unfold Obligations.ScrollAndAddressWrites
  intro c p d
  have scroll : p.portWrite c 5 d = p.writeScroll d := rfl
  have address : p.portWrite c 6 d = p.writeAddress d := rfl
  rw [scroll, address, Ppu.writeScroll, Ppu.writeAddress, Scroll.setFineY_setCoarseY_eq_mask,
    Scroll.setCoarseX_eq_mask, Scroll.highByte_eq_mask, Scroll.lowByte_eq_mask]
  refine ⟨_, rfl, fun first => ?_, fun second => ?_⟩
  · rw [first]
    exact ⟨rfl, rfl⟩
  · rw [second]
    exact ⟨rfl, rfl⟩

/-- Settles O50: both directions use the address of `v`, and `v` advances as it would alone. -/
theorem dataPortIsOneReadBehind : Obligations.DataPortIsOneReadBehind := by
  unfold Obligations.DataPortIsOneReadBehind
  intro c p d
  have read : p.portRead c 7 = p.readData c := rfl
  have write : p.portWrite c 7 d = p.writeData c d := rfl
  rw [read, write, Ppu.readData, Ppu.writeData, Ppu.write_advanceV]
  refine ⟨Scroll.address p.v, p.advanceV.v, Scroll.address_toNat p.v, p.advanceV_v_toNat,
    fun below => ?_, fun palette => ?_, rfl⟩
  · have low : ¬ 0x3F00 ≤ Scroll.address p.v := Nat.not_le.mpr below
    rw [if_neg low]
    rfl
  · have high : 0x3F00 ≤ Scroll.address p.v := palette
    rw [if_pos high]
    rfl

end Sys2Proof.Machine
end

