-- ==== Sys2Proof/Proofs/ScrollRegister.lean ====
section
/-! The scroll increments and transfers as arithmetic (R352, R413 to R416): a register is the number its five fields
make, replacing a field replaces its term, and the two transfers are masks. -/

namespace Sys2Proof.Machine

open Sys2Proof.Claims

/-! ## Fields as numbers -/

namespace Scroll

section
variable (r : ScrollReg)

theorem coarseX_toNat : (coarseX r).toNat = coarseXOf r := by
  simp [coarseX, coarseXOf, BitVec.extractLsb'_toNat]

theorem coarseY_toNat : (coarseY r).toNat = coarseYOf r := by
  simp [coarseY, coarseYOf, BitVec.extractLsb'_toNat, Nat.shiftRight_eq_div_pow]

theorem nametableX_toNat : (nametableX r).toNat = nametableXOf r := by
  simp [nametableX, nametableXOf, BitVec.extractLsb'_toNat, Nat.shiftRight_eq_div_pow]

theorem nametableY_toNat : (nametableY r).toNat = nametableYOf r := by
  simp [nametableY, nametableYOf, BitVec.extractLsb'_toNat, Nat.shiftRight_eq_div_pow]

theorem fineY_toNat : (fineY r).toNat = fineYOf r := by
  have := r.isLt
  simp only [fineY, fineYOf, BitVec.extractLsb'_toNat, Nat.shiftRight_eq_div_pow]
  omega

end

section
variable {fy : BitVec 3} {ny nx : BitVec 1} {cy cx : BitVec 5}

theorem make_eq_scrollWord {fy' ny' nx' cy' cx' : Nat} (hfy : fy.toNat = fy') (hny : ny.toNat = ny')
    (hnx : nx.toNat = nx') (hcy : cy.toNat = cy') (hcx : cx.toNat = cx') :
    make fy ny nx cy cx = scrollWord fy' ny' nx' cy' cx' := by
  subst hfy hny hnx hcy hcx
  apply BitVec.eq_of_toNat_eq
  simp only [make, scrollWord, BitVec.toNat_append, BitVec.toNat_ofNat]
  rw [← Nat.shiftLeft_add_eq_or_of_lt ny.isLt, ← Nat.shiftLeft_add_eq_or_of_lt nx.isLt,
    ← Nat.shiftLeft_add_eq_or_of_lt cy.isLt, ← Nat.shiftLeft_add_eq_or_of_lt cx.isLt]
  omega

@[simp] theorem coarseX_make : coarseX (make fy ny nx cy cx) = cx := by
  refine BitVec.eq_of_getLsbD_eq fun i hi => ?_
  rw [coarseX_getLsbD, make_getLsbD, if_pos hi, decide_eq_true hi, Bool.true_and]

@[simp] theorem coarseY_make : coarseY (make fy ny nx cy cx) = cy := by
  refine BitVec.eq_of_getLsbD_eq fun i hi => ?_
  rw [coarseY_getLsbD, make_getLsbD, if_neg (by omega), if_pos (by omega), decide_eq_true hi, Bool.true_and,
    Nat.add_sub_cancel_left]

@[simp] theorem nametableX_make : nametableX (make fy ny nx cy cx) = nx := by
  refine BitVec.eq_of_getLsbD_eq fun i hi => ?_
  obtain rfl : i = 0 := by omega
  simp only [nametableX_getLsbD, make_getLsbD]
  rfl

@[simp] theorem nametableY_make : nametableY (make fy ny nx cy cx) = ny := by
  refine BitVec.eq_of_getLsbD_eq fun i hi => ?_
  obtain rfl : i = 0 := by omega
  simp only [nametableY_getLsbD, make_getLsbD]
  rfl

@[simp] theorem fineY_make : fineY (make fy ny nx cy cx) = fy := by
  refine BitVec.eq_of_getLsbD_eq fun i hi => ?_
  rw [fineY_getLsbD, make_getLsbD, if_neg (by omega), if_neg (by omega), if_neg (by omega), if_neg (by omega),
    decide_eq_true hi, Bool.true_and, Nat.add_sub_cancel_left]

end

/-! ## The increments and transfers of `v` -/

/-- The other one of two nametables. -/
theorem xor_one_toNat {b : BitVec 1} {n : Nat} (h : b.toNat = n) : (b ^^^ 1).toNat = 1 - n := by
  subst h; revert b; decide

section
variable (v t : ScrollReg)

theorem wrapX_eq_nextX (h : coarseX v = 31) :
    setNametableX (setCoarseX v 0) (nametableX v ^^^ 1) = nextX v := by
  have wrap : coarseXOf v = 31 := by rw [← coarseX_toNat, h]; rfl
  rw [nextX, if_pos wrap]
  simp only [setNametableX, setCoarseX, coarseX_make, coarseY_make, nametableY_make, fineY_make]
  exact make_eq_scrollWord (fineY_toNat v) (nametableY_toNat v) (xor_one_toNat (nametableX_toNat v))
    (coarseY_toNat v) rfl

theorem stepX_eq_nextX (h : coarseX v ≠ 31) : setCoarseX v (coarseX v + 1) = nextX v := by
  have inside : coarseXOf v ≠ 31 := by rw [← coarseX_toNat]; bv_omega
  rw [nextX, if_neg inside]
  exact make_eq_scrollWord (fineY_toNat v) (nametableY_toNat v) (nametableX_toNat v) (coarseY_toNat v)
    (by rw [← coarseX_toNat]; bv_omega)

theorem stepFineY_eq_nextY (h : fineY v < 7) : setFineY v (fineY v + 1) = nextY v := by
  have inside : fineYOf v < 7 := by rw [← fineY_toNat]; exact h
  rw [nextY, if_pos inside]
  exact make_eq_scrollWord (by rw [← fineY_toNat]; bv_omega) (nametableY_toNat v) (nametableX_toNat v)
    (coarseY_toNat v) (coarseX_toNat v)

/-- The carry of `fine_y` into `coarse_y` (R414), in its three cases. -/
theorem carryY_eq_nextY (h : ¬fineY v < 7) :
    (if coarseY (setFineY v 0) = 29 then
        setNametableY (setCoarseY (setFineY v 0) 0) (nametableY (setFineY v 0) ^^^ 1)
      else if coarseY (setFineY v 0) = 31 then setCoarseY (setFineY v 0) 0
      else setCoarseY (setFineY v 0) (coarseY (setFineY v 0) + 1)) = nextY v := by
  have carry : ¬fineYOf v < 7 := by rw [← fineY_toNat]; exact h
  have lastRow : coarseY v = 29 ↔ coarseYOf v = 29 := by rw [← coarseY_toNat, ← BitVec.toNat_inj]; rfl
  have attributeRow : coarseY v = 31 ↔ coarseYOf v = 31 := by rw [← coarseY_toNat, ← BitVec.toNat_inj]; rfl
  have hx := coarseX_toNat v
  have hnx := nametableX_toNat v
  have hny := nametableY_toNat v
  rw [nextY, if_neg carry]
  simp only [setNametableY, setCoarseY, setFineY, coarseX_make, coarseY_make, nametableX_make, nametableY_make,
    fineY_make, lastRow, attributeRow]
  split_ifs with last past
  · exact make_eq_scrollWord rfl (xor_one_toNat hny) hnx rfl hx
  · exact make_eq_scrollWord rfl hny hnx rfl hx
  · exact make_eq_scrollWord rfl hny hnx (by rw [← coarseY_toNat] at past ⊢; bv_omega) hx

theorem horizontal_eq_mask :
    setCoarseX (setNametableX v (nametableX t)) (coarseX t) = withHorizontal t v := by
  refine BitVec.eq_of_getLsbD_eq fun i hi => ?_
  rw [setCoarseX_getLsbD, setNametableX_getLsbD, coarseX_getLsbD, nametableX_getLsbD]
  interval_cases i <;> simp [withHorizontal]

theorem vertical_eq_mask :
    setCoarseY (setNametableY (setFineY v (fineY t)) (nametableY t)) (coarseY t) = withVertical t v := by
  refine BitVec.eq_of_getLsbD_eq fun i hi => ?_
  rw [setCoarseY_getLsbD, setNametableY_getLsbD, setFineY_getLsbD, coarseY_getLsbD, nametableY_getLsbD, fineY_getLsbD]
  interval_cases i <;> simp [withVertical]

end

end Scroll

namespace Ppu

variable (p : Ppu)

open Scroll

/-! Each operation changes `v` alone, and that only while rendering (R413 to R416). -/

theorem incrementScrollX_eq_ite :
    p.incrementScrollX = { p with v := if p.rendering = true then nextX p.v else p.v } := by
  unfold incrementScrollX
  cases p.rendering
  case false => rfl
  case true =>
    by_cases wrap : coarseX p.v = 31
    · rw [if_pos rfl, if_pos rfl, if_pos wrap, wrapX_eq_nextX _ wrap]
    · rw [if_pos rfl, if_pos rfl, if_neg wrap, stepX_eq_nextX _ wrap]

theorem incrementScrollY_eq_ite :
    p.incrementScrollY = { p with v := if p.rendering = true then nextY p.v else p.v } := by
  unfold incrementScrollY
  cases p.rendering
  case false => rfl
  case true =>
    by_cases step : fineY p.v < 7
    · rw [if_pos rfl, if_pos rfl, if_pos step, stepFineY_eq_nextY _ step]
    · rw [if_pos rfl, if_pos rfl, if_neg step, ← carryY_eq_nextY _ step]
      simp only
      split_ifs <;> rfl

theorem transferX_eq_ite :
    p.transferX = { p with v := if p.rendering = true then withHorizontal p.t p.v else p.v } := by
  rw [transferX, horizontal_eq_mask]
  cases p.rendering <;> rfl

theorem transferY_eq_ite :
    p.transferY = { p with v := if p.rendering = true then withVertical p.t p.v else p.v } := by
  rw [transferY, vertical_eq_mask]
  cases p.rendering <;> rfl

end Ppu
end Sys2Proof.Machine
end

