-- ==== Sys2Proof/Proofs/BackgroundFetch.lean ====
section
/-! The background pipeline's shift, reload and fetch step (R411, R412, R417): the bit operations of the addresses are
sums of disjoint terms, and the step at a dot is the one that its position in the eight dots of a tile gives. -/

namespace Sys2Proof.Machine

open Sys2Proof.Claims

/-! ## The reload (R412) -/

theorem withLow_eq_mask (r : BitVec 16) (b : Byte) : withLow r b = (r &&& 0xFF00) ||| b.setWidth 16 := by
  refine BitVec.eq_of_getLsbD_eq fun i hi => ?_
  rw [withLow, getLsbD_wordOf, getLsbD_hiByte]
  interval_cases i <;> simp

theorem spread_setWidth (b : Bool) : (spread b).setWidth 16 = if b then 0x00FF else 0x0000 := by
  cases b <;> rfl

theorem Ppu.loadShifters_eq (p : Ppu) : p.loadShifters = { p with bg := reloaded p.bg } := by
  simp only [Ppu.loadShifters, reloaded, withLow_eq_mask, spread_setWidth]

/-- Loading the same tile a second time changes nothing. -/
theorem reloaded_reloaded (b : Background) (id : Byte) :
    reloaded { reloaded b with nextId := id } = { reloaded b with nextId := id } := by
  have again : ∀ r x : BitVec 16, (r &&& 0xFF00 ||| x) &&& 0xFF00 ||| x = r &&& 0xFF00 ||| x := by
    intro r x
    refine BitVec.eq_of_getLsbD_eq fun i hi => ?_
    simp only [BitVec.getLsbD_or, BitVec.getLsbD_and]
    grind
  unfold reloaded
  congr 1 <;> exact again _ _

/-! ## Addresses (R411) -/

theorem nametableAddr_eq_ofNat (v : ScrollReg) : nametableAddr v = BitVec.ofNat 14 (0x2000 + v.toNat % 0x1000) := by
  apply BitVec.eq_of_toNat_eq
  have low : (Scroll.address v &&& 0x0FFF).toNat = v.toNat % 0x1000 := by
    rw [BitVec.toNat_and, Scroll.address_toNat, show (0x0FFF : PpuAddr).toNat = 2 ^ 12 - 1 from rfl,
      Nat.and_two_pow_sub_one_eq_mod]
    omega
  rw [nametableAddr, BitVec.toNat_or, low, BitVec.toNat_ofNat]
  have disjoint := Nat.two_pow_add_eq_or_of_lt (show v.toNat % 0x1000 < 2 ^ 13 by omega) 1
  rw [show (0x2000 : PpuAddr).toNat = 2 ^ 13 * 1 from rfl, ← disjoint]
  omega

theorem attributeAddr_eq_ofNat (v : ScrollReg) :
    attributeAddr v = BitVec.ofNat 14 (0x23C0 + 0x800 * nametableYOf v + 0x400 * nametableXOf v +
      8 * (coarseYOf v / 4) + coarseXOf v / 4) := by
  simp only [← Scroll.nametableX_toNat, ← Scroll.nametableY_toNat, ← Scroll.coarseX_toNat, ← Scroll.coarseY_toNat,
    attributeAddr]
  generalize Scroll.nametableY v = ny, Scroll.nametableX v = nx, Scroll.coarseY v = cy, Scroll.coarseX v = cx
  have hcy := cy.isLt
  have hcx := cx.isLt
  have table : ∀ ny nx : BitVec 1, (0x23C0 ||| (ny.setWidth 14 <<< 11) ||| (nx.setWidth 14 <<< 10) : PpuAddr).toNat =
      2 ^ 6 * (0x8F + 0x20 * ny.toNat + 0x10 * nx.toNat) := by decide
  have rows : ((cy.setWidth 14 >>> 2) <<< 3).toNat = 8 * (cy.toNat / 4) := by
    simp only [BitVec.toNat_shiftLeft, BitVec.toNat_ushiftRight, BitVec.toNat_setWidth, Nat.shiftLeft_eq,
      Nat.shiftRight_eq_div_pow]
    omega
  have columns : (cx.setWidth 14 >>> 2).toNat = cx.toNat / 4 := by
    simp only [BitVec.toNat_ushiftRight, BitVec.toNat_setWidth, Nat.shiftRight_eq_div_pow]
    omega
  have disjointRows : ∀ n, 2 ^ 6 * n ||| 8 * (cy.toNat / 4) = 2 ^ 3 * (8 * n + cy.toNat / 4) := fun n => by
    rw [← Nat.two_pow_add_eq_or_of_lt (by omega)]
    omega
  have disjointColumns : ∀ n, 2 ^ 3 * n ||| cx.toNat / 4 = 2 ^ 3 * n + cx.toNat / 4 := fun n =>
    (Nat.two_pow_add_eq_or_of_lt (by omega) n).symm
  apply BitVec.eq_of_toNat_eq
  rw [BitVec.toNat_or, BitVec.toNat_or, table, rows, columns, disjointRows, disjointColumns, BitVec.toNat_ofNat]
  omega

theorem attributeBits_eq_ofNat (v : ScrollReg) (a : Byte) : attributeBits v a =
    BitVec.ofNat 2 (a.toNat / 2 ^ (4 * (coarseYOf v / 2 % 2) + 2 * (coarseXOf v / 2 % 2))) := by
  have bit : ∀ b : BitVec 5, b.getLsbD 1 = decide (b.toNat / 2 % 2 = 1) := by decide
  apply BitVec.eq_of_toNat_eq
  rw [attributeBits, bit, bit, Scroll.coarseX_toNat, Scroll.coarseY_toNat]
  rcases Nat.mod_two_eq_zero_or_one (coarseYOf v / 2) with hy | hy <;>
    rcases Nat.mod_two_eq_zero_or_one (coarseXOf v / 2) with hx | hx <;>
    simp [hy, hx, Nat.shiftRight_eq_div_pow]

theorem patternTable_toNat (upper : Bool) : (patternTable upper).toNat = 0x1000 * upper.toNat := by
  cases upper <;> rfl

theorem Ppu.tileRowAddr_eq_ofNat (p : Ppu) : p.tileRowAddr = BitVec.ofNat 14 (tileRow p) := by
  apply BitVec.eq_of_toNat_eq
  have table := patternTable_toNat p.patternBackground
  have row := Scroll.fineY_toNat p.v
  have := p.bg.nextId.isLt
  have := (Scroll.fineY p.v).isLt
  have := Bool.toNat_le p.patternBackground
  simp only [Ppu.tileRowAddr, tileRow, BitVec.toNat_add, BitVec.toNat_shiftLeft, BitVec.toNat_setWidth,
    BitVec.toNat_ofNat, Nat.shiftLeft_eq]
  omega

/-! ## The fetch step of a dot (R411) -/

/-- The fetch step at a dot of the pipeline: the increment at the last of a tile's eight dots, and what the dot
fetches. -/
theorem Ppu.fetchStep_at_dot (c : Cartridge) (p : Ppu) (later : 1 ≤ p.cycle) :
    p.fetchStep c ((p.cycle - 1) % 8) =
      { p with v := if p.cycle % 8 = 0 ∧ p.rendering = true then nextX p.v else p.v, bg := fetchedAtDot c p p.bg } := by
  have position : (p.cycle - 1) % 8 = (p.cycle % 8 + 7) % 8 := by omega
  have high : BitVec.ofNat 14 (tileRow p) + 8 = BitVec.ofNat 14 (tileRow p + 8) := (BitVec.ofNat_add ..).symm
  have range := Nat.mod_lt p.cycle (show 8 > 0 by decide)
  simp only [position, Ppu.fetchStep, fetchedAtDot, Ppu.loadShifters_eq, Ppu.incrementScrollX_eq_ite,
    nametableAddr_eq_ofNat, attributeAddr_eq_ofNat, attributeBits_eq_ofNat, Ppu.tileRowAddr_eq_ofNat, high]
  generalize p.cycle % 8 = k at range ⊢
  interval_cases k
  · simp only [true_and]
    rfl
  all_goals rfl

end Sys2Proof.Machine
end

