-- ==== Sys2Proof/Proofs/SpriteBuffer.lean ====
section
/-! The sprite buffer's operations (R417, R424 to R426): the scan of OAM is a filter cut at eight records, the
operations on valid records reach exactly the first `count`, and a pattern fetch reads the record's row. -/

namespace Sys2Proof.Machine

open Sys2Proof.Claims

/-! ## A flag of `status` -/

/-- A bit of `status` after one of its flags is set under a condition. -/
theorem ite_setBit_getLsbD (P : Prop) [Decidable P] (b : Byte) (i : Nat) {j : Nat} (hj : j < 8) :
    (if P then setBit b i true else b).getLsbD j = if i = j then b.getLsbD j || decide P else b.getLsbD j := by
  by_cases hP : P
  · rw [if_pos hP, getLsbD_setBit _ _ _ _ hj, decide_eq_true hP, Bool.or_true]
  · rw [if_neg hP, decide_eq_false hP, Bool.or_false, ite_self]

/-! ## Evaluation (R424, R425) -/

/-- The scan over `fuel` records from record `n` on selects the first `room` of those on the scanline, and reports
whether there are more. -/
theorem scanOam_eq_filter (oam : Memory 8) (s h : Int) : ∀ fuel n room,
    scanOam oam s h fuel n room =
      ((((List.range' n fuel).filter (inRange oam s h)).take room).map (oamRecord oam),
        decide (room < ((List.range' n fuel).filter (inRange oam s h)).length))
  | 0, _, _ => by simp [scanOam]
  | fuel + 1, n, room => by
    rw [List.range'_succ, List.filter_cons]
    by_cases on : inRange oam s h n = true
    · have onLine := of_decide_eq_true on
      rw [if_pos on]
      cases room with
      | zero =>
        have more : scanOam oam s h (fuel + 1) n 0 = ([], true) := if_pos onLine
        simp [more]
      | succ room =>
        have selected : scanOam oam s h (fuel + 1) n (room + 1) =
          (oamRecord oam n :: (scanOam oam s h fuel (n + 1) room).1, (scanOam oam s h fuel (n + 1) room).2) :=
          if_pos onLine
        simp [selected, scanOam_eq_filter oam s h fuel (n + 1) room]
    · have skipped : scanOam oam s h (fuel + 1) n room = scanOam oam s h fuel (n + 1) room :=
        if_neg fun onLine => on (decide_eq_true onLine)
      rw [if_neg on, skipped, scanOam_eq_filter oam s h fuel (n + 1) room]

/-- The sprite pipeline after evaluation for scanline `s` (R424). -/
def evaluatedSprites (p : Ppu) (s : Int) : Sprites :=
  { slots := ((inRangeRecords p s).take 8).map (oamRecord p.oam) ++
      List.replicate (8 - (inRangeRecords p s).length) SpriteSlot.blank
    count := min 8 (inRangeRecords p s).length
    zeroPossible := decide (0 ∈ inRangeRecords p s)
    zeroRendered := p.sprites.zeroRendered }

theorem inRange_zero_eq_mem (p : Ppu) (s : Int) :
    inRange p.oam s p.spriteHeight 0 = decide (0 ∈ inRangeRecords p s) := by
  have filtered : inRangeRecords p s = (List.range 64).filter (inRange p.oam s p.spriteHeight) := rfl
  rw [filtered]
  simp

/-- Evaluation refills the sprite buffer, and sets the overflow flag if a ninth record is on the scanline. -/
theorem Ppu.evaluateSprites_eq_evaluated (p : Ppu) (s : Int) : p.evaluateSprites s =
    { p with sprites := evaluatedSprites p s,
             status := if 8 < (inRangeRecords p s).length then setBit p.status 5 true else p.status } := by
  have filtered : (List.range' 0 64).filter (inRange p.oam s p.spriteHeight) = inRangeRecords p s := by
    rw [← List.range_eq_range']; rfl
  have room : 8 - min 8 (inRangeRecords p s).length = 8 - (inRangeRecords p s).length := by omega
  simp only [Ppu.evaluateSprites, scanOam_eq_filter, filtered, inRange_zero_eq_mem, Sprites.refill,
    List.length_map, List.length_take, room, Ppu.when, decide_eq_true_eq]
  split_ifs <;> rfl

/-- What evaluation has to leave, part by part of the sprite pipeline. -/
theorem evaluated_of_evaluatedSprites {p q : Ppu} {s : Int} (slots : q.sprites.slots = (evaluatedSprites p s).slots)
    (count : q.sprites.count = (evaluatedSprites p s).count)
    (zeroPossible : q.sprites.zeroPossible = (evaluatedSprites p s).zeroPossible)
    (overflow : q.spriteOverflow = (p.spriteOverflow || decide (8 < (inRangeRecords p s).length))) :
    Evaluated s p q :=
  ⟨slots, count, zeroPossible, overflow⟩

/-! ## The valid records -/

theorem mapFirst_getElem? {α : Type} (f : α → α) : ∀ (n i : Nat) (l : List α),
    (mapFirst f n l)[i]? = if i < n then l[i]?.map f else l[i]?
  | 0, _, _ => rfl
  | _ + 1, _, [] => by simp [mapFirst]
  | _ + 1, 0, _ :: _ => by simp [mapFirst]
  | n + 1, i + 1, _ :: l => by
    simpa only [mapFirst, List.getElem?_cons_succ, Nat.add_lt_add_iff_right] using mapFirst_getElem? f n i l

/-! ## The pattern fetch (R426) -/

theorem reverse8_getLsbD (b : Byte) {j : Nat} (hj : j < 8) : (reverse8 b).getLsbD j = b.getLsbD (7 - j) := by
  simp only [reverse8, BitVec.getLsbD_append]
  interval_cases j <;> simp

/-- The three parts of a pattern address do not overlap (R372). -/
theorem patternAddr_eq_ofNat (upper : Bool) (tile : Byte) {row : Nat} (hrow : row < 8) :
    patternTable upper ||| (tile.setWidth 14 <<< 4) ||| BitVec.ofNat 14 row =
      BitVec.ofNat 14 (0x1000 * upper.toNat + 16 * tile.toNat + row) := by
  have htile := tile.isLt
  have hupper := Bool.toNat_le upper
  have tileRow : (tile.setWidth 14 <<< 4 : PpuAddr).toNat = 16 * tile.toNat := by
    simp only [BitVec.toNat_shiftLeft, BitVec.toNat_setWidth, Nat.shiftLeft_eq]
    omega
  have disjointTile : 0x1000 * upper.toNat ||| 16 * tile.toNat = 2 ^ 4 * (0x100 * upper.toNat + tile.toNat) := by
    rw [show 0x1000 * upper.toNat = 2 ^ 12 * upper.toNat from rfl, ← Nat.two_pow_add_eq_or_of_lt (by omega)]
    omega
  have disjointRow : 2 ^ 4 * (0x100 * upper.toNat + tile.toNat) ||| row =
      2 ^ 4 * (0x100 * upper.toNat + tile.toNat) + row := (Nat.two_pow_add_eq_or_of_lt (by omega) _).symm
  apply BitVec.eq_of_toNat_eq
  rw [BitVec.toNat_or, BitVec.toNat_or, patternTable_toNat, tileRow, BitVec.toNat_ofNat,
    Nat.mod_eq_of_lt (show row < 2 ^ 14 by omega), disjointTile, disjointRow, BitVec.toNat_ofNat]
  omega

theorem and_evenMask_toNat (b : Byte) : (b &&& 0xFE).toNat = b.toNat / 2 * 2 := by
  have even : b &&& (0xFE : Byte) = (b >>> 1) <<< 1 := by
    refine BitVec.eq_of_getLsbD_eq fun i hi => ?_
    interval_cases i <;> simp
  rw [even]
  simp only [BitVec.toNat_shiftLeft, BitVec.toNat_ushiftRight, Nat.shiftLeft_eq, Nat.shiftRight_eq_div_pow]
  omega

/-- The tile of an 8 by 16 sprite: of the pair that `id` names, the upper one if `top` (R426). -/
theorem tallTile_toNat (id : Byte) (top : Bool) :
    ((id &&& 0xFE) + (if top then 0 else 1) : Byte).toNat = id.toNat / 2 * 2 + (!top).toNat := by
  have := id.isLt
  rw [BitVec.toNat_add, and_evenMask_toNat]
  cases top <;> exact Nat.mod_eq_of_lt (by simp; omega)

/-- Vertical flip of an 8 by 16 sprite turns its 16 rows round: which tile of the pair, and which row of it. -/
theorem tallRow_eq {row : Nat} (height : row < 16) (flip : Bool) :
    (!xor (decide (row < 8)) flip).toNat = (if flip then 15 - row else row) / 8 ∧
      (if flip then 7 - row % 8 else row % 8) = (if flip then 15 - row else row) % 8 := by
  cases flip <;> by_cases upper : row < 8 <;> simp [upper] <;> omega

/-- Where a record's row is within the sprite's height, the fetch reads that row (R426). -/
theorem Ppu.spriteRowAddr_eq_ofNat {p : Ppu} {r : SpriteSlot} (inside : HasPatternRow p r) :
    p.spriteRowAddr p.scanline r = BitVec.ofNat 14 (patternRow p r (spriteRow p r).toNat) := by
  obtain ⟨above, below⟩ := inside
  have distance : p.scanline - (r.y.toNat : Int) = spriteRow p r := rfl
  rw [Ppu.spriteRowAddr, patternRow, distance]
  obtain ⟨row, eq⟩ := Int.eq_ofNat_of_zero_le above
  rw [eq] at below ⊢
  simp only [Int.toNat_natCast]
  cases tall : p.tallSprites
  case true =>
    have height : row < 16 := by rw [tall] at below; simpa using below
    rw [if_pos rfl, if_pos rfl, patternAddr_eq_ofNat _ _ (by split_ifs <;> omega), getLsbD_zero_toNat, tallTile_toNat]
    obtain ⟨tile, line⟩ := tallRow_eq height (r.attr.getLsbD 7)
    rw [tile, line]
  case false =>
    have height : row < 8 := by rw [tall] at below; simpa using below
    cases r.attr.getLsbD 7
    · exact patternAddr_eq_ofNat _ _ height
    · have flipped : (if row ≤ 7 then BitVec.ofNat 14 (7 - row) else Config.flippedRowPastTile row) =
          BitVec.ofNat 14 (7 - row) := if_pos (by omega)
      simp only [flipped]
      exact patternAddr_eq_ofNat _ _ (by omega)

theorem Ppu.fetchSprite_patternFetched (c : Cartridge) {p : Ppu} {r : SpriteSlot} (inside : HasPatternRow p r) :
    PatternFetched c p r (p.fetchSprite c p.scanline r) := by
  intro j hj
  have high : BitVec.ofNat 14 (patternRow p r (spriteRow p r).toNat) + 8 =
      BitVec.ofNat 14 (patternRow p r (spriteRow p r).toNat + 8) := (BitVec.ofNat_add ..).symm
  refine ⟨_, rfl, ?_⟩
  rw [Ppu.fetchSprite, Ppu.spriteRowAddr_eq_ofNat inside, high]
  cases r.attr.getLsbD 6
  · exact ⟨rfl, rfl⟩
  · exact ⟨reverse8_getLsbD _ hj, reverse8_getLsbD _ hj⟩

theorem Ppu.fetchSprite_eq_withPatterns (c : Cartridge) (p : Ppu) (s : Int) (r : SpriteSlot) :
    p.fetchSprite c s r = { r with patLo := (p.fetchSprite c s r).patLo, patHi := (p.fetchSprite c s r).patHi } := by
  unfold Ppu.fetchSprite
  cases r.attr.getLsbD 6 <;> rfl

end Sys2Proof.Machine
end

