-- ==== Sys2Proof/Proofs/DotSteps.lean ====
section
/-! One dot of the picture unit as a whole (R402, R403). Step 1 of the clock works on four parts of the unit, `v`, the
background pipeline, the sprite pipeline and `status`; each part after the step is stated once as a function of the
unit before it. The three steps after it change `status`, the line, the frame buffer, `zero_rendered` and the
coordinates alone. -/

namespace Sys2Proof.Machine

open Sys2Proof.Claims

/-! ## The parts after step 1 -/

/-- The dot at which the status flags and the sprite patterns are cleared (R404). -/
abbrev ClearDot (p : Ppu) : Prop := p.scanline = -1 ∧ p.cycle = 1

/-- `v` after step 1. -/
def vAtDot (p : Ppu) : ScrollReg := if p.rendering = true then scrolledAtDot p else p.v

/-- The background pipeline after step 1. -/
def backgroundAtDot (c : Cartridge) (p : Ppu) : Background :=
  if PipelineDot p then fetchedAtDot c p (shiftedBackground p) else p.bg

/-- The sprite pipeline after step 1. -/
def spritesAtDot (c : Cartridge) (p : Ppu) : Sprites :=
  if EvaluationDot p then evaluatedSprites p p.scanline
  else if SpriteFetchDot p then (p.fetchSprites c p.scanline).sprites
  else if ClearDot p then p.clearFlags.sprites
  else if SpriteShiftDot p then p.tickSprites.sprites
  else p.sprites

/-- `status` after step 1. -/
def statusAtDot (p : Ppu) : Byte :=
  if ClearDot p then p.clearFlags.status
  else if EvaluationDot p ∧ 8 < (inRangeRecords p p.scanline).length then setBit p.status 5 true
  else p.status

namespace Ppu

/-- The unit after step 1 of the dot (R403). -/
def rendered (c : Cartridge) (p : Ppu) : Ppu :=
  p.when (decide (-1 ≤ p.scanline ∧ p.scanline ≤ 239)) (renderStep c p.scanline p.cycle)

/-- The unit with the parts that step 1 works on replaced. -/
def setPipelines (p : Ppu) (v : ScrollReg) (bg : Background) (sprites : Sprites) (status : Byte) : Ppu :=
  { p with v, bg, sprites, status }

/-! ## Conditional operations -/

theorem when_pos {P : Prop} [Decidable P] {f : Ppu → Ppu} {p : Ppu} (h : P) : p.when (decide P) f = f p := by
  rw [when, if_pos (decide_eq_true h)]

theorem when_neg {P : Prop} [Decidable P] {f : Ppu → Ppu} {p : Ppu} (h : ¬P) : p.when (decide P) f = p := by
  rw [when, decide_eq_false h]
  rfl

/-! ## Each operation of step 1 on the four parts

The operations that act alone at their dot are stated for any unit; those that follow another one at dots 256 and 257
for a unit whose parts that one has replaced. -/

theorem clearFlags_eq_setPipelines (p : Ppu) :
    p.clearFlags = p.setPipelines p.v p.bg p.clearFlags.sprites p.clearFlags.status := rfl

theorem fetchSprites_eq_setPipelines (c : Cartridge) (p : Ppu) (s : Int) :
    p.fetchSprites c s = p.setPipelines p.v p.bg (p.fetchSprites c s).sprites p.status := rfl

theorem transferY_eq_setPipelines (p : Ppu) : p.transferY =
    p.setPipelines (if p.rendering = true then withVertical p.t p.v else p.v) p.bg p.sprites p.status :=
  transferY_eq_ite p

/-- The shift of a dot: of the background while it is shown, of the sprites at the dots of a visible line while they
are (R417). -/
theorem updateShifters_eq_setPipelines (p : Ppu) (cy : Nat) : p.updateShifters cy =
    p.setPipelines p.v (shiftedBackground p)
      (if p.showSprites = true ∧ 1 ≤ cy ∧ cy ≤ 257 then p.tickSprites.sprites else p.sprites) p.status := by
  have background : p.when p.showBackground shiftBackground =
      p.setPipelines p.v (shiftedBackground p) p.sprites p.status := by
    unfold shiftedBackground when
    cases p.showBackground <;> rfl
  have shown : (p.setPipelines p.v (shiftedBackground p) p.sprites p.status).showSprites = p.showSprites := rfl
  have condition : (p.showSprites && decide (1 ≤ cy ∧ cy ≤ 257)) =
      decide (p.showSprites = true ∧ 1 ≤ cy ∧ cy ≤ 257) := by simp
  simp only [updateShifters, background, shown, condition]
  by_cases ticks : p.showSprites = true ∧ 1 ≤ cy ∧ cy ≤ 257
  · rw [when_pos ticks, if_pos ticks]
    rfl
  · rw [when_neg ticks, if_neg ticks]

/-- A fetch reads the registers and memories, `v` and the latches, none of which the shift changes. -/
theorem fetchedAtDot_setPipelines (c : Cartridge) (p : Ppu) (sp : Sprites) :
    fetchedAtDot c (p.setPipelines p.v (shiftedBackground p) sp p.status) (shiftedBackground p) =
      fetchedAtDot c p (shiftedBackground p) := by
  have id : (shiftedBackground p).nextId = p.bg.nextId := by
    unfold shiftedBackground
    cases p.showBackground <;> rfl
  have row : tileRow (p.setPipelines p.v (shiftedBackground p) sp p.status) = tileRow p :=
    congrArg (fun id : Byte => 0x1000 * p.patternBackground.toNat + 16 * id.toNat + fineYOf p.v) id
  unfold fetchedAtDot
  rw [row]
  rfl

/-- Shift and fetch of a dot of the pipeline's windows (R411, R417). -/
theorem fetchStep_updateShifters (c : Cartridge) (p : Ppu) (later : 1 ≤ p.cycle) :
    (p.updateShifters p.cycle).fetchStep c ((p.cycle - 1) % 8) =
      p.setPipelines (if p.cycle % 8 = 0 ∧ p.rendering = true then nextX p.v else p.v)
        (fetchedAtDot c p (shiftedBackground p))
        (if p.showSprites = true ∧ 1 ≤ p.cycle ∧ p.cycle ≤ 257 then p.tickSprites.sprites else p.sprites)
        p.status := by
  rw [updateShifters_eq_setPipelines, ← fetchedAtDot_setPipelines]
  exact fetchStep_at_dot c (p.setPipelines _ _ _ _) later

section
variable {p : Ppu} {v : ScrollReg} {b : Background} {sp : Sprites} {st : Byte}

theorem incrementScrollY_setPipelines : (p.setPipelines v b sp st).incrementScrollY =
    p.setPipelines (if p.rendering = true then nextY v else v) b sp st :=
  incrementScrollY_eq_ite _

theorem loadShifters_transferX_setPipelines : (p.setPipelines v b sp st).loadShifters.transferX =
    p.setPipelines (if p.rendering = true then withHorizontal p.t v else v) (reloaded b) sp st := by
  rw [loadShifters_eq, transferX_eq_ite]
  rfl

theorem evaluateSprites_setPipelines (s : Int) (kept : sp.zeroRendered = p.sprites.zeroRendered) :
    (p.setPipelines v b sp st).evaluateSprites s =
      p.setPipelines v b (evaluatedSprites p s)
        (if 8 < (inRangeRecords p s).length then setBit st 5 true else st) := by
  rw [evaluatedSprites, ← kept]
  exact evaluateSprites_eq_evaluated _ s

end

/-! ## Step 1 as a whole -/

/-- At dot 257 the tile is reloaded twice, by the fetch step and by the dot itself (R410). -/
theorem reloaded_fetchedAtDot (c : Cartridge) {p : Ppu} (copy : p.cycle = 257) (b : Background) :
    reloaded (fetchedAtDot c p b) = fetchedAtDot c p b := by
  have first : p.cycle % 8 = 1 := by omega
  rw [fetchedAtDot, if_pos first, reloaded_reloaded]

/-- In the pipeline's windows every dot shifts and fetches; dots 256 and 257 have their own operations besides. -/
theorem renderStep_of_window (c : Cartridge) (p : Ppu) (line : -1 ≤ p.scanline ∧ p.scanline ≤ 239)
    (window : (2 ≤ p.cycle ∧ p.cycle ≤ 257) ∨ (321 ≤ p.cycle ∧ p.cycle ≤ 337)) :
    renderStep c p.scanline p.cycle p =
      p.setPipelines (vAtDot p) (backgroundAtDot c p) (spritesAtDot c p) (statusAtDot p) := by
  have noClear : ¬ClearDot p := by omega
  unfold renderStep vAtDot scrolledAtDot backgroundAtDot spritesAtDot statusAtDot
  simp only
  rw [when_neg noClear, when_pos window, fetchStep_updateShifters c p (by omega)]
  by_cases last : p.cycle = 256
  · rw [when_pos last, when_neg (by omega), when_neg (by omega), when_neg (by omega), when_neg (by omega),
      incrementScrollY_setPipelines]
    congr 1 <;> grind
  rw [when_neg last]
  by_cases copy : p.cycle = 257
  · rw [when_pos copy, when_neg (by omega), loadShifters_transferX_setPipelines, reloaded_fetchedAtDot c copy]
    by_cases visible : 0 ≤ p.scanline
    · have kept : ∀ P : Prop, ∀ [Decidable P],
          (if P then p.tickSprites.sprites else p.sprites).zeroRendered = p.sprites.zeroRendered := by
        intro P _
        split_ifs <;> rfl
      rw [when_pos ⟨copy, visible⟩, when_neg (by omega), evaluateSprites_setPipelines p.scanline (kept _)]
      congr 1 <;> grind
    · rw [when_neg (by omega), when_neg (by omega)]
      congr 1 <;> grind
  · rw [when_neg copy, when_neg (by omega), when_neg (by omega), when_neg (by omega)]
    congr 1 <;> grind

/-- Outside the windows a dot has at most one operation. -/
theorem renderStep_of_not_window (c : Cartridge) (p : Ppu) (line : -1 ≤ p.scanline ∧ p.scanline ≤ 239)
    (outside : ¬((2 ≤ p.cycle ∧ p.cycle ≤ 257) ∨ (321 ≤ p.cycle ∧ p.cycle ≤ 337))) :
    renderStep c p.scanline p.cycle p =
      p.setPipelines (vAtDot p) (backgroundAtDot c p) (spritesAtDot c p) (statusAtDot p) := by
  unfold renderStep vAtDot scrolledAtDot backgroundAtDot spritesAtDot statusAtDot
  simp only
  rw [when_neg outside]
  by_cases clear : ClearDot p
  · rw [when_pos clear, when_neg (by omega), when_neg (by omega), when_neg (by omega), when_neg (by omega),
      when_neg (by omega)]
    refine p.clearFlags_eq_setPipelines.trans ?_
    congr 1 <;> grind
  rw [when_neg clear]
  by_cases vertical : p.scanline = -1 ∧ 280 ≤ p.cycle ∧ p.cycle ≤ 304
  · rw [when_pos vertical, when_neg (by omega), when_neg (by omega), when_neg (by omega), when_neg (by omega),
      transferY_eq_setPipelines]
    congr 1 <;> grind
  rw [when_neg vertical]
  by_cases fetch : p.cycle = 340 ∧ 0 ≤ p.scanline
  · rw [when_pos fetch, when_neg (by omega), when_neg (by omega), when_neg (by omega)]
    refine (p.fetchSprites_eq_setPipelines c p.scanline).trans ?_
    congr 1 <;> grind
  · rw [when_neg fetch, when_neg (by omega), when_neg (by omega), when_neg (by omega)]
    show p.setPipelines p.v p.bg p.sprites p.status = _
    congr 1 <;> grind

/-- The unit after step 1 of the dot, at every dot. -/
theorem rendered_eq_setPipelines (c : Cartridge) (p : Ppu) :
    p.rendered c = p.setPipelines (vAtDot p) (backgroundAtDot c p) (spritesAtDot c p) (statusAtDot p) := by
  by_cases line : -1 ≤ p.scanline ∧ p.scanline ≤ 239
  · rw [rendered, when_pos line]
    by_cases window : (2 ≤ p.cycle ∧ p.cycle ≤ 257) ∨ (321 ≤ p.cycle ∧ p.cycle ≤ 337)
    · exact renderStep_of_window c p line window
    · exact renderStep_of_not_window c p line window
  · rw [rendered, when_neg line]
    unfold vAtDot scrolledAtDot backgroundAtDot spritesAtDot statusAtDot
    show p.setPipelines p.v p.bg p.sprites p.status = _
    congr 1 <;> grind

/-! ## The whole dot -/

theorem clock_eq_rendered (c : Cartridge) (p : Ppu) : p.clock c =
    (((p.rendered c).when (decide (p.scanline = 241 ∧ p.cycle = 1)) startVBlank).when
      (decide (VisibleDot p)) fun q => q.composePixel c p.scanline p.cycle).advance := rfl

/-- At (241, 1) step 1 does nothing (R441). -/
theorem clock_of_vBlankDot (c : Cartridge) {p : Ppu} (start : p.scanline = 241 ∧ p.cycle = 1) :
    p.clock c = p.startVBlank.advance := by
  rw [clock_eq_rendered, when_pos start, when_neg (by omega), rendered, when_neg (by omega)]

theorem clock_of_visibleDot (c : Cartridge) {p : Ppu} (visible : VisibleDot p) :
    p.clock c = ((p.rendered c).composePixel c p.scanline p.cycle).advance := by
  rw [clock_eq_rendered, when_pos visible, when_neg (by omega)]

theorem clock_of_otherDot (c : Cartridge) {p : Ppu} (quiet : ¬(p.scanline = 241 ∧ p.cycle = 1))
    (hidden : ¬VisibleDot p) : p.clock c = (p.rendered c).advance := by
  rw [clock_eq_rendered, when_neg quiet, when_neg hidden]

/-- After step 1 the dot changes `status`, the line, the frame buffer, `zero_rendered`, the coordinates and
`frame_complete` alone. -/
theorem clock_eq_setPipelines (c : Cartridge) (p : Ppu) : p.clock c =
    { p.setPipelines (vAtDot p) (backgroundAtDot c p)
        { spritesAtDot c p with zeroRendered := (p.clock c).sprites.zeroRendered } (p.clock c).status with
      nmiLine := (p.clock c).nmiLine, fb := (p.clock c).fb, scanline := (p.clock c).scanline
      cycle := (p.clock c).cycle, frameComplete := (p.clock c).frameComplete } := by
  by_cases start : p.scanline = 241 ∧ p.cycle = 1
  · rw [clock_eq_rendered, when_pos start, when_neg (by omega), rendered_eq_setPipelines]
    unfold startVBlank when advance
    simp only
    split_ifs <;> rfl
  by_cases visible : VisibleDot p
  · rw [clock_of_visibleDot c visible, rendered_eq_setPipelines]
    unfold composePixel when advance
    simp only
    split_ifs <;> rfl
  · rw [clock_of_otherDot c start visible, rendered_eq_setPipelines]
    unfold advance
    split_ifs <;> rfl

end Ppu

end Sys2Proof.Machine
end

