-- ==== Sys2Proof/Proofs/DotPipelines.lean ====
section
/-! What a dot leaves in the background pipeline, the sprite buffer and the status flags (R404, R410 to R417, R424 to
R426): the parts of the unit after step 1, read off kind of dot by kind of dot. -/

namespace Sys2Proof.Machine

open Sys2Proof.Claims

namespace Ppu

variable (c : Cartridge) (p : Ppu)

/-! ## Parts of the unit after the dot -/

theorem clock_v : (p.clock c).v = vAtDot p := congrArg Ppu.v (p.clock_eq_setPipelines c)

theorem clock_bg : (p.clock c).bg = backgroundAtDot c p := congrArg Ppu.bg (p.clock_eq_setPipelines c)

theorem clock_oam : (p.clock c).oam = p.oam := (congrArg Ppu.oam (p.clock_eq_setPipelines c)).trans rfl

theorem clock_slots : (p.clock c).sprites.slots = (spritesAtDot c p).slots :=
  congrArg (fun q : Ppu => q.sprites.slots) (p.clock_eq_setPipelines c)

theorem clock_count : (p.clock c).sprites.count = (spritesAtDot c p).count :=
  congrArg (fun q : Ppu => q.sprites.count) (p.clock_eq_setPipelines c)

theorem clock_zeroPossible : (p.clock c).sprites.zeroPossible = (spritesAtDot c p).zeroPossible :=
  congrArg (fun q : Ppu => q.sprites.zeroPossible) (p.clock_eq_setPipelines c)

/-! ## The status and the line after the dot -/

@[simp] theorem advance_status : p.advance.status = p.status := by rw [advance_eq]
@[simp] theorem advance_nmiLine : p.advance.nmiLine = p.nmiLine := by rw [advance_eq]
@[simp] theorem advance_sprites : p.advance.sprites = p.sprites := by rw [advance_eq]
@[simp] theorem advance_fb : p.advance.fb = p.fb := by rw [advance_eq]

/-! Composing a pixel writes one pixel, `zero_rendered` and, on a hit, one flag (R431, R436, R438). -/

/-- Whether composing the pixel at dot `cy` sets `sprite_zero_hit` (R436). -/
def hitAt (cy : Nat) : Bool :=
  (p.setZeroRendered ((p.spritePixel cy).first && p.sprites.zeroPossible)).zeroHit cy (p.backgroundPixel cy)
    (p.spritePixel cy)

theorem composePixel_eq_writes (s : Int) (cy : Nat) : p.composePixel c s cy =
    { p with
      fb := p.fb.write (256 * s.toNat + (cy - 1)) (p.colour c (combine (p.backgroundPixel cy) (p.spritePixel cy)))
      status := if p.hitAt cy = true then setBit p.status 6 true else p.status
      sprites := { p.sprites with zeroRendered := (p.spritePixel cy).first && p.sprites.zeroPossible } } := by
  unfold composePixel hitAt when
  simp only
  split_ifs <;> rfl

variable {p}

theorem clock_nmiLine_of_quiet (quiet : ¬(p.scanline = 241 ∧ p.cycle = 1)) : (p.clock c).nmiLine = p.nmiLine := by
  by_cases visible : VisibleDot p
  · rw [clock_of_visibleDot c visible, advance_nmiLine, composePixel_eq, rendered_eq_setPipelines]
    rfl
  · rw [clock_of_otherDot c quiet visible, advance_nmiLine, rendered_eq_setPipelines]
    rfl

theorem clock_status_of_start (start : p.scanline = 241 ∧ p.cycle = 1) :
    (p.clock c).status = setBit p.status 7 true := by
  rw [clock_of_vBlankDot c start, advance_status]
  exact when_keeps Ppu.status _ rfl

theorem clock_nmiLine_of_start (start : p.scanline = 241 ∧ p.cycle = 1) :
    (p.clock c).nmiLine = (p.nmiLine || p.enableNmi) := by
  have enabled : (p.setVerticalBlank true).enableNmi = p.enableNmi := rfl
  rw [clock_of_vBlankDot c start, advance_nmiLine, startVBlank, enabled]
  cases p.enableNmi
  · exact (Bool.or_false _).symm
  · exact (Bool.or_true _).symm

theorem clock_status_of_visible (visible : VisibleDot p) : (p.clock c).status =
    if (p.rendered c).hitAt p.cycle = true then setBit p.status 6 true else p.status := by
  have kept : (p.rendered c).status = p.status := by
    rw [rendered_eq_setPipelines]
    show statusAtDot p = _
    rw [statusAtDot, if_neg (by omega), if_neg (by omega)]
  rw [clock_of_visibleDot c visible, advance_status, composePixel_eq_writes, kept]

theorem clock_status_of_other (quiet : ¬(p.scanline = 241 ∧ p.cycle = 1)) (hidden : ¬VisibleDot p) :
    (p.clock c).status = statusAtDot p := by
  rw [clock_of_otherDot c quiet hidden, advance_status, rendered_eq_setPipelines]
  rfl

theorem statusAtDot_of_not_clear (kept : ¬ClearDot p) : statusAtDot p =
    if EvaluationDot p ∧ 8 < (inRangeRecords p p.scanline).length then setBit p.status 5 true else p.status :=
  if_neg kept

theorem clock_verticalBlank (quiet : ¬(p.scanline = 241 ∧ p.cycle = 1)) (kept : ¬ClearDot p) :
    (p.clock c).verticalBlank = p.verticalBlank := by
  rw [verticalBlank]
  by_cases visible : VisibleDot p
  · rw [clock_status_of_visible c visible, ite_setBit_getLsbD _ _ _ (by decide)]
    rfl
  · rw [clock_status_of_other c quiet visible, statusAtDot_of_not_clear kept, ite_setBit_getLsbD _ _ _ (by decide)]
    rfl

/-- The overflow flag becomes set at the evaluation dot alone, when a ninth record is on the scanline (R425). -/
theorem clock_spriteOverflow (kept : ¬ClearDot p) : (p.clock c).spriteOverflow =
    (p.spriteOverflow || decide (EvaluationDot p ∧ 8 < (inRangeRecords p p.scanline).length)) := by
  have elsewhere (h : ¬EvaluationDot p) :
      decide (EvaluationDot p ∧ 8 < (inRangeRecords p p.scanline).length) = false :=
    decide_eq_false fun both => h both.1
  rw [spriteOverflow]
  by_cases start : p.scanline = 241 ∧ p.cycle = 1
  · rw [clock_status_of_start c start, getLsbD_setBit _ _ _ _ (by decide), elsewhere (by omega), Bool.or_false]
    rfl
  by_cases visible : VisibleDot p
  · rw [clock_status_of_visible c visible, ite_setBit_getLsbD _ _ _ (by decide), elsewhere (by omega), Bool.or_false]
    rfl
  · rw [clock_status_of_other c start visible, statusAtDot_of_not_clear kept, ite_setBit_getLsbD _ _ _ (by decide)]
    rfl

theorem clock_spriteZeroHit_of_visible (visible : VisibleDot p) :
    (p.clock c).spriteZeroHit = (p.spriteZeroHit || (p.rendered c).hitAt p.cycle) := by
  rw [spriteZeroHit, clock_status_of_visible c visible, ite_setBit_getLsbD _ _ _ (by decide), Bool.decide_coe]
  rfl

theorem clock_spriteZeroHit_of_hidden (kept : ¬ClearDot p) (hidden : ¬VisibleDot p) :
    (p.clock c).spriteZeroHit = p.spriteZeroHit := by
  rw [spriteZeroHit]
  by_cases start : p.scanline = 241 ∧ p.cycle = 1
  · rw [clock_status_of_start c start, getLsbD_setBit _ _ _ _ (by decide)]
    rfl
  · rw [clock_status_of_other c start hidden, statusAtDot_of_not_clear kept, ite_setBit_getLsbD _ _ _ (by decide)]
    rfl

theorem clearFlags_status_getLsbD {j : Nat} (hj : j < 8) : p.clearFlags.status.getLsbD j =
    if 6 = j then false else if 5 = j then false else if 7 = j then false else p.status.getLsbD j := by
  have cleared : p.clearFlags.status = setBit (setBit (setBit p.status 7 false) 5 false) 6 false := rfl
  rw [cleared, getLsbD_setBit _ _ _ _ hj, getLsbD_setBit _ _ _ _ hj, getLsbD_setBit _ _ _ _ hj]

/-- At (-1, 1) the three flags are cleared (R404). -/
theorem clock_of_clear (clear : ClearDot p) : (p.clock c).verticalBlank = false ∧
    (p.clock c).spriteOverflow = false ∧ (p.clock c).spriteZeroHit = false := by
  rw [verticalBlank, spriteOverflow, spriteZeroHit, clock_status_of_other c (by omega) (by omega), statusAtDot,
    if_pos clear]
  exact ⟨clearFlags_status_getLsbD (by decide), clearFlags_status_getLsbD (by decide),
    clearFlags_status_getLsbD (by decide)⟩

/-! ## The sprite pipeline after step 1, dot by dot -/

theorem spritesAtDot_of_evaluation (evaluation : EvaluationDot p) :
    spritesAtDot c p = evaluatedSprites p p.scanline :=
  if_pos evaluation

theorem spritesAtDot_of_fetch (fetch : SpriteFetchDot p) :
    (spritesAtDot c p).slots = mapFirst (p.fetchSprite c p.scanline) p.sprites.count p.sprites.slots := by
  rw [spritesAtDot, if_neg (by omega), if_pos fetch]
  rfl

theorem spritesAtDot_of_clear (clear : ClearDot p) :
    (spritesAtDot c p).slots = p.sprites.slots.map SpriteSlot.clearPatterns := by
  rw [spritesAtDot, if_neg (by omega), if_neg (by omega), if_pos clear]
  rfl

theorem spritesAtDot_of_shift (shift : SpriteShiftDot p) (kept : ¬EvaluationDot p) :
    (spritesAtDot c p).slots = mapFirst SpriteSlot.tick p.sprites.count p.sprites.slots := by
  rw [spritesAtDot, if_neg kept, if_neg (by omega), if_neg (by omega), if_pos shift]
  rfl

theorem spritesAtDot_of_other (kept : ¬EvaluationDot p) (noFetch : ¬SpriteFetchDot p) (noClear : ¬ClearDot p)
    (noShift : ¬SpriteShiftDot p) : spritesAtDot c p = p.sprites := by
  rw [spritesAtDot, if_neg kept, if_neg noFetch, if_neg noClear, if_neg noShift]

/-- Only evaluation changes which records are valid. -/
theorem spritesAtDot_of_not_evaluation (kept : ¬EvaluationDot p) :
    (spritesAtDot c p).count = p.sprites.count ∧ (spritesAtDot c p).zeroPossible = p.sprites.zeroPossible ∧
      (spritesAtDot c p).slots.length = p.sprites.slots.length := by
  rw [spritesAtDot, if_neg kept]
  split_ifs with fetch clear shift
  · exact ⟨rfl, rfl, mapFirst_length ..⟩
  · exact ⟨rfl, rfl, List.length_map _⟩
  · exact ⟨rfl, rfl, mapFirst_length ..⟩
  · exact ⟨rfl, rfl, rfl⟩

end Ppu

/-! ## The obligations -/

/-- Settles O54: the flags of `status`, each at the dots that set or clear it. -/
theorem statusFlagChanges : Obligations.StatusFlagChanges := by
  unfold Obligations.StatusFlagChanges
  intro c p
  refine ⟨_, rfl, fun start => ?_, fun clear => ?_, fun quiet kept => ?_, fun kept => ?_⟩
  · refine ⟨?_, Ppu.clock_nmiLine_of_start c start⟩
    rw [Ppu.verticalBlank, Ppu.clock_status_of_start c start, getLsbD_setBit _ _ _ _ (by decide)]
    rfl
  · obtain ⟨vBlank, overflow, hit⟩ := Ppu.clock_of_clear c clear
    refine ⟨vBlank, overflow, hit, fun r hr => ?_, Ppu.clock_nmiLine_of_quiet c (by omega)⟩
    rw [Ppu.clock_slots, Ppu.spritesAtDot_of_clear c clear] at hr
    obtain ⟨r, -, rfl⟩ := List.mem_map.mp hr
    exact ⟨rfl, rfl⟩
  · exact ⟨Ppu.clock_verticalBlank c quiet kept, Ppu.clock_nmiLine_of_quiet c quiet⟩
  · refine ⟨Ppu.clock_spriteOverflow c kept, fun set => ?_, Ppu.clock_spriteZeroHit_of_hidden c kept⟩
    by_cases visible : VisibleDot p
    · rw [Ppu.clock_spriteZeroHit_of_visible c visible, set, Bool.true_or]
    · rw [Ppu.clock_spriteZeroHit_of_hidden c kept visible, set]

/-- Settles O57: evaluation is a filter of OAM cut at eight; at the other dots the buffer after step 1 is the valid
records fetched or shifted, all records cleared, or the buffer before. -/
theorem spritePipelineByDot : Obligations.SpritePipelineByDot := by
  unfold Obligations.SpritePipelineByDot
  refine ⟨fun p s => ?_, fun c p => ⟨_, rfl, p.clock_oam c, fun evaluation => ?_, fun kept => ?_,
    fun fetch i r hr => ?_, fun clear i r hr => ?_, fun shift kept i r hr => ?_,
    fun kept noFetch noClear noShift => ?_⟩⟩
  · have bit := fun j (hj : j < 8) => ite_setBit_getLsbD (8 < (inRangeRecords p s).length) p.status 5 hj
    rw [Ppu.evaluateSprites_eq_evaluated]
    exact ⟨evaluated_of_evaluatedSprites rfl rfl rfl (bit 5 (by decide)), bit 6 (by decide), bit 7 (by decide), rfl⟩
  · have overflow := Ppu.clock_spriteOverflow c (p := p) (by omega)
    have sprites := Ppu.spritesAtDot_of_evaluation c evaluation
    refine evaluated_of_evaluatedSprites ?_ ?_ ?_ ?_
    · rw [Ppu.clock_slots, sprites]
    · rw [Ppu.clock_count, sprites]
    · rw [Ppu.clock_zeroPossible, sprites]
    · rw [overflow, decide_eq_decide.mpr (and_iff_right evaluation)]
  · rw [Ppu.clock_count, Ppu.clock_zeroPossible, Ppu.clock_slots]
    exact Ppu.spritesAtDot_of_not_evaluation c kept
  · rw [Ppu.clock_slots, Ppu.spritesAtDot_of_fetch c fetch, mapFirst_getElem?, hr]
    by_cases valid : i < p.sprites.count
    · rw [if_pos valid]
      exact ⟨_, rfl, p.fetchSprite_eq_withPatterns c p.scanline r,
        fun _ inside => Ppu.fetchSprite_patternFetched c inside, fun invalid => absurd valid (Nat.not_lt.mpr invalid)⟩
    · rw [if_neg valid]
      exact ⟨r, rfl, rfl, fun h => absurd h valid, fun _ => rfl⟩
  · rw [Ppu.clock_slots, Ppu.spritesAtDot_of_clear c clear, List.getElem?_map, hr]
    rfl
  · rw [Ppu.clock_slots, Ppu.spritesAtDot_of_shift c shift kept, mapFirst_getElem?, hr]
    split_ifs <;> rfl
  · rw [Ppu.clock_slots, Ppu.spritesAtDot_of_other c kept noFetch noClear noShift]

/-- Settles O56: the scroll operations as arithmetic on `v`, then `v` and the background pipeline after step 1, which
the rest of the dot leaves. -/
theorem backgroundPipelineByDot : Obligations.BackgroundPipelineByDot := by
  unfold Obligations.BackgroundPipelineByDot
  refine ⟨fun p => ?_, fun c p => ⟨_, rfl, p.clock_v c, p.clock_bg c⟩⟩
  rw [p.incrementScrollX_eq_ite, p.incrementScrollY_eq_ite, p.transferX_eq_ite, p.transferY_eq_ite]
  refine ⟨fun off => ?_, fun on => ?_⟩
  · rw [off]
    exact ⟨rfl, rfl, rfl, rfl⟩
  · rw [on]
    exact ⟨rfl, rfl, rfl, rfl⟩

end Sys2Proof.Machine
end

