-- ==== Sys2Proof/Proofs/Compositor.lean ====
section
/-! The pixel of a visible dot (R430 to R438): the two layers' pixels as numbers, the layer that is shown, and what
composing it writes. -/

namespace Sys2Proof.Machine

open Sys2Proof.Claims

/-! ## The background's pixel (R430) -/

theorem bit1_append_toNat (hi lo : Bool) : (bit1 hi ++ bit1 lo).toNat = 2 * hi.toNat + lo.toNat := by
  cases hi <;> cases lo <;> rfl

/-- A layer is shown outside its left column, or there too if its left column is on. -/
theorem leftColumn_iff (shown left : Bool) (cy : Nat) :
    (shown && (left || decide (cy - 1 ≥ 8))) = true ↔ shown = true ∧ (left = true ∨ 9 ≤ cy) := by
  have column : cy - 1 ≥ 8 ↔ 9 ≤ cy := by omega
  rw [Bool.and_eq_true, Bool.or_eq_true, decide_eq_true_eq, column]

theorem backgroundPalette_toNat (hi lo : Bool) :
    ((0#1 : BitVec 1) ++ bit1 hi ++ bit1 lo).toNat = 2 * hi.toNat + lo.toNat := by
  cases hi <;> cases lo <;> rfl

theorem backgroundPixel_toNat (q : Ppu) (cy : Nat) :
    ((q.backgroundPixel cy).value.toNat, (q.backgroundPixel cy).palette.toNat) = backgroundDot q cy := by
  unfold Ppu.backgroundPixel backgroundDot
  simp only [leftColumn_iff]
  by_cases shown : q.showBackground = true ∧ (q.showBackgroundLeft = true ∨ 9 ≤ cy)
  · rw [if_pos shown, if_pos shown]
    exact Prod.ext (bit1_append_toNat _ _) (backgroundPalette_toNat _ _)
  · rw [if_neg shown, if_neg shown]
    rfl

/-! ## The sprite's pixel (R431) -/

theorem pixel_toNat (r : SpriteSlot) : r.pixel.toNat = recordPixel r := bit1_append_toNat _ _

theorem pixel_ne_zero_iff (r : SpriteSlot) : r.pixel ≠ 0 ↔ recordPixel r ≠ 0 := by
  rw [← pixel_toNat, Ne, ← BitVec.toNat_inj]
  rfl

/-- The pixel that a record shows. -/
def SpriteSlot.shown (r : SpriteSlot) (first : Bool) : Pixel :=
  { value := r.pixel, palette := 4 + ((r.attr &&& 0x03).setWidth 3), front := !r.attr.getLsbD 5, first }

/-- The record has counted down and is not transparent. -/
def SpriteSlot.drawn (r : SpriteSlot) : Bool := decide (r.x = 0 ∧ r.pixel ≠ 0)

theorem drawn_eq_decide (r : SpriteSlot) : r.drawn = decide (r.x = 0 ∧ recordPixel r ≠ 0) :=
  decide_eq_decide.mpr (and_congr_right fun _ => pixel_ne_zero_iff r)

/-- The search through the first `n` records finds the first that is drawn. -/
theorem opaqueSprite_eq_find? : ∀ (n : Nat) (first : Bool) (l : List SpriteSlot), n ≤ l.length →
    opaqueSprite n first l = ((List.range n).find? fun i => (l.getD i .blank).drawn).elim .none fun i =>
      (l.getD i .blank).shown (first && decide (i = 0))
  | 0, _, _, _ => rfl
  | n + 1, first, [], h => absurd h (by simp)
  | n + 1, first, r :: rest, h => by
    have tail := opaqueSprite_eq_find? n false rest (Nat.le_of_succ_le_succ h)
    rw [opaqueSprite, List.range_succ_eq_map, List.find?_cons, List.find?_map]
    by_cases now : r.x = 0 ∧ r.pixel ≠ 0
    · have drawn : SpriteSlot.drawn ((r :: rest).getD 0 .blank) = true := decide_eq_true now
      rw [if_pos now, drawn]
      simp [SpriteSlot.shown]
    · have hidden : SpriteSlot.drawn ((r :: rest).getD 0 .blank) = false := decide_eq_false now
      rw [if_neg now, hidden, tail]
      simp only [Function.comp_def, Option.elim_map, List.getD_cons_succ]
      simp

theorem spritePixel_eq_shownSprite {q : Ppu} (valid : q.sprites.count ≤ q.sprites.slots.length) (cy : Nat) :
    q.spritePixel cy = (shownSprite q cy).elim .none fun i => (record q i).shown (decide (i = 0)) := by
  unfold Ppu.spritePixel shownSprite
  simp only [leftColumn_iff, ← drawn_eq_decide]
  by_cases shown : q.showSprites = true ∧ (q.showSpritesLeft = true ∨ 9 ≤ cy)
  · rw [if_pos shown, if_pos shown, opaqueSprite_eq_find? _ _ _ valid]
    rfl
  · rw [if_neg shown, if_neg shown]
    rfl

/-! ## The layer that is shown (R432) -/

theorem shown_value_ne_zero {q : Ppu} {cy i : Nat} (h : shownSprite q cy = some i) : recordPixel (record q i) ≠ 0 := by
  unfold shownSprite at h
  split at h
  · have drawn := List.find?_some h
    exact (of_decide_eq_true drawn).2
  · exact absurd h (by simp)

theorem shown_palette_toNat (r : SpriteSlot) (first : Bool) :
    (r.shown first).palette.toNat = 4 + r.attr.toNat % 4 := by
  have low : (r.attr &&& 0x03).toNat = r.attr.toNat % 4 := by
    rw [BitVec.toNat_and]
    exact Nat.and_two_pow_sub_one_eq_mod _ 2
  rw [SpriteSlot.shown, BitVec.toNat_add, BitVec.toNat_setWidth, low]
  show (4 + r.attr.toNat % 4 % 8) % 8 = _
  omega

/-- The layer that is shown, its value and palette (R432). -/
theorem combine_toNat {q : Ppu} (valid : q.sprites.count ≤ q.sprites.slots.length) (cy : Nat) :
    ((combine (q.backgroundPixel cy) (q.spritePixel cy)).value.toNat,
      (combine (q.backgroundPixel cy) (q.spritePixel cy)).palette.toNat) = shownPixel q cy := by
  rw [spritePixel_eq_shownSprite valid, shownPixel, ← backgroundPixel_toNat]
  generalize q.backgroundPixel cy = bg
  have transparent : bg.value.toNat = 0 ↔ bg.value = 0 := by rw [← BitVec.toNat_inj]; rfl
  simp only [Ne, transparent]
  cases h : shownSprite q cy with
  | none =>
    have clear : Pixel.none.value = 0 := rfl
    dsimp only [Option.elim]
    by_cases behind : bg.value = 0
    · rw [if_pos behind, combine, if_pos ⟨behind, rfl⟩]
      rfl
    · rw [if_neg behind, combine, if_neg fun both => behind both.1, if_neg behind, if_pos clear]
  | some i =>
    have drawn : ¬((record q i).shown (decide (i = 0))).value = 0 :=
      (pixel_ne_zero_iff _).mpr (shown_value_ne_zero h)
    have front : ((record q i).shown (decide (i = 0))).front = !(record q i).attr.getLsbD 5 := rfl
    dsimp only [Option.elim]
    rw [← pixel_toNat, ← shown_palette_toNat _ (decide (i = 0)), combine, if_neg fun both => drawn both.2]
    by_cases behind : bg.value = 0
    · rw [if_pos behind, if_neg fun both => both.1 behind]
      rfl
    · rw [if_neg behind, if_neg drawn, front]
      cases (record q i).attr.getLsbD 5
      · have before : ¬(¬bg.value = 0 ∧ false = true) := fun both => Bool.false_ne_true both.2
        rw [if_neg before]
        rfl
      · have covered : ¬bg.value = 0 ∧ true = true := ⟨behind, rfl⟩
        rw [if_pos covered]
        rfl

/-- The colour of the shown layer is looked up at its palette and value (R437). -/
theorem colour_eq_read (c : Cartridge) (q : Ppu) (px : Pixel) : q.colour c px =
    (q.read c (BitVec.ofNat 14 (0x3F00 + 4 * px.palette.toNat + px.value.toNat))).setWidth 6 := by
  have hpalette := px.palette.isLt
  have hvalue := px.value.isLt
  have addr : (0x3F00 + (px.palette.setWidth 14 <<< 2) + px.value.setWidth 14 : PpuAddr) =
      BitVec.ofNat 14 (0x3F00 + 4 * px.palette.toNat + px.value.toNat) := by
    apply BitVec.eq_of_toNat_eq
    simp only [BitVec.toNat_add, BitVec.toNat_shiftLeft, BitVec.toNat_setWidth, BitVec.natCast_eq_ofNat,
      BitVec.toNat_ofNat, Nat.shiftLeft_eq]
    omega
  rw [Ppu.colour, addr]

/-! ## The dot (R436, R438) -/

theorem spritePixel_first_iff {q : Ppu} (valid : q.sprites.count ≤ q.sprites.slots.length) (cy : Nat) :
    (q.spritePixel cy).first = true ↔ shownSprite q cy = some 0 := by
  rw [spritePixel_eq_shownSprite valid]
  cases shownSprite q cy with
  | none => simp [Pixel.none]
  | some i => simp [SpriteSlot.shown]

theorem hitAt_iff {q : Ppu} (valid : q.sprites.count ≤ q.sprites.slots.length) (cy : Nat) : q.hitAt cy = true ↔
    (backgroundDot q cy).1 ≠ 0 ∧ shownSprite q cy = some 0 ∧ q.sprites.zeroPossible = true ∧
      q.showBackground = true ∧ q.showSprites = true ∧ cy ≠ 256 := by
  have background : (q.backgroundPixel cy).value ≠ 0 ↔ (backgroundDot q cy).1 ≠ 0 := by
    rw [← backgroundPixel_toNat, Ne, ← BitVec.toNat_inj]
    rfl
  have sprite : shownSprite q cy = some 0 → (q.spritePixel cy).value ≠ 0 := fun h => by
    rw [spritePixel_eq_shownSprite valid, h]
    exact (pixel_ne_zero_iff _).mpr (shown_value_ne_zero h)
  have definition : q.hitAt cy = (decide ((q.backgroundPixel cy).value ≠ 0 ∧ (q.spritePixel cy).value ≠ 0) &&
    q.sprites.zeroPossible && ((q.spritePixel cy).first && q.sprites.zeroPossible) && q.showBackground &&
    q.showSprites && decide (cy ≠ 256)) := rfl
  rw [definition]
  simp only [Bool.and_eq_true, decide_eq_true_eq, spritePixel_first_iff valid, background]
  tauto

namespace Ppu

variable (c : Cartridge)

variable {p : Ppu}

/-! Composing a pixel moves neither layer, so the pixel can be read off the unit after the dot. -/

theorem rendered_hitAt (cy : Nat) : (p.rendered c).hitAt cy = (p.clock c).hitAt cy := by
  rw [clock_eq_setPipelines, rendered_eq_setPipelines]
  rfl

theorem clock_fb_of_visible (visible : VisibleDot p) : (p.clock c).fb =
    p.fb.write (256 * p.scanline.toNat + (p.cycle - 1))
      ((p.clock c).colour c (combine ((p.clock c).backgroundPixel p.cycle) ((p.clock c).spritePixel p.cycle))) := by
  conv_lhs => rw [clock_of_visibleDot c visible, advance_fb, composePixel_eq_writes, rendered_eq_setPipelines]
  rw [clock_eq_setPipelines]
  rfl

theorem clock_zeroRendered_of_visible (visible : VisibleDot p) : (p.clock c).sprites.zeroRendered =
    (((p.clock c).spritePixel p.cycle).first && (p.clock c).sprites.zeroPossible) := by
  conv_lhs => rw [clock_of_visibleDot c visible, advance_sprites, composePixel_eq_writes, rendered_eq_setPipelines]
  rw [clock_eq_setPipelines]
  rfl

theorem clock_of_hidden (hidden : ¬VisibleDot p) :
    (p.clock c).fb = p.fb ∧ (p.clock c).sprites.zeroRendered = p.sprites.zeroRendered := by
  have kept : (spritesAtDot c p).zeroRendered = p.sprites.zeroRendered := by
    unfold spritesAtDot
    split_ifs <;> rfl
  rw [← kept, clock_eq_rendered, when_neg hidden, advance_fb, advance_sprites, rendered_eq_setPipelines]
  exact ⟨when_keeps Ppu.fb _ (when_keeps Ppu.fb _ rfl),
    when_keeps (·.sprites.zeroRendered) _ (when_keeps (·.sprites.zeroRendered) _ rfl)⟩

end Ppu

/-- Settles O58: the pixel composed at a visible dot, in terms of the unit after it. -/
theorem pixelPriorityAndZeroHit : Obligations.PixelPriorityAndZeroHit := by
  unfold Obligations.PixelPriorityAndZeroHit
  intro c p sound
  obtain ⟨-, -, -, -, fb, -⟩ := (Ppu.sound_iff p).mp sound
  have valid : (p.clock c).sprites.count ≤ (p.clock c).sprites.slots.length := by
    obtain ⟨-, -, -, -, -, -, -, -, len, count⟩ := (Ppu.sound_iff _).mp (Ppu.clock_sound c p sound)
    rw [len]
    exact count
  have background : (p.clock c).showBackground = p.showBackground :=
    (congrArg Ppu.showBackground (p.clock_eq_setPipelines c)).trans rfl
  have sprites : (p.clock c).showSprites = p.showSprites :=
    (congrArg Ppu.showSprites (p.clock_eq_setPipelines c)).trans rfl
  refine ⟨_, rfl, fun visible => ⟨fun i => ?_, ?_, ?_⟩, fun hidden => ?_⟩
  · rw [Ppu.clock_fb_of_visible c visible, Memory.read_write fb, colour_eq_read, ← combine_toNat valid]
    exact if_congr eq_comm rfl rfl
  · rw [Ppu.clock_zeroRendered_of_visible c visible, Bool.and_eq_true, spritePixel_first_iff valid]
  · rw [Ppu.clock_spriteZeroHit_of_visible c visible, Bool.or_eq_true, Ppu.rendered_hitAt, hitAt_iff valid, background,
      sprites]
  · obtain ⟨pixels, zeroRendered⟩ := Ppu.clock_of_hidden c hidden
    refine ⟨pixels, zeroRendered, fun hit => ?_⟩
    by_cases clear : ClearDot p
    · obtain ⟨-, -, cleared⟩ := Ppu.clock_of_clear c clear
      exact absurd (cleared.symm.trans hit) Bool.false_ne_true
    · rwa [Ppu.clock_spriteZeroHit_of_hidden c clear hidden] at hit

end Sys2Proof.Machine
end

