-- ==== Sys2Proof/Proofs/Tick.lean ====
section
/-! The system tick (R470): the tick as the end of the processor slot's result after one dot, what each kind of tick
does in its slot, and what its end does with the NMI line. -/

namespace Sys2Proof.Machine

open Sys2Proof.Claims

variable {s : State}

/-! ## The dot -/

@[simp] theorem afterDot_tick : (afterDot s).tick = s.tick := State.setPpu_tick _ _

@[simp] theorem afterDot_dma : (afterDot s).dma = s.dma := State.setPpu_dma _ _

/-! ## The processor slot -/

theorem processorSlot_of_no_slot (noSlot : s.tick % 3 ≠ 0) : processorSlot s = .next s := if_neg noSlot

theorem processorSlot_of_dma_active (slot : s.tick % 3 = 0) (active : s.dma.active = true) :
    processorSlot s = .next (dmaStep s) := by
  rw [processorSlot, if_pos slot, if_pos active]

theorem processorSlot_of_dma_idle (slot : s.tick % 3 = 0) (idle : s.dma.active = false) :
    processorSlot s = cpuClock s := by
  rw [processorSlot, if_pos slot, if_neg (Bool.eq_false_iff.mp idle)]

/-! ## The whole tick -/

theorem step_eq_afterSlot (s : State) : step s = afterSlot (processorSlot (afterDot s)) := by
  unfold step afterDot
  cases processorSlot (s.setPpu (s.ppu.clock s.cart)) <;> rfl

theorem step_of_no_slot (noSlot : s.tick % 3 ≠ 0) : step s = .next (endTick (afterDot s)) := by
  rw [step_eq_afterSlot, processorSlot_of_no_slot (by rwa [afterDot_tick]), afterSlot]

theorem step_of_dma_active (slot : s.tick % 3 = 0) (active : s.dma.active = true) :
    step s = .next (endTick (dmaStep (afterDot s))) := by
  rw [step_eq_afterSlot, processorSlot_of_dma_active (by rwa [afterDot_tick]) (by rwa [afterDot_dma]), afterSlot]

theorem step_of_dma_idle (slot : s.tick % 3 = 0) (idle : s.dma.active = false) :
    step s = afterSlot (cpuClock (afterDot s)) := by
  rw [step_eq_afterSlot, processorSlot_of_dma_idle (by rwa [afterDot_tick]) (by rwa [afterDot_dma])]

/-! ## The end of the tick -/

theorem deliverNmi_of_line_low (low : s.ppu.nmiLine = false) : deliverNmi s = s :=
  if_neg (Bool.eq_false_iff.mp low)

theorem deliverNmi_of_line_raised (raised : s.ppu.nmiLine = true) :
    deliverNmi s = cpuNmi (s.setPpu { s.ppu with nmiLine := false }) := if_pos raised

@[simp] theorem busRead16_tick (a : Word) (s : State) : (busRead16 a s).2.tick = s.tick := by simp [busRead16]

@[simp] theorem takeInterrupt_tick (vector : Word) (b : Bool) (s : State) :
    (takeInterrupt vector b s).tick = s.tick := by
  simp [takeInterrupt]

@[simp] theorem cpuNmi_tick : (cpuNmi s).tick = s.tick := by
  rw [cpuNmi, State.charge_tick, takeInterrupt_tick]

@[simp] theorem deliverNmi_tick : (deliverNmi s).tick = s.tick := by
  cases line : s.ppu.nmiLine
  · rw [deliverNmi_of_line_low line]
  · rw [deliverNmi_of_line_raised line, cpuNmi_tick, State.setPpu_tick]

/-- The counter is increased by 1 whether or not an NMI is delivered first. -/
theorem endTick_eq_setTick (s : State) : endTick s = (deliverNmi s).setTick (s.tick + 1) := by
  rw [endTick, deliverNmi_tick]

theorem endTick_of_line_low (low : s.ppu.nmiLine = false) : endTick s = s.setTick (s.tick + 1) := by
  rw [endTick_eq_setTick, deliverNmi_of_line_low low]

theorem endTick_of_line_raised (raised : s.ppu.nmiLine = true) :
    endTick s = (cpuNmi (s.setPpu { s.ppu with nmiLine := false })).setTick (s.tick + 1) := by
  rw [endTick_eq_setTick, deliverNmi_of_line_raised raised]

/-- Settles O6: the three kinds of tick, and the two ends of a tick. -/
theorem tickRunsDotThenSlotThenNmi : Obligations.TickRunsDotThenSlotThenNmi := by
  unfold Obligations.TickRunsDotThenSlotThenNmi
  exact fun s => ⟨step_of_no_slot, step_of_dma_active, step_of_dma_idle, endTick_of_line_low,
    fun raised => ⟨_, rfl, endTick_of_line_raised raised⟩⟩

end Sys2Proof.Machine
end

