-- ==== Sys2Proof/Proofs/TrapEntry.lean ====
section
/-! Trap entry through either trap vector (R505): both vectors lie in the cartridge's window, so the entry's rules of
the interrupt entry part apply to both. -/

namespace Sys2Proof.Machine

/-- The two bytes at the NMI and the IRQ vector are bytes of the cartridge's window (R81). -/
theorem trapVector_in_rom {vector : Word} (trap : vector = 0xFFFA ∨ vector = 0xFFFE) :
    0x8000 ≤ vector ∧ 0x8000 ≤ vector + 1 := by
  obtain rfl | rfl := trap
  · decide
  · decide

/-- Settles O15: an entry through a vector of ROM, from a state whose memories are canonical. -/
theorem interruptEntrySavesAndVectors : Obligations.InterruptEntrySavesAndVectors := by
  unfold Obligations.InterruptEntrySavesAndVectors
  intro vector b s trap sound present
  obtain ⟨lo, hi⟩ := trapVector_in_rom trap
  have mid : s.Mid := ((s.sound_iff_mid).mp sound).1
  exact ⟨_, rfl, takeInterrupt_entered b present lo hi mid, takeInterrupt_cycles b present lo hi,
    takeInterrupt_sameDevices b present lo hi, takeInterrupt_sameHost b present lo hi⟩

end Sys2Proof.Machine
end

