-- ==== Sys2Proof/Proofs/BusPrograms.lean ====
section
/-! Instructions as programs of bus accesses (R133, R179, R560): every instruction, its fetch and an interrupt entry are
composed of bus reads, bus writes and register updates, none of which looks at the cycle counter. What such a program
keeps is proved once, by induction on the program. -/

namespace Sys2Proof.Machine

/-! ## Programs -/

/-- The state with another count of cycles. -/
def State.setCycles (s : State) (n : Nat) : State := { s with cycles := n }

/-- The bits of `P` that a sound state fixes: U is 1 and B is 0 (R37, R38). -/
def FixedBits (p : Byte) : Prop := flag .u p = true ∧ flag .b p = false

/-- An update of the CPU's registers: it leaves the rest of the machine and the fixed bits of `P`, and all it does with
the cycle counter is to move it. -/
structure RegisterUpdate (f : State → State) : Prop where
  outside : ∀ s, f s = { s with a := (f s).a, x := (f s).x, y := (f s).y, sp := (f s).sp, pc := (f s).pc,
                                p := (f s).p, cycles := (f s).cycles }
  fixedBits : ∀ s, FixedBits s.p → FixedBits (f s).p
  blind : ∀ s n, ∃ m, f (s.setCycles n) = (f s).setCycles m

/-- A program of bus accesses and register updates. Its addresses and bytes may depend on what it has read and on
anything in the state but the cycle counter. -/
inductive BusProgram : (State → State) → Prop
  | registers {f : State → State} (update : RegisterUpdate f) : BusProgram f
  | write (addr : Word) (v : Byte) : BusProgram (busWrite addr v)
  | read (addr : Word) {k : Byte → State → State} (rest : ∀ v, BusProgram (k v)) :
      BusProgram fun s => k (busRead addr s).1 (busRead addr s).2
  | look {α : Type} (g : State → α) (blind : ∀ s n, g (s.setCycles n) = g s) {k : α → State → State}
      (rest : ∀ v, BusProgram (k v)) : BusProgram fun s => k (g s) s
  | andThen {f g : State → State} (first : BusProgram f) (second : BusProgram g) : BusProgram fun s => g (f s)

/-! ## What every program keeps -/

/-- What no program touches: the cartridge, the tick counter, the buttons and the NMI line (R44, R82, R88, R472). -/
structure SameFixtures (s t : State) : Prop where
  cart : t.cart = s.cart
  tick : t.tick = s.tick
  buttons0 : t.pad0.buttons = s.pad0.buttons
  buttons1 : t.pad1.buttons = s.pad1.buttons
  nmiLine : t.ppu.nmiLine = s.ppu.nmiLine

theorem SameFixtures.refl (s : State) : SameFixtures s s := ⟨rfl, rfl, rfl, rfl, rfl⟩

theorem SameFixtures.trans {s t u : State} (h : SameFixtures s t) (h' : SameFixtures t u) : SameFixtures s u :=
  ⟨h'.cart.trans h.cart, h'.tick.trans h.tick, h'.buttons0.trans h.buttons0, h'.buttons1.trans h.buttons1,
    h'.nmiLine.trans h.nmiLine⟩

/-- A controller's registers replaced with the same buttons in them. -/
theorem setPad_sameFixtures (s : State) (b : Bool) {d : Pad} (same : d.buttons = (s.pad b).buttons) :
    SameFixtures s (s.setPad b d) := by
  cases b
  · exact ⟨rfl, rfl, same, rfl, rfl⟩
  · exact ⟨rfl, rfl, rfl, same, rfl⟩

theorem busRead_sameFixtures (a : Word) (s : State) : SameFixtures s (busRead a s).2 := by
  obtain h | ⟨p, h⟩ | ⟨b, h⟩ | h := busRead_cases a s <;> rw [h]
  · exact .refl s
  · exact ⟨rfl, rfl, rfl, rfl, (Ppu.portRead_samePipeline s.cart s.ppu p).nmiLine⟩
  · exact setPad_sameFixtures s b rfl
  · exact ⟨rfl, rfl, rfl, rfl, rfl⟩

theorem busWrite_sameFixtures (a : Word) (v : Byte) (s : State) : SameFixtures s (busWrite a v s) := by
  obtain h | ⟨_, -, h⟩ | ⟨p, h⟩ | h | ⟨b, h⟩ := busWrite_cases a v s <;> rw [h]
  · exact .refl s
  · exact ⟨rfl, rfl, rfl, rfl, rfl⟩
  · exact ⟨rfl, rfl, rfl, rfl, (Ppu.portWrite_samePipeline s.cart s.ppu p v).nmiLine⟩
  · exact ⟨rfl, rfl, rfl, rfl, rfl⟩
  · exact setPad_sameFixtures s b rfl

/-- No bus access looks at the cycle counter. -/
theorem busRead_setCycles (a : Word) (s : State) (n : Nat) :
    busRead a (s.setCycles n) = ((busRead a s).1, (busRead a s).2.setCycles n) := by
  have device : readDevice (s.setCycles n).cart a = readDevice s.cart a := rfl
  unfold busRead
  rw [device]
  cases readDevice s.cart a with
  | pad second => cases second <;> rfl
  | _ => rfl

theorem busWrite_setCycles (a : Word) (v : Byte) (s : State) (n : Nat) :
    busWrite a v (s.setCycles n) = (busWrite a v s).setCycles n := by
  have device : writeDevice (s.setCycles n).cart a = writeDevice s.cart a := rfl
  unfold busWrite
  rw [device]
  cases writeDevice s.cart a with
  | pad second => cases second <;> rfl
  | _ => rfl

/-! ## Status bytes that keep the fixed bits -/

section
variable {p q : Byte}

theorem fixedBits_of_flags_eq (u : flag .u q = flag .u p) (b : flag .b q = flag .b p) (bits : FixedBits p) :
    FixedBits q :=
  ⟨u.trans bits.1, b.trans bits.2⟩

theorem fixedBits_setZN (r : Byte) : FixedBits p → FixedBits (setZN r p) :=
  fixedBits_of_flags_eq (flag_setZN ..) (flag_setZN ..)

theorem fixedBits_setFlag {f : Flag} (v : Bool) (hu : f ≠ .u) (hb : f ≠ .b) : FixedBits p → FixedBits (setFlag f v p) :=
  fixedBits_of_flags_eq ((flag_setFlag ..).trans (if_neg hu)) ((flag_setFlag ..).trans (if_neg hb))

theorem fixedBits_addWithCarry (a m : Byte) : FixedBits p → FixedBits (addWithCarry a m p).status :=
  fixedBits_of_flags_eq (flag_addWithCarry ..) (flag_addWithCarry ..)

theorem fixedBits_compareFlags (r m : Byte) : FixedBits p → FixedBits (compareFlags r m p) :=
  fixedBits_of_flags_eq (flag_compareFlags ..) (flag_compareFlags ..)

theorem fixedBits_bitFlags (a m : Byte) : FixedBits p → FixedBits (bitFlags a m p) :=
  fixedBits_of_flags_eq (flag_bitFlags ..) (flag_bitFlags ..)

theorem fixedBits_withZN (r : Byte) : FixedBits p → FixedBits (withZN r p).status :=
  fixedBits_of_flags_eq (flag_withZN ..) (flag_withZN ..)

theorem fixedBits_shifted (r : Byte) (k : Bool) : FixedBits p → FixedBits (shifted r k p).status :=
  fixedBits_of_flags_eq (flag_shifted ..) (flag_shifted ..)

theorem fixedBits_pulledStatus (v : Byte) : FixedBits (pulledStatus v) :=
  ⟨flag_pulledStatus v .u, flag_pulledStatus v .b⟩

end

namespace BusProgram

variable {f : State → State}

theorem mid (program : BusProgram f) : ∀ {s : State}, s.Mid → (f s).Mid := by
  induction program with
  | registers update =>
    intro s h
    obtain ⟨u, b⟩ := update.fixedBits s ⟨h.u, h.b⟩
    rw [update.outside s]
    exact ⟨h.ram, u, b, h.dma, h.ppu, h.cart⟩
  | write addr v => exact busWrite_mid addr v
  | read addr rest ih => exact fun h => ih _ (busRead_mid addr h)
  | look g blind rest ih => exact fun h => ih _ h
  | andThen first second ih ih' => exact fun h => ih' (ih h)

theorem sameFixtures (program : BusProgram f) : ∀ s : State, SameFixtures s (f s) := by
  induction program with
  | registers update =>
    intro s
    rw [update.outside s]
    exact ⟨rfl, rfl, rfl, rfl, rfl⟩
  | write addr v => exact busWrite_sameFixtures addr v
  | read addr rest ih => exact fun s => (busRead_sameFixtures addr s).trans (ih _ _)
  | look g blind rest ih => exact fun s => ih _ s
  | andThen first second ih ih' => exact fun s => (ih s).trans (ih' _)

/-- Noninterference (R560): started with another count of cycles, a program ends with another count of cycles. -/
theorem setCycles (program : BusProgram f) : ∀ (s : State) (n : Nat), ∃ m, f (s.setCycles n) = (f s).setCycles m := by
  induction program with
  | registers update => exact update.blind
  | write addr v => exact fun s n => ⟨n, busWrite_setCycles addr v s n⟩
  | read addr rest ih =>
    intro s n
    dsimp only
    rw [busRead_setCycles]
    exact ih _ _ n
  | look g blind rest ih =>
    intro s n
    dsimp only
    rw [blind]
    exact ih _ s n
  | andThen first second ih ih' =>
    intro s n
    obtain ⟨m, h⟩ := ih s n
    dsimp only
    rw [h]
    exact ih' _ m

/-! ## Register updates -/

/-- A register update that leaves `P` as it is. -/
theorem of_same_status
    (outside : ∀ s, f s = { s with a := (f s).a, x := (f s).x, y := (f s).y, sp := (f s).sp, pc := (f s).pc,
                                   cycles := (f s).cycles })
    (blind : ∀ s n, ∃ m, f (s.setCycles n) = (f s).setCycles m) : BusProgram f := by
  have status : ∀ s, (f s).p = s.p := fun s => by rw [outside s]
  refine .registers ⟨fun s => ?_, fun s bits => (status s).symm ▸ bits, blind⟩
  rw [status]
  exact outside s

theorem setA (v : Byte) : BusProgram fun s => s.setA v := of_same_status (fun _ => rfl) fun _ n => ⟨n, rfl⟩
theorem setX (v : Byte) : BusProgram fun s => s.setX v := of_same_status (fun _ => rfl) fun _ n => ⟨n, rfl⟩
theorem setY (v : Byte) : BusProgram fun s => s.setY v := of_same_status (fun _ => rfl) fun _ n => ⟨n, rfl⟩
theorem setSp (v : Byte) : BusProgram fun s => s.setSp v := of_same_status (fun _ => rfl) fun _ n => ⟨n, rfl⟩
theorem setPc (v : Word) : BusProgram fun s => s.setPc v := of_same_status (fun _ => rfl) fun _ n => ⟨n, rfl⟩
theorem charge (k : Nat) : BusProgram fun s => s.charge k := of_same_status (fun _ => rfl) fun _ n => ⟨n + k, rfl⟩

theorem advancePc : BusProgram State.advancePc := of_same_status (fun _ => rfl) fun _ n => ⟨n, rfl⟩

/-- Replacing `P` by a byte with the same fixed bits. -/
theorem setP {g : Byte → Byte} (keeps : ∀ p, FixedBits p → FixedBits (g p)) : BusProgram fun s => s.setP (g s.p) :=
  .registers ⟨fun _ => rfl, fun s => keeps s.p, fun _ n => ⟨n, rfl⟩⟩

theorem charged (program : BusProgram f) (k : Nat) : BusProgram fun s => (f s).charge k :=
  program.andThen (charge k)

/-! ### Loads of a register with Z and N from it -/

theorem loadA (v : Byte) : BusProgram fun s => s.loadA v :=
  .registers ⟨fun _ => rfl, fun _ => fixedBits_setZN v, fun _ n => ⟨n, rfl⟩⟩

theorem loadX (v : Byte) : BusProgram fun s => s.loadX v :=
  .registers ⟨fun _ => rfl, fun _ => fixedBits_setZN v, fun _ n => ⟨n, rfl⟩⟩

theorem loadY (v : Byte) : BusProgram fun s => s.loadY v :=
  .registers ⟨fun _ => rfl, fun _ => fixedBits_setZN v, fun _ n => ⟨n, rfl⟩⟩

/-! ## Operands -/

/-- A program that goes on from an address looked up in `PC` or an index register. -/
theorem lookX {k : Byte → State → State} (rest : ∀ x, BusProgram (k x)) : BusProgram fun s => k s.x s :=
  .look State.x (fun _ _ => rfl) rest
theorem lookY {k : Byte → State → State} (rest : ∀ y, BusProgram (k y)) : BusProgram fun s => k s.y s :=
  .look State.y (fun _ _ => rfl) rest
theorem lookA {k : Byte → State → State} (rest : ∀ a, BusProgram (k a)) : BusProgram fun s => k s.a s :=
  .look State.a (fun _ _ => rfl) rest
theorem lookSp {k : Byte → State → State} (rest : ∀ sp, BusProgram (k sp)) : BusProgram fun s => k s.sp s :=
  .look State.sp (fun _ _ => rfl) rest
theorem lookPc {k : Word → State → State} (rest : ∀ pc, BusProgram (k pc)) : BusProgram fun s => k s.pc s :=
  .look State.pc (fun _ _ => rfl) rest
theorem lookP {k : Byte → State → State} (rest : ∀ p, BusProgram (k p)) : BusProgram fun s => k s.p s :=
  .look State.p (fun _ _ => rfl) rest

/-- The mode's operation, then what is done at the place it finds. -/
theorem resolve_then (o : Operand) {k : Location → Bool → State → State} (rest : ∀ l c, BusProgram (k l c)) :
    BusProgram fun s => k (resolve o s).location (resolve o s).crossed (resolve o s).state := by
  cases o with
  | imp | acc | imm _ | zp0 _ | abs _ => exact rest _ _
  | zpx zp => exact lookX fun x => rest (.memory (zext16 (zp + x))) false
  | zpy zp => exact lookY fun y => rest (.memory (zext16 (zp + y))) false
  | rel d => exact lookPc fun pc => rest (.memory (pc + sext16 d)) false
  | abx base => exact lookX fun x => rest (.memory (base + zext16 x)) (hiByte (base + zext16 x) != hiByte base)
  | aby base => exact lookY fun y => rest (.memory (base + zext16 y)) (hiByte (base + zext16 y) != hiByte base)
  | ind ptr => exact .read ptr fun lo => .read _ fun hi => rest (.memory (wordOf hi lo)) false
  | izx zp =>
    exact lookX fun x => .read (zext16 (zp + x)) fun lo => .read (zext16 (zp + x + 1)) fun hi =>
      rest (.memory (wordOf hi lo)) false
  | izy zp =>
    exact lookY fun y => .read (zext16 zp) fun lo => .read (zext16 (zp + 1)) fun hi =>
      rest (.memory (wordOf hi lo + zext16 y)) (hiByte (wordOf hi lo + zext16 y) != hiByte (wordOf hi lo))

theorem fetchOperand_then (l : Location) {k : Byte → State → State} (rest : ∀ v, BusProgram (k v)) :
    BusProgram fun s => k (fetchOperand l s).1 (fetchOperand l s).2 := by
  cases l with
  | memory ea => exact .read ea rest
  | accumulator => exact lookA rest
  | absent | immediate _ => exact rest _

theorem writeOperand (l : Location) (r : Byte) : BusProgram (Machine.writeOperand l r) := by
  cases l with
  | memory ea => exact .write ea r
  | accumulator => exact setA r
  | absent | immediate _ => exact of_same_status (fun _ => rfl) fun _ n => ⟨n, rfl⟩

theorem readThen (o : Operand) {g : Byte → State → State} (use : ∀ v, BusProgram (g v)) :
    BusProgram (Machine.readThen o g) :=
  resolve_then o (k := fun l c s => (g (fetchOperand l s).1 (fetchOperand l s).2).charge (readCycles o c))
    fun l c => fetchOperand_then l (k := fun v s => (g v s).charge (readCycles o c)) fun v => (use v).charged _

theorem storeValue (o : Operand) (v : Byte) : BusProgram (Machine.storeValue o v) :=
  resolve_then o (k := fun l _ s => (Machine.writeOperand l v s).charge (storeCycles o))
    fun l _ => (writeOperand l v).charged _

theorem modify (o : Operand) {op : Byte → Byte → Alu} (keeps : ∀ m p, FixedBits p → FixedBits (op m p).status) :
    BusProgram (Machine.modify o op) := by
  have update (l : Location) (m : Byte) :
      BusProgram fun s => Machine.writeOperand l (op m s.p).result (s.setP (op m s.p).status) :=
    lookP (k := fun p s => Machine.writeOperand l (op m p).result (s.setP (op m s.p).status))
      fun p => (setP (keeps m)).andThen (writeOperand l (op m p).result)
  exact resolve_then o (k := fun l _ s => (Machine.writeOperand l (op (fetchOperand l s).1 (fetchOperand l s).2.p).result
      ((fetchOperand l s).2.setP (op (fetchOperand l s).1 (fetchOperand l s).2.p).status)).charge (modifyCycles o))
    fun l _ => (fetchOperand_then l (update l)).charged _

theorem branch (taken : Bool) (d : Byte) : BusProgram (Machine.branch taken d) := by
  cases taken with
  | true => exact of_same_status (fun _ => rfl) fun _ _ => ⟨_, rfl⟩
  | false => exact charge 2

theorem branchIf (taken : Byte → Bool) (d : Byte) : BusProgram fun s => Machine.branch (taken s.p) d s :=
  lookP fun p => branch (taken p) d

/-! ## Shapes of single instructions -/

theorem adc (m : Byte) : BusProgram fun s => s.aluA (addWithCarry s.a m s.p) :=
  .registers ⟨fun _ => rfl, fun s => fixedBits_addWithCarry s.a m, fun _ n => ⟨n, rfl⟩⟩

theorem compare (r m : Byte) : BusProgram fun s => s.setP (compareFlags r m s.p) :=
  setP fun _ => fixedBits_compareFlags r m

theorem putFlag (f : Flag) (v : Bool) (hu : f ≠ .u) (hb : f ≠ .b) : BusProgram fun s => s.putFlag f v :=
  setP fun _ => fixedBits_setFlag v hu hb

/-- XXX (R325): the mode's reads and the cycles that the run's parameters give the opcode. -/
theorem undocumented (op : Byte) (o : UndocOperand) :
    BusProgram fun s => (resolve o.operand s).state.charge (undocCycles s.cart.undoc op (resolve o.operand s).crossed) :=
  .look (fun s => s.cart.undoc) (fun _ _ => rfl) fun u =>
    resolve_then o.operand fun _ crossed => charge (undocCycles u op crossed)

/-! ## The stack -/

theorem push (v : Byte) : BusProgram (Machine.push v) :=
  lookSp (k := fun sp s => (busWrite (stackAddr sp) v s).setSp (sp - 1))
    fun sp => (BusProgram.write (stackAddr sp) v).andThen (setSp (sp - 1))

theorem pushWord (w : Word) : BusProgram (Machine.pushWord w) := (push (hiByte w)).andThen (push (loByte w))

theorem pull_then {k : Byte → State → State} (rest : ∀ v, BusProgram (k v)) :
    BusProgram fun s => k (pull s).1 (pull s).2 :=
  lookSp fun sp => (setSp (sp + 1)).andThen (.read (stackAddr (sp + 1)) rest)

theorem pullWord_then {k : Word → State → State} (rest : ∀ w, BusProgram (k w)) :
    BusProgram fun s => k (pullWord s).1 (pullWord s).2 :=
  pull_then fun lo => pull_then fun hi => rest (wordOf hi lo)

theorem busRead16_then (addr : Word) {k : Word → State → State} (rest : ∀ w, BusProgram (k w)) :
    BusProgram fun s => k (busRead16 addr s).1 (busRead16 addr s).2 :=
  .read addr fun lo => .read (addr + 1) fun hi => rest (wordOf hi lo)

theorem takeInterrupt (vector : Word) (b : Bool) : BusProgram (Machine.takeInterrupt vector b) := by
  have pushPc : BusProgram fun s => Machine.pushWord s.pc s := lookPc pushWord
  have pushP : BusProgram fun s => Machine.push (pushedStatus b s.p) s := lookP fun p => push (pushedStatus b p)
  have mask : BusProgram fun s => s.setP (setFlag .i true s.p) :=
    setP fun p => fixedBits_setFlag true (by decide) (by decide)
  exact ((pushPc.andThen pushP).andThen mask).andThen (busRead16_then vector setPc)

theorem returnFromInterrupt : BusProgram Machine.returnFromInterrupt :=
  pull_then fun v => (setP fun _ _ => fixedBits_pulledStatus v).andThen (pullWord_then setPc)

end BusProgram

/-! ## Every instruction is a program -/

/-- Every instruction runs as a program and never stops (R140, R500). -/
theorem exec_busProgram (i : Instr) : ∃ f, BusProgram f ∧ ∀ s, exec i s = .next (f s) := by
  cases i with
  | lda o => exact ⟨_, .readThen o.operand .loadA, fun _ => rfl⟩
  | ldx o => exact ⟨_, .readThen o.operand .loadX, fun _ => rfl⟩
  | ldy o => exact ⟨_, .readThen o.operand .loadY, fun _ => rfl⟩
  | sta o => exact ⟨_, .lookA (.storeValue o.operand), fun _ => rfl⟩
  | stx o => exact ⟨_, .lookX (.storeValue o.operand), fun _ => rfl⟩
  | sty o => exact ⟨_, .lookY (.storeValue o.operand), fun _ => rfl⟩
  | tax => exact ⟨_, .charged (.lookA .loadX) 2, fun _ => rfl⟩
  | tay => exact ⟨_, .charged (.lookA .loadY) 2, fun _ => rfl⟩
  | txa => exact ⟨_, .charged (.lookX .loadA) 2, fun _ => rfl⟩
  | tya => exact ⟨_, .charged (.lookY .loadA) 2, fun _ => rfl⟩
  | tsx => exact ⟨_, .charged (.lookSp .loadX) 2, fun _ => rfl⟩
  | txs => exact ⟨_, .charged (.lookX .setSp) 2, fun _ => rfl⟩
  | adc o => exact ⟨_, .readThen o.operand .adc, fun _ => rfl⟩
  | sbc o => exact ⟨_, .readThen o.operand fun m => .adc (m ^^^ 0xFF), fun _ => rfl⟩
  | and o => exact ⟨_, .readThen o.operand fun m => .lookA fun a => .loadA (a &&& m), fun _ => rfl⟩
  | ora o => exact ⟨_, .readThen o.operand fun m => .lookA fun a => .loadA (a ||| m), fun _ => rfl⟩
  | eor o => exact ⟨_, .readThen o.operand fun m => .lookA fun a => .loadA (a ^^^ m), fun _ => rfl⟩
  | cmp o => exact ⟨_, .readThen o.operand fun m => .lookA fun a => .compare a m, fun _ => rfl⟩
  | cpx o => exact ⟨_, .readThen o.operand fun m => .lookX fun x => .compare x m, fun _ => rfl⟩
  | cpy o => exact ⟨_, .readThen o.operand fun m => .lookY fun y => .compare y m, fun _ => rfl⟩
  | bit o => exact ⟨_, .readThen o.operand fun m => .lookA fun a => .setP fun _ => fixedBits_bitFlags a m, fun _ => rfl⟩
  | inc o => exact ⟨_, .modify o.operand fun _ _ => fixedBits_withZN _, fun _ => rfl⟩
  | dec o => exact ⟨_, .modify o.operand fun _ _ => fixedBits_withZN _, fun _ => rfl⟩
  | inx => exact ⟨_, .charged (.lookX fun x => .loadX (x + 1)) 2, fun _ => rfl⟩
  | iny => exact ⟨_, .charged (.lookY fun y => .loadY (y + 1)) 2, fun _ => rfl⟩
  | dex => exact ⟨_, .charged (.lookX fun x => .loadX (x - 1)) 2, fun _ => rfl⟩
  | dey => exact ⟨_, .charged (.lookY fun y => .loadY (y - 1)) 2, fun _ => rfl⟩
  | asl o => exact ⟨_, .modify o.operand fun _ _ => fixedBits_shifted _ _, fun _ => rfl⟩
  | lsr o => exact ⟨_, .modify o.operand fun _ _ => fixedBits_shifted _ _, fun _ => rfl⟩
  | rol o => exact ⟨_, .modify o.operand fun _ _ => fixedBits_shifted _ _, fun _ => rfl⟩
  | ror o => exact ⟨_, .modify o.operand fun _ _ => fixedBits_shifted _ _, fun _ => rfl⟩
  | bcc d => exact ⟨_, .branchIf (fun p => !flag .c p) d, fun _ => rfl⟩
  | bcs d => exact ⟨_, .branchIf (flag .c) d, fun _ => rfl⟩
  | beq d => exact ⟨_, .branchIf (flag .z) d, fun _ => rfl⟩
  | bne d => exact ⟨_, .branchIf (fun p => !flag .z p) d, fun _ => rfl⟩
  | bmi d => exact ⟨_, .branchIf (flag .n) d, fun _ => rfl⟩
  | bpl d => exact ⟨_, .branchIf (fun p => !flag .n p) d, fun _ => rfl⟩
  | bvc d => exact ⟨_, .branchIf (fun p => !flag .v p) d, fun _ => rfl⟩
  | bvs d => exact ⟨_, .branchIf (flag .v) d, fun _ => rfl⟩
  | jmp o =>
    exact ⟨_, .charged (.resolve_then o.operand fun l _ => .setPc (targetAddress l)) (jumpCycles o.operand),
      fun _ => rfl⟩
  | jsr target =>
    exact ⟨_, .charged ((BusProgram.lookPc fun pc => .pushWord (pc - 1)).andThen (.setPc target)) 6, fun _ => rfl⟩
  | rts => exact ⟨_, .charged (.pullWord_then fun w => .setPc (w + 1)) 6, fun _ => rfl⟩
  | pha => exact ⟨_, .charged (.lookA .push) 3, fun _ => rfl⟩
  | php => exact ⟨_, .charged (.lookP fun p => .push (pushedStatus true p)) 3, fun _ => rfl⟩
  | pla => exact ⟨_, .charged (.pull_then .loadA) 4, fun _ => rfl⟩
  | plp => exact ⟨_, .charged (.pull_then fun v => .setP fun _ _ => fixedBits_pulledStatus v) 4, fun _ => rfl⟩
  | clc => exact ⟨_, .charged (.putFlag .c false (by decide) (by decide)) 2, fun _ => rfl⟩
  | cld => exact ⟨_, .charged (.putFlag .d false (by decide) (by decide)) 2, fun _ => rfl⟩
  | cli => exact ⟨_, .charged (.putFlag .i false (by decide) (by decide)) 2, fun _ => rfl⟩
  | clv => exact ⟨_, .charged (.putFlag .v false (by decide) (by decide)) 2, fun _ => rfl⟩
  | sec => exact ⟨_, .charged (.putFlag .c true (by decide) (by decide)) 2, fun _ => rfl⟩
  | sed => exact ⟨_, .charged (.putFlag .d true (by decide) (by decide)) 2, fun _ => rfl⟩
  | sei => exact ⟨_, .charged (.putFlag .i true (by decide) (by decide)) 2, fun _ => rfl⟩
  | brk => exact ⟨_, .charged (BusProgram.advancePc.andThen (.takeInterrupt irqVector true)) 7, fun _ => rfl⟩
  | rti => exact ⟨_, .charged .returnFromInterrupt 6, fun _ => rfl⟩
  | nop => exact ⟨_, .charge 2, fun _ => rfl⟩
  | xxx op o => exact ⟨_, .undocumented op o, fun _ => rfl⟩

/-! ## The CPU's part of a tick -/

namespace BusProgram

theorem fetchByte_then {k : Byte → State → State} (rest : ∀ v, BusProgram (k v)) :
    BusProgram fun s => k (fetchByte s).1 (fetchByte s).2 :=
  lookPc fun pc => .read pc fun v => advancePc.andThen (rest v)

theorem fetchOperands_then (f : Format) {k : Instr → State → State} (rest : ∀ i, BusProgram (k i)) :
    BusProgram fun s => k (fetchOperands f s).1 (fetchOperands f s).2 := by
  cases f with
  | alone i => exact rest i
  | skipByte i => exact advancePc.andThen (rest i)
  | oneByte g => exact fetchByte_then fun b => rest (g b)
  | twoBytes g => exact fetchByte_then fun lo => fetchByte_then fun hi => rest (g (wordOf hi lo))

/-- The fetch sets `P.U` (R37), which is set in a sound state already. -/
theorem fetchInstr_then {k : Instr → State → State} (rest : ∀ i, BusProgram (k i)) :
    BusProgram fun s => k (fetchInstr s).1 (fetchInstr s).2 := by
  have setU : BusProgram fun s => s.setP (setFlag .u true s.p) := setP fun _ bits =>
    ⟨flag_setFlag .., (flag_setFlag ..).trans bits.2⟩
  exact .look (fun s => s.cart.undoc) (fun _ _ => rfl) fun u => fetchByte_then fun op =>
    setU.andThen (fetchOperands_then (formatOf u op) rest)

end BusProgram

/-- What a whole instruction does, fetch included (R133). -/
theorem cpuClock_busProgram : ∃ f, BusProgram f ∧ ∀ s, cpuClock s = .next (f s) := by
  choose run program next using exec_busProgram
  exact ⟨_, .fetchInstr_then program, fun s => next _ _⟩

theorem cpuNmi_busProgram : BusProgram cpuNmi := (BusProgram.takeInterrupt nmiVector false).charged 7

end Sys2Proof.Machine
end

