-- ==== Sys2Proof/Proofs/TickInvariants.lean ====
section
/-! What every tick keeps (R470): the processor slot is a DMA micro-step, a program of bus accesses or nothing, so each
invariant of the tick is read off those three and the delivery of the NMI. -/

namespace Sys2Proof.Machine

open Sys2Proof.Claims

variable {s : State}

/-! ## A DMA micro-step (R462)

While the alignment delay lasts, an odd tick ends it; after it, even ticks read and odd ticks write. -/

/-- The engine after a write: the next offset, and idle again after the last (R462). -/
def Dma.afterWrite (d : Dma) : Dma :=
  if d.addr + 1 = 0 then { d with addr := d.addr + 1, active := false, dummy := true }
  else { d with addr := d.addr + 1 }

section
variable (s)

theorem dmaStep_of_delay_even (delay : s.dma.dummy = true) (even : ¬s.tick % 2 = 1) : dmaStep s = s := by
  rw [dmaStep, if_pos delay, if_neg even]

theorem dmaStep_of_delay_odd (delay : s.dma.dummy = true) (odd : s.tick % 2 = 1) :
    dmaStep s = s.setDma { s.dma with dummy := false } := by
  rw [dmaStep, if_pos delay, if_pos odd]

theorem dmaStep_of_even (served : ¬s.dma.dummy = true) (even : s.tick % 2 = 0) :
    dmaStep s = (busRead (wordOf s.dma.page s.dma.addr) s).2.setDma
      { s.dma with data := (busRead (wordOf s.dma.page s.dma.addr) s).1 } := by
  rw [dmaStep, if_neg served, if_pos even]
  simp only [busRead_dma]

theorem dmaStep_of_odd (served : ¬s.dma.dummy = true) (odd : ¬s.tick % 2 = 0) :
    dmaStep s = (s.setPpu (s.ppu.dmaStore s.dma.addr s.dma.data)).setDma s.dma.afterWrite := by
  rw [dmaStep, if_neg served, if_neg odd]
  exact (apply_ite _ (s.dma.addr + 1 = 0) _ _).symm

theorem dmaStep_sameFixtures : SameFixtures s (dmaStep s) := by
  by_cases delay : s.dma.dummy = true
  · by_cases odd : s.tick % 2 = 1
    · rw [dmaStep_of_delay_odd s delay odd]
      exact ⟨rfl, rfl, rfl, rfl, rfl⟩
    · rw [dmaStep_of_delay_even s delay odd]
      exact .refl s
  · by_cases even : s.tick % 2 = 0
    · have read := busRead_sameFixtures (wordOf s.dma.page s.dma.addr) s
      rw [dmaStep_of_even s delay even]
      exact ⟨read.cart, read.tick, read.buttons0, read.buttons1, read.nmiLine⟩
    · rw [dmaStep_of_odd s delay even]
      exact ⟨rfl, rfl, rfl, rfl, rfl⟩

theorem dmaStep_setCycles (n : Nat) : dmaStep (s.setCycles n) = (dmaStep s).setCycles n := by
  by_cases delay : s.dma.dummy = true
  · by_cases odd : s.tick % 2 = 1
    · rw [dmaStep_of_delay_odd s delay odd, dmaStep_of_delay_odd (s.setCycles n) delay odd]
      rfl
    · rw [dmaStep_of_delay_even s delay odd, dmaStep_of_delay_even (s.setCycles n) delay odd]
  · by_cases even : s.tick % 2 = 0
    · rw [dmaStep_of_even s delay even, dmaStep_of_even (s.setCycles n) delay even, busRead_setCycles]
      rfl
    · rw [dmaStep_of_odd s delay even, dmaStep_of_odd (s.setCycles n) delay even]
      rfl

end

/-! ## The processor slot -/

/-- The three kinds of slot: nothing, a micro-step of an active transfer, or one whole instruction. -/
theorem processorSlot_cases (s : State) : processorSlot s = .next s ∨
    (s.dma.active = true ∧ processorSlot s = .next (dmaStep s)) ∨ processorSlot s = cpuClock s := by
  by_cases slot : s.tick % 3 = 0
  · cases active : s.dma.active
    · exact .inr (.inr (processorSlot_of_dma_idle slot active))
    · exact .inr (.inl ⟨rfl, processorSlot_of_dma_active slot active⟩)
  · exact .inl (processorSlot_of_no_slot slot)

/-- A slot never stops; it keeps the fixtures, and soundness but for the NMI line. -/
theorem processorSlot_next (s : State) : ∃ u, processorSlot s = .next u ∧ SameFixtures s u ∧ (s.Mid → u.Mid) := by
  obtain nothing | ⟨active, dma⟩ | cpu := processorSlot_cases s
  · exact ⟨s, nothing, .refl s, id⟩
  · exact ⟨dmaStep s, dma, dmaStep_sameFixtures s, fun mid => dmaStep_mid mid active⟩
  · obtain ⟨f, program, next⟩ := cpuClock_busProgram
    exact ⟨f s, cpu.trans (next s), program.sameFixtures s, program.mid⟩

/-- A slot does not look at the cycle counter. -/
theorem processorSlot_setCycles (s : State) (n : Nat) :
    ∃ u m, processorSlot s = .next u ∧ processorSlot (s.setCycles n) = .next (u.setCycles m) := by
  have tick : (s.setCycles n).tick = s.tick := rfl
  have dma : (s.setCycles n).dma = s.dma := rfl
  by_cases slot : s.tick % 3 = 0
  · cases active : s.dma.active
    · obtain ⟨f, program, next⟩ := cpuClock_busProgram
      obtain ⟨m, same⟩ := program.setCycles s n
      rw [processorSlot_of_dma_idle slot active, processorSlot_of_dma_idle (by rwa [tick]) (by rwa [dma]), next, next,
        same]
      exact ⟨_, m, rfl, rfl⟩
    · rw [processorSlot_of_dma_active slot active, processorSlot_of_dma_active (by rwa [tick]) (by rwa [dma]),
        dmaStep_setCycles]
      exact ⟨_, n, rfl, rfl⟩
  · rw [processorSlot_of_no_slot slot, processorSlot_of_no_slot (by rwa [tick])]
    exact ⟨_, n, rfl, rfl⟩

/-! ## The dot and the end of the tick -/

theorem afterDot_mid (mid : s.Mid) : (afterDot s).Mid := mid.setPpu (Ppu.clock_sound s.cart s.ppu mid.ppu)

/-- The unit with its line lowered, as the delivery of an NMI leaves it (R472). -/
def lowerLine (s : State) : State := s.setPpu { s.ppu with nmiLine := false }

theorem lowerLine_mid (mid : s.Mid) : (lowerLine s).Mid := by
  have same : Ppu.sound { s.ppu with nmiLine := false } = s.ppu.sound :=
    Ppu.sound_congr rfl rfl rfl rfl rfl rfl rfl rfl rfl rfl
  exact mid.setPpu (same.trans mid.ppu)

/-- The end of a tick is the delivery of the line, if it is raised, and the increment of the counter. -/
theorem endTick_cases (s : State) : (s.ppu.nmiLine = false ∧ endTick s = s.setTick (s.tick + 1)) ∨
    (s.ppu.nmiLine = true ∧ endTick s = (cpuNmi (lowerLine s)).setTick (s.tick + 1)) := by
  cases line : s.ppu.nmiLine
  · exact .inl ⟨rfl, endTick_of_line_low line⟩
  · exact .inr ⟨rfl, endTick_of_line_raised line⟩

theorem endTick_sound (mid : s.Mid) : (endTick s).Sound = true := by
  rw [State.sound_iff_mid]
  obtain ⟨low, quiet⟩ | ⟨-, nmi⟩ := endTick_cases s
  · rw [quiet]
    exact ⟨mid.setTick _, low⟩
  · rw [nmi]
    exact ⟨(cpuNmi_busProgram.mid (lowerLine_mid mid)).setTick _,
      (cpuNmi_busProgram.sameFixtures (lowerLine s)).nmiLine⟩

theorem endTick_nmiLine (s : State) : (endTick s).ppu.nmiLine = false := by
  obtain ⟨low, quiet⟩ | ⟨-, nmi⟩ := endTick_cases s
  · rw [quiet]
    exact low
  · rw [nmi]
    exact (cpuNmi_busProgram.sameFixtures (lowerLine s)).nmiLine

/-- The end of a tick keeps the cartridge and the buttons, and counts one. -/
theorem endTick_keeps (s : State) : (endTick s).cart = s.cart ∧ (endTick s).pad0.buttons = s.pad0.buttons ∧
    (endTick s).pad1.buttons = s.pad1.buttons ∧ (endTick s).tick = s.tick + 1 := by
  obtain ⟨-, quiet⟩ | ⟨-, nmi⟩ := endTick_cases s
  · rw [quiet]
    exact ⟨rfl, rfl, rfl, rfl⟩
  · have same := cpuNmi_busProgram.sameFixtures (lowerLine s)
    rw [nmi]
    exact ⟨same.cart, same.buttons0, same.buttons1, rfl⟩

theorem endTick_setCycles (s : State) (n : Nat) : ∃ m, endTick (s.setCycles n) = (endTick s).setCycles m := by
  have line : (s.setCycles n).ppu.nmiLine = s.ppu.nmiLine := rfl
  obtain ⟨low, quiet⟩ | ⟨raised, nmi⟩ := endTick_cases s
  · rw [quiet, endTick_of_line_low (by rwa [line])]
    exact ⟨n, rfl⟩
  · obtain ⟨m, same⟩ := cpuNmi_busProgram.setCycles (lowerLine s) n
    have delivered : endTick (s.setCycles n) = (cpuNmi ((lowerLine s).setCycles n)).setTick (s.tick + 1) :=
      endTick_of_line_raised (by rwa [line])
    rw [nmi, delivered, same]
    exact ⟨m, rfl⟩

/-! ## The whole tick -/

/-- A tick is the end of what its slot leaves. -/
theorem step_of_processorSlot {u : State} (slot : processorSlot (afterDot s) = .next u) :
    step s = .next (endTick u) := by
  rw [step_eq_afterSlot, slot]
  rfl

/-- Settles O13: the dot, the slot and the end of the tick each run the same with another count of cycles. -/
theorem cyclesAreBookkeeping : Obligations.CyclesAreBookkeeping := by
  unfold Obligations.CyclesAreBookkeeping
  intro s n
  obtain ⟨u, m, slot, slot'⟩ := processorSlot_setCycles (afterDot s) n
  obtain ⟨m', same⟩ := endTick_setCycles u m
  have other : step { s with cycles := n } = .next (endTick (u.setCycles m)) := step_of_processorSlot slot'
  rw [same] at other
  exact ⟨_, m', step_of_processorSlot slot, other⟩

/-- Settles O8: dot and slot keep everything but the low line, and the end of the tick lowers it. -/
theorem stepKeepsSound : Obligations.StepKeepsSound := by
  unfold Obligations.StepKeepsSound
  intro s sound
  obtain ⟨u, slot, -, keeps⟩ := processorSlot_next (afterDot s)
  exact ⟨_, step_of_processorSlot slot, endTick_sound (keeps (afterDot_mid (s.sound_iff_mid.mp sound).1))⟩

/-- Settles O7: an instruction runs as a program, and a slot always has a next state. -/
theorem machineNeverStops : Obligations.MachineNeverStops := by
  unfold Obligations.MachineNeverStops
  refine ⟨fun i s => ?_, fun s => ?_⟩
  · obtain ⟨f, -, next⟩ := exec_busProgram i
    exact ⟨f s, next s⟩
  · obtain ⟨u, slot, -, -⟩ := processorSlot_next (afterDot s)
    exact ⟨_, step_of_processorSlot slot⟩

/-- Settles O14: the dot changes the picture unit alone, and neither the slot nor the end of the tick a fixture. -/
theorem cartridgeAndButtonsNeverChange : Obligations.CartridgeAndButtonsNeverChange := by
  unfold Obligations.CartridgeAndButtonsNeverChange
  intro s
  obtain ⟨u, slot, same, -⟩ := processorSlot_next (afterDot s)
  obtain ⟨cart, buttons0, buttons1, -⟩ := endTick_keeps u
  exact ⟨_, step_of_processorSlot slot, cart.trans same.cart, buttons0.trans same.buttons0,
    buttons1.trans same.buttons1⟩

/-! ## The NMI (R441, R472) -/

/-- In a sound state the dot raises the line exactly at (241, 1) with `enable_nmi` (R441). -/
theorem afterDot_nmiLine_iff (sound : s.Sound = true) : (afterDot s).ppu.nmiLine = true ↔
    s.ppu.scanline = 241 ∧ s.ppu.cycle = 1 ∧ s.ppu.enableNmi = true := by
  have low : s.ppu.nmiLine = false := (s.sound_iff_mid.mp sound).2
  rw [← and_assoc]
  by_cases start : s.ppu.scanline = 241 ∧ s.ppu.cycle = 1
  · have raised : (afterDot s).ppu.nmiLine = (s.ppu.nmiLine || s.ppu.enableNmi) :=
      Ppu.clock_nmiLine_of_start s.cart start
    rw [raised, low, Bool.false_or, and_iff_right start]
  · have kept : (afterDot s).ppu.nmiLine = s.ppu.nmiLine := Ppu.clock_nmiLine_of_quiet s.cart start
    rw [kept, low]
    exact ⟨fun h => absurd h Bool.false_ne_true, fun h => absurd h.1 start⟩

/-- A delivered NMI is the entry of R505 from the state whose line has been lowered, which no part of the entry sees. -/
theorem endTick_entered {u : State} (mid : u.Mid) (present : u.cart.present = true) (raised : u.ppu.nmiLine = true) :
    Entered 0xFFFA false u.pc u (endTick u) ∧ (endTick u).cycles = u.cycles + 7 ∧ (endTick u).dma = u.dma := by
  have lo : (0x8000 : Word) ≤ 0xFFFA := by decide
  have hi : (0x8000 : Word) ≤ 0xFFFA + 1 := by decide
  have hc : (lowerLine u).cart.present = true := present
  have entered := takeInterrupt_entered false hc lo hi (lowerLine_mid mid)
  have cycles := takeInterrupt_cycles false hc lo hi
  obtain ⟨dma, -⟩ := takeInterrupt_sameDevices false hc lo hi
  have delivered : endTick u = ((takeInterrupt 0xFFFA false (lowerLine u)).charge 7).setTick (u.tick + 1) :=
    endTick_of_line_raised raised
  rw [delivered]
  generalize takeInterrupt 0xFFFA false (lowerLine u) = t at entered cycles dma
  exact ⟨entered, congrArg (· + 7) cycles, dma⟩

/-- Settles O12: the slot keeps the line as the dot left it, and the end of the tick delivers it. -/
theorem nmiArrivesAtVerticalBlank : Obligations.NmiArrivesAtVerticalBlank := by
  unfold Obligations.NmiArrivesAtVerticalBlank
  intro s sound present
  have mid := (s.sound_iff_mid.mp sound).1
  obtain ⟨u, slot, same, keeps⟩ := processorSlot_next (afterDot s)
  obtain ⟨-, -, -, tick⟩ := endTick_keeps u
  have line : u.ppu.nmiLine = true ↔ s.ppu.scanline = 241 ∧ s.ppu.cycle = 1 ∧ s.ppu.enableNmi = true := by
    rw [same.nmiLine, afterDot_nmiLine_iff sound]
  have hc : u.cart.present = true := (congrArg Cartridge.present same.cart).trans present
  refine ⟨u, endTick u, slot, step_of_processorSlot slot, endTick_nmiLine u, tick.trans (congrArg (· + 1) same.tick),
    fun nmi => endTick_entered (keeps (afterDot_mid mid)) hc (line.mpr nmi), fun quiet => ?_⟩
  exact endTick_of_line_low (Bool.eq_false_iff.mpr (mt line.mp quiet))

end Sys2Proof.Machine
end

