-- ==== Sys2Proof/Proofs/Codec.lean ====
section
/-! The decoder and the encoder (R130 to R145). A format says which instructions it makes from which operand bytes, and
the decoder reads exactly that. The encoder writes an instruction as its opcode's format makes it, and every format
makes only instructions with its own opcode. -/

namespace Sys2Proof

/-! ## What a format makes -/

/-- The format makes this instruction from these operand bytes (R132, R134). -/
inductive Format.Makes : Format → Instr → List Byte → Prop
  | alone (i : Instr) : Makes (.alone i) i []
  | skipByte (i : Instr) (b : Byte) : Makes (.skipByte i) i [b]
  | oneByte (f : Byte → Instr) (b : Byte) : Makes (.oneByte f) (f b) [b]
  | twoBytes (f : Word → Instr) (w : Word) : Makes (.twoBytes f) (f w) [loByte w, hiByte w]

theorem Format.Makes.wordOf (f : Word → Instr) (hi lo : Byte) : Makes (.twoBytes f) (f (wordOf hi lo)) [lo, hi] := by
  simpa using Makes.twoBytes f (Sys2Proof.wordOf hi lo)

variable {u : UndocParams} {op : Byte} {i : Instr} {used rest : List Byte}

/-- The decoder reads an opcode byte and what its format asks for. -/
theorem decode_eq_ok_of_makes (h : (formatOf u op).Makes i used) : decode u (op :: used ++ rest) = .ok (i, rest) := by
  unfold decode
  cases format : formatOf u op <;> rw [format] at h <;> cases h <;> simp [format]

/-- It reads nothing else. -/
theorem makes_of_decode_eq_ok {bytes : List Byte} (h : decode u bytes = .ok (i, rest)) :
    ∃ op used, bytes = op :: used ++ rest ∧ (formatOf u op).Makes i used := by
  cases bytes with
  | nil => cases h
  | cons op tail =>
    refine ⟨op, ?_⟩
    simp only [decode] at h
    split at h
    · next format =>
      cases h
      exact ⟨[], rfl, format ▸ .alone i⟩
    · next b _ format =>
      cases h
      exact ⟨[b], rfl, format ▸ .skipByte i b⟩
    · next f b _ format =>
      cases h
      exact ⟨[b], rfl, format ▸ .oneByte f b⟩
    · next f lo hi _ format =>
      cases h
      exact ⟨[lo, hi], rfl, format ▸ .wordOf f hi lo⟩
    · cases h

/-- From three bytes every format makes an instruction, so all 256 opcode bytes decode (R140). -/
theorem exists_makes_of_two_bytes (f : Format) (b1 b2 : Byte) :
    ∃ i used rest, f.Makes i used ∧ [b1, b2] = used ++ rest := by
  cases f with
  | alone i => exact ⟨i, [], _, .alone i, rfl⟩
  | skipByte i => exact ⟨i, [b1], _, .skipByte i b1, rfl⟩
  | oneByte g => exact ⟨_, [b1], _, .oneByte g b1, rfl⟩
  | twoBytes g => exact ⟨_, [b1, b2], _, .wordOf g b2 b1, rfl⟩

/-! ## The assigned opcodes (R135, R136) -/

/-- Cell by cell through the matrix: the format of an assigned opcode makes only instructions with that opcode byte and
those operand bytes. -/
theorem assignedFormat_makes {f : Format} (assigned : assignedFormat op = some f) (h : f.Makes i used) :
    opcode i = op ∧ operandBytes i = used ∧ i.wellFormed u = true := by
  obtain ⟨n, hn, rfl⟩ : ∃ n < 256, op = BitVec.ofNat 8 n := ⟨op.toNat, op.isLt, by simp⟩
  interval_cases n <;> cases assigned <;> cases h <;> exact ⟨rfl, rfl, rfl⟩

/-! ## The unassigned opcodes (R140, R141) -/

theorem unassigned_iff : unassigned op = true ↔ assignedFormat op = none := Option.isNone_iff_eq_none

theorem formatOf_unassigned (h : unassigned op = true) : formatOf u op = undocFormat u op := by
  rw [formatOf, unassigned_iff.mp h]
  rfl

theorem formatOf_assigned {f : Format} (h : assignedFormat op = some f) : formatOf u op = f := by
  rw [formatOf, h]
  rfl

/-- The format of an unassigned opcode makes XXX in the opcode's mode, of any operand bytes of the mode's number; only
the byte of mode IMM is not kept. -/
theorem undocFormat_makes (h : (undocFormat u op).Makes i used) :
    ∃ o, i = .xxx op o ∧ o.mode = undocMode u op ∧ used.length = o.bytes.length ∧ (o ≠ .imm → used = o.bytes) := by
  unfold undocFormat at h
  split at h <;> rename_i mode <;> cases h <;> rw [mode]
  case h_3 => exact ⟨.imm, rfl, rfl, rfl, fun other => absurd rfl other⟩
  all_goals exact ⟨_, rfl, rfl, rfl, fun _ => rfl⟩

/-- It makes all of them. -/
theorem undocFormat_makes_bytes {o : UndocOperand} (mode : o.mode = undocMode u op) :
    (undocFormat u op).Makes (.xxx op o) o.bytes := by
  unfold undocFormat
  rw [← mode]
  cases o <;> constructor

/-! ## Every opcode -/

/-- Instruction by instruction and form by form: the encoder's operand bytes are what the opcode's format asks for. -/
theorem formatOf_makes_operandBytes (wf : i.wellFormed u = true) :
    (formatOf u (opcode i)).Makes i (operandBytes i) := by
  cases i with
  | xxx op o =>
    simp only [Instr.wellFormed, Bool.and_eq_true, beq_iff_eq] at wf
    obtain ⟨free, mode⟩ := wf
    have format : formatOf u (opcode (.xxx op o)) = undocFormat u op := formatOf_unassigned free
    rw [format]
    exact undocFormat_makes_bytes mode
  | lda o | adc o | sbc o | and o | ora o | eor o | cmp o => cases o <;> rw [opcode] <;> constructor
  | ldx o => cases o <;> rw [opcode] <;> constructor
  | ldy o => cases o <;> rw [opcode] <;> constructor
  | sta o => cases o <;> rw [opcode] <;> constructor
  | stx o => cases o <;> rw [opcode] <;> constructor
  | sty o => cases o <;> rw [opcode] <;> constructor
  | cpx o | cpy o => cases o <;> rw [opcode] <;> constructor
  | bit o => cases o <;> rw [opcode] <;> constructor
  | inc o | dec o => cases o <;> rw [opcode] <;> constructor
  | asl o | lsr o | rol o | ror o => cases o <;> rw [opcode] <;> constructor
  | jmp o => cases o <;> rw [opcode] <;> constructor
  | _ => rw [opcode]; constructor

/-- An opcode's format makes only well-formed instructions with that opcode, and the bytes are their encoding's but
for the skipped byte of mode IMM. -/
theorem formatOf_makes (h : (formatOf u op).Makes i used) : opcode i = op ∧ i.wellFormed u = true ∧
    used.length = (operandBytes i).length ∧ ((∀ op, i ≠ .xxx op .imm) → used = operandBytes i) ∧
    (unassigned op = true → ∃ o, i = .xxx op o ∧ o.mode = undocMode u op) := by
  cases cell : assignedFormat op with
  | some f =>
    rw [formatOf_assigned cell] at h
    obtain ⟨same, bytes, wf⟩ := assignedFormat_makes (u := u) cell h
    have taken : ¬unassigned op = true := by rw [unassigned_iff, cell]; exact Option.some_ne_none f
    exact ⟨same, wf, congrArg List.length bytes.symm, fun _ => bytes.symm, fun free => absurd free taken⟩
  | none =>
    have free : unassigned op = true := unassigned_iff.mpr cell
    rw [formatOf_unassigned free] at h
    obtain ⟨o, rfl, mode, length, bytes⟩ := undocFormat_makes h
    have wf : (Instr.xxx op o).wellFormed u = true := by simp [Instr.wellFormed, free, mode]
    exact ⟨rfl, wf, length, fun kept => bytes fun imm => kept op (imm ▸ rfl), fun _ => ⟨o, rfl, mode⟩⟩

/-! ## The obligations -/

/-- Settles O1: the encoder writes what the opcode's format makes. -/
theorem decodeUndoesEncode : Obligations.DecodeUndoesEncode := by
  unfold Obligations.DecodeUndoesEncode
  exact fun u i rest wf => decode_eq_ok_of_makes (formatOf_makes_operandBytes wf)

/-- Settles O2: the decoder reads what an opcode's format makes, which is the encoding but for a skipped byte. -/
theorem encodeUndoesDecode : Obligations.EncodeUndoesDecode := by
  unfold Obligations.EncodeUndoesDecode
  intro u bytes i rest decoded
  obtain ⟨op, used, rfl, makes⟩ := makes_of_decode_eq_ok decoded
  obtain ⟨rfl, wf, length, same, -⟩ := formatOf_makes makes
  exact ⟨wf, opcode i :: used, rfl, congrArg (· + 1) length, rfl, fun kept => congrArg (opcode i :: ·) (same kept)⟩

/-- Settles O3: every format makes an instruction of two operand bytes, and every instruction completes. -/
theorem everyOpcodeByteExecutes : Obligations.EveryOpcodeByteExecutes := by
  unfold Obligations.EveryOpcodeByteExecutes
  intro u op b1 b2
  obtain ⟨i, used, rest, makes, bytes⟩ := exists_makes_of_two_bytes (formatOf u op) b1 b2
  obtain ⟨same, wf, -, -, free⟩ := formatOf_makes makes
  have decoded : decode u [op, b1, b2] = .ok (i, rest) := by
    rw [bytes]
    exact decode_eq_ok_of_makes makes
  exact ⟨i, rest, decoded, same, wf, free, Machine.machineNeverStops.1 i⟩

/-- Settles O4: the examples are encodings of their instructions, which are well formed whatever the parameters. -/
theorem exampleEncodingsDecode : Obligations.ExampleEncodingsDecode := by
  unfold Obligations.ExampleEncodingsDecode
  intro u
  have decoded {bytes : List Byte} {i : Instr} (enc : encode i = bytes) (wf : i.wellFormed u = true) :
      decode u bytes = .ok (i, []) := by
    simpa [enc] using decodeUndoesEncode u i [] wf
  exact ⟨decoded rfl rfl, decoded rfl rfl, decoded rfl rfl, decoded rfl rfl, decoded rfl rfl, decoded rfl rfl,
    decoded rfl rfl, decoded rfl rfl, decoded rfl rfl, decoded rfl rfl, decoded rfl rfl, decoded rfl rfl,
    decoded rfl rfl⟩

end Sys2Proof
end

