-- ==== Sys2Proof/Proofs/FrameDots.lean ====
section
/-! Dots over a frame (R353, R402, R442): the number of the dot as a counter modulo 89,342, the dot that marks the end
of a frame, and what no dot changes. -/

namespace Sys2Proof.Machine

open Sys2Proof.Claims

namespace Ppu

variable (c : Cartridge) (p : Ppu)

/-! ## The coordinates -/

/-- The coordinates of the dot, and whether a frame has ended (R353). -/
def coordinates (p : Ppu) : Int × Nat × Bool := (p.scanline, p.cycle, p.frameComplete)

theorem advance_coordinates_congr {p q : Ppu} (same : q.coordinates = p.coordinates) :
    q.advance.coordinates = p.advance.coordinates := by
  obtain ⟨scanline, cycle, complete⟩ : q.scanline = p.scanline ∧ q.cycle = p.cycle ∧
      q.frameComplete = p.frameComplete := by simpa [coordinates] using same
  unfold advance
  rw [scanline, cycle]
  split_ifs
  · rfl
  · exact congrArg (fun b => (_, _, b)) complete
  · simp only [coordinates, complete]

/-- A dot moves the coordinates as its advance alone would: the steps before it leave them (R403). -/
theorem clock_coordinates : (p.clock c).coordinates = p.advance.coordinates := by
  rw [clock_eq_rendered]
  have rendered : (p.rendered c).coordinates = p.coordinates := by rw [rendered_eq_setPipelines]; rfl
  refine advance_coordinates_congr ((when_keeps coordinates _ ?_).trans ((when_keeps coordinates _ ?_).trans rendered))
  · rw [composePixel_eq]
    rfl
  · exact when_keeps coordinates _ rfl

/-- The dot is on its grid (R402). -/
abbrev OnGrid : Prop := -1 ≤ p.scanline ∧ p.scanline ≤ 260 ∧ p.cycle ≤ 340

variable {p}

theorem onGrid_of_sound (sound : p.sound = true) : p.OnGrid := by
  obtain ⟨-, -, -, -, -, ⟨low, high⟩, cycle, -⟩ := (sound_iff p).mp sound
  exact ⟨low, high, cycle⟩

/-- The three kinds of advance (R442): within a line, to the next line, and to the next frame. -/
theorem advance_dotIndex (grid : p.OnGrid) : dotIndex p.advance = (dotIndex p + 1) % 89342 ∧
    p.advance.frameComplete = (p.frameComplete || decide (dotIndex p = 89341)) := by
  obtain ⟨low, high, width⟩ := grid
  unfold advance dotIndex
  by_cases line : p.cycle + 1 > 340
  · rw [if_pos line]
    by_cases frame : p.scanline + 1 > 260
    · rw [if_pos frame]
      refine ⟨by dsimp only; omega, ?_⟩
      rw [decide_eq_true (by omega), Bool.or_true]
    · rw [if_neg frame]
      refine ⟨by dsimp only; omega, ?_⟩
      rw [decide_eq_false (by omega), Bool.or_false]
  · rw [if_neg line]
    refine ⟨by dsimp only; omega, ?_⟩
    rw [decide_eq_false (by omega), Bool.or_false]

theorem clock_dotIndex (grid : p.OnGrid) : dotIndex (p.clock c) = (dotIndex p + 1) % 89342 ∧
    (p.clock c).frameComplete = (p.frameComplete || decide (dotIndex p = 89341)) := by
  have same := p.clock_coordinates c
  have number : dotIndex (p.clock c) = dotIndex p.advance :=
    congrArg (fun dot : Int × Nat × Bool => (dot.1 + 1) * 341 + (dot.2.1 : Int)) same
  have complete : (p.clock c).frameComplete = p.advance.frameComplete :=
    congrArg (fun dot : Int × Nat × Bool => dot.2.2) same
  rw [number, complete]
  exact advance_dotIndex grid

/-! ## Many dots -/

theorem iterate_clock_sound (sound : p.sound = true) : ∀ n, ((clock c)^[n] p).sound = true
  | 0 => sound
  | n + 1 => by
    rw [Function.iterate_succ_apply']
    exact clock_sound c _ (iterate_clock_sound sound n)

theorem iterate_clock_dotIndex (sound : p.sound = true) (n : Nat) :
    dotIndex ((clock c)^[n] p) = (dotIndex p + n) % 89342 := by
  induction n with
  | zero =>
    obtain ⟨low, high, width⟩ := onGrid_of_sound sound
    simp only [Function.iterate_zero_apply, dotIndex]
    omega
  | succ n ih =>
    obtain ⟨next, -⟩ := clock_dotIndex c (onGrid_of_sound (iterate_clock_sound c sound n))
    rw [Function.iterate_succ_apply', next, ih]
    omega

theorem iterate_clock_frameComplete (sound : p.sound = true) (n : Nat) :
    ((clock c)^[n] p).frameComplete = true ↔
      p.frameComplete = true ∨ ∃ k, k < n ∧ (dotIndex p + k) % 89342 = 89341 := by
  induction n with
  | zero => simp
  | succ n ih =>
    obtain ⟨-, next⟩ := clock_dotIndex c (onGrid_of_sound (iterate_clock_sound c sound n))
    rw [Function.iterate_succ_apply', next, Bool.or_eq_true, ih, decide_eq_true_eq,
      iterate_clock_dotIndex c sound n, or_assoc]
    refine or_congr_right ?_
    simp only [Nat.lt_succ_iff_lt_or_eq, or_and_right, exists_or, exists_eq_left]

end Ppu

/-! ## The obligations -/

/-- Settles O55: none of these fields is among the parts that a dot works on, and `v` is moved while rendering alone. -/
theorem clockLeavesMemoriesAlone : Obligations.ClockLeavesMemoriesAlone := by
  unfold Obligations.ClockLeavesMemoriesAlone
  intro c p
  have kept {α : Type} (g : Ppu → α) {q : Ppu} (dot : p.clock c = q) (same : g q = g p) : g (p.clock c) = g p :=
    (congrArg g dot).trans same
  have dot := p.clock_eq_setPipelines c
  exact ⟨_, rfl, kept Ppu.oam dot rfl, kept Ppu.nt dot rfl, kept Ppu.pt dot rfl, kept Ppu.pal dot rfl,
    kept Ppu.ctrl dot rfl, kept Ppu.mask dot rfl, kept Ppu.t dot rfl, kept Ppu.fineX dot rfl, kept Ppu.w dot rfl,
    kept Ppu.dataBuffer dot rfl, kept Ppu.oamAddr dot rfl, fun off => (p.clock_v c).trans (if_neg (Bool.eq_false_iff.mp off))⟩

/-- Settles O53: a dot adds one to its number modulo a frame, and the last dot of a frame sets `frame_complete`. -/
theorem frameIs89342Dots : Obligations.FrameIs89342Dots := by
  unfold Obligations.FrameIs89342Dots
  exact fun c p sound => ⟨Ppu.iterate_clock_dotIndex c sound, Ppu.iterate_clock_frameComplete c sound⟩

end Sys2Proof.Machine
end

