-- ==== Sys2Proof/Proofs/BusReads.lean ====
section
/-! What a bus read does at every address (R72, R104): first the device each address selects, then the read's one effect
on that device, then what follows for RAM's mirrors and the controllers. -/

namespace Sys2Proof.Machine

open Sys2Proof.Claims

/-! ## The device a read selects above RAM -/

theorem readDevice_pad0 (c : Cartridge) : readDevice c 0x4016 = .pad false := by
  rw [readDevice_low c (by decide)]
  rfl

theorem readDevice_pad1 (c : Cartridge) : readDevice c 0x4017 = .pad true := by
  rw [readDevice_low c (by decide)]
  rfl

/-- Between the ports and the cartridge's window only the two controllers answer a read. -/
theorem readDevice_unmapped (c : Cartridge) {a : Word} (h : 0x4000 ≤ a) (h' : a < 0x8000) (h0 : a ≠ 0x4016)
    (h1 : a ≠ 0x4017) : readDevice c a = .nothing := by
  rw [readDevice_low c h', if_neg (by bv_omega), if_neg (by bv_omega), if_neg (not_or.mpr ⟨h0, h1⟩)]

/-- Without a cartridge nothing answers in its window (R75). -/
theorem readDevice_empty_window {c : Cartridge} (hc : c.present = false) {a : Word} (h : 0x8000 ≤ a) :
    readDevice c a = .nothing := by
  unfold readDevice
  rw [hc, if_neg Bool.false_ne_true]
  simp only
  rw [if_neg (by bv_omega), if_neg (by bv_omega), if_neg (by bv_omega)]

/-- The addresses no device answers (R75). -/
theorem readDevice_nothing {c : Cartridge} {a : Word} (h : (0x4000 ≤ a.toNat ∧ a.toNat < 0x4016) ∨
    (0x4018 ≤ a.toNat ∧ a.toNat < 0x8000) ∨ (0x8000 ≤ a.toNat ∧ c.present = false)) : readDevice c a = .nothing := by
  obtain ⟨lo, hi⟩ | ⟨lo, hi⟩ | ⟨lo, empty⟩ := h
  · exact readDevice_unmapped c (by bv_omega) (by bv_omega) (by bv_omega) (by bv_omega)
  · exact readDevice_unmapped c (by bv_omega) (by bv_omega) (by bv_omega) (by bv_omega)
  · exact readDevice_empty_window empty (by bv_omega)

/-- The bank mask as a modulus (R81). -/
theorem and_prgMask_toNat (c : Cartridge) (a : Word) :
    (a &&& c.prgMask).toNat = a.toNat % (if c.prgBanks = 1 then 0x4000 else 0x8000) := by
  unfold Cartridge.prgMask
  by_cases one : c.prgBanks = 1
  · rw [if_neg (by omega), if_pos one, BitVec.toNat_and]
    exact Nat.and_two_pow_sub_one_eq_mod a.toNat 14
  · have more : c.prgBanks > 1 := by
      have : c.prgBanks = c.extraPrgBanks + 1 := rfl
      omega
    rw [if_pos more, if_neg one, BitVec.toNat_and]
    exact Nat.and_two_pow_sub_one_eq_mod a.toNat 15

/-! ## The effect of a read on each device -/

section Effect
variable {a : Word} (s : State)

theorem busRead_of_port (h : 0x2000 ≤ a) (h' : a ≤ 0x3FFF) : busRead a s =
    ((s.ppu.portRead s.cart (a.setWidth 3)).1, s.setPpu (s.ppu.portRead s.cart (a.setWidth 3)).2) := by
  unfold busRead
  rw [readDevice_port _ h h']

theorem busRead_pad0 : busRead 0x4016 s = (s.pad0.read.1, s.setPad0 s.pad0.read.2) := by
  unfold busRead
  rw [readDevice_pad0]
  rfl

theorem busRead_pad1 : busRead 0x4017 s = (s.pad1.read.1, s.setPad1 s.pad1.read.2) := by
  unfold busRead
  rw [readDevice_pad1]
  rfl

theorem busRead_of_nothing (h : readDevice s.cart a = .nothing) :
    busRead a s = (Config.openBus a s.openReads, s.setOpenReads (s.openReads + 1)) := by
  unfold busRead
  rw [h]

/-- The one bit a controller answers (R90). -/
theorem padRead_fst (d : Pad) : d.read.1 = BitVec.ofNat 8 (d.shift.toNat % 2) := by
  rw [← getLsbD_zero_toNat]
  unfold Pad.read Pad.read.zextBit
  cases d.shift.getLsbD 0 <;> rfl

end Effect

/-- Settles O43: each clause is the effect of the one device its addresses select. -/
theorem busReadDecodes : Obligations.BusReadDecodes := by
  unfold Obligations.BusReadDecodes
  intro a s
  refine ⟨fun ram => ?_, fun lo hi => ⟨_, rfl, ?_⟩, fun pad0 => ?_, fun pad1 => ?_, fun rom present => ?_,
    fun nothing => ?_⟩
  · rw [busRead_of_ram s (by bv_omega), ramIndex_eq_mod]
  · rw [busRead_of_port s (by bv_omega) (by bv_omega), setWidth_three_eq_mod]
    rfl
  · obtain rfl : a = 0x4016 := BitVec.eq_of_toNat_eq pad0
    rw [busRead_pad0, padRead_fst]
    rfl
  · obtain rfl : a = 0x4017 := BitVec.eq_of_toNat_eq pad1
    rw [busRead_pad1, padRead_fst]
    rfl
  · rw [busRead_of_rom s present (by bv_omega), and_prgMask_toNat]
  · exact busRead_of_nothing s (readDevice_nothing nothing)

/-! ## What a read leaves alone (R104) -/

/-- A port read changes `status`, `w`, `data_buffer` and `v` alone. -/
theorem Ppu.portRead_eq (c : Cartridge) (p : Ppu) (port : BitVec 3) : (p.portRead c port).2 =
    { p with status := (p.portRead c port).2.status, w := (p.portRead c port).2.w
             dataBuffer := (p.portRead c port).2.dataBuffer, v := (p.portRead c port).2.v } := by
  unfold Ppu.portRead
  split_ifs <;> rfl

/-- Only a read of port 2 or port 7 has a side effect (R361, R363, R366, R368). -/
theorem Ppu.portRead_of_quiet (c : Cartridge) (p : Ppu) {port : BitVec 3} (not2 : port ≠ 2) (not7 : port ≠ 7) :
    (p.portRead c port).2 = p := by
  rw [Ppu.portRead, if_neg not2, if_neg not7]
  split_ifs <;> rfl

/-- No bus read changes a part of the picture unit that its ports do not change on a read. -/
theorem busRead_ppu_eq (a : Word) (s : State) : (busRead a s).2.ppu =
    { s.ppu with status := (busRead a s).2.ppu.status, w := (busRead a s).2.ppu.w
                 dataBuffer := (busRead a s).2.ppu.dataBuffer, v := (busRead a s).2.ppu.v } := by
  obtain h | ⟨p, h⟩ | ⟨b, h⟩ | h := busRead_cases a s <;> rw [h]
  · exact Ppu.portRead_eq s.cart s.ppu p
  · rw [State.setPad_ppu]
  · rfl

@[simp] theorem busRead_oam (a : Word) (s : State) : (busRead a s).2.ppu.oam = s.ppu.oam := by rw [busRead_ppu_eq]
@[simp] theorem busRead_oamAddr (a : Word) (s : State) : (busRead a s).2.ppu.oamAddr = s.ppu.oamAddr := by
  rw [busRead_ppu_eq]

/-- Settles O46: the fields by the rules of a read, each clause on its device by the effect of that device. -/
theorem readsChangeOnlyTheirDevice : Obligations.ReadsChangeOnlyTheirDevice := by
  unfold Obligations.ReadsChangeOnlyTheirDevice
  intro a s
  have unit := busRead_ppu_eq a s
  have same := busRead_sameFixtures a s
  refine ⟨_, rfl, ⟨busRead_a a s, busRead_x a s, busRead_y a s⟩, busRead_sp a s, busRead_pc a s, busRead_p a s,
    busRead_cycles a s, sameMemory_of_ram_cart (busRead_ram a s) (busRead_cart a s), busRead_ram a s, busRead_dma a s,
    ⟨same.cart, same.tick⟩, by rw [unit], by rw [unit], by rw [unit], by rw [unit], by rw [unit], same.buttons0,
    same.buttons1, fun port2 => ?_, fun port7 => ?_, fun pad0 => ?_, fun pad1 => ?_, fun nothing => ?_, fun quiet => ?_⟩
  · have port : a.setWidth 3 = 2 := by rw [setWidth_three_eq_mod, port2.2.2]; rfl
    rw [busRead_of_port s (by bv_omega) (by bv_omega), port]
    rfl
  · have port : a.setWidth 3 = 7 := by rw [setWidth_three_eq_mod, port7.2.2]; rfl
    rw [busRead_of_port s (by bv_omega) (by bv_omega), port]
    rfl
  · obtain rfl : a = 0x4016 := BitVec.eq_of_toNat_eq pad0
    rw [busRead_pad0]
    rfl
  · obtain rfl : a = 0x4017 := BitVec.eq_of_toNat_eq pad1
    rw [busRead_pad1]
    rfl
  · rw [busRead_of_nothing s (readDevice_nothing nothing)]
    rfl
  · obtain ram | ⟨lo, hi, not2, not7⟩ | ⟨rom, present⟩ := quiet
    · rw [busRead_of_ram s (by bv_omega)]
    · rw [busRead_of_port s (by bv_omega) (by bv_omega), setWidth_three_eq_mod,
        Ppu.portRead_of_quiet _ _ (by bv_omega) (by bv_omega)]
      rfl
    · rw [busRead_of_rom s present (by bv_omega)]

/-! ## RAM's mirrors (R76) -/

/-- Settles O45: both accesses select RAM at the address modulo 0x800. -/
theorem ramIsMirrored : Obligations.RamIsMirrored := by
  unfold Obligations.RamIsMirrored
  intro a b v s sound ha hb
  have hw : s.ram.wf 0x800 = true := ((s.sound_iff_mid).mp sound).1.ram
  rw [busWrite_of_ram v s (by bv_omega), busRead_of_ram _ (by bv_omega), busRead_of_ram _ (by bv_omega),
    State.setRam_ram, Memory.read_write hw, ramIndex_eq_mod, ramIndex_eq_mod]

/-! ## Controllers (R90, R91) -/

/-- The port of a controller (R89). -/
def padPort (second : Bool) : Word := if second then 0x4017 else 0x4016

theorem busRead_padPort (second : Bool) (s : State) :
    busRead (padPort second) s = ((s.pad second).read.1, s.setPad second (s.pad second).read.2) := by
  cases second
  · exact busRead_pad0 s
  · exact busRead_pad1 s

theorem busWrite_padPort (second : Bool) (v : Byte) (s : State) :
    busWrite (padPort second) v s = s.setPad second (s.pad second).latch := by
  cases second
  · exact busWrite_pad0 v s
  · exact busWrite_pad1 v s

/-- Each read shifts, so the `n`-th gives bit `n` of the shift register. -/
theorem nthRead_padPort (second : Bool) (n : Nat) (s : State) :
    nthRead (padPort second) n s = if (s.pad second).shift.getLsbD n = true then 1 else 0 := by
  induction n generalizing s with
  | zero =>
    rw [nthRead, busRead_padPort]
    rfl
  | succ n ih =>
    have shifted : (s.pad second).read.2.shift.getLsbD n = (s.pad second).shift.getLsbD (n + 1) := by
      rw [Nat.add_comm]
      exact BitVec.getLsbD_ushiftRight ..
    rw [nthRead, busRead_padPort, ih, State.pad_setPad, shifted]

/-- Settles O47: the write puts the buttons into the shift register, whose bits from 8 on are 0. -/
theorem controllerShiftsLatchedButtons : Obligations.ControllerShiftsLatchedButtons := by
  unfold Obligations.ControllerShiftsLatchedButtons
  intro second v n s
  refine ⟨padPort second, rfl, ?_⟩
  have latched : ((busWrite (padPort second) v s).pad second).shift = s.readButtons second := by
    rw [busWrite_padPort, State.pad_setPad]
    rfl
  rw [nthRead_padPort, latched]
  exact if_congr (iff_and_self.mpr BitVec.lt_of_getLsbD) rfl rfl

end Sys2Proof.Machine
end

