-- ==== Sys2Proof/Proofs/Transfer.lean ====
section
/-! A DMA transfer (R460 to R464): the engine after each slot in closed form, which the ticks between slots and a
delivered NMI leave alone, and what the slots so far have copied into OAM. -/

namespace Sys2Proof.Machine

open Sys2Proof.Claims

/-! ## Runs -/

theorem run_succ_of_step {s u : State} (next : step s = .next u) (n : Nat) : run (n + 1) s = run n u := by
  rw [run, next]

theorem run_succ {u : State} : ∀ (n : Nat) (s : State), step (run n s) = .next u → run (n + 1) s = u
  | 0, _, last => run_succ_of_step last 0
  | n + 1, s, last => by
    obtain ⟨t, next⟩ := machineNeverStops.2 s
    rw [run_succ_of_step next] at last ⊢
    exact run_succ n t last

/-- What holds at the start and is carried by each of `n` ticks holds along the run. -/
theorem run_induction {P : Nat → State → Prop} {s : State} {n : Nat} (start : P 0 s)
    (tick : ∀ k t, k < n → P k t → ∃ u, step t = .next u ∧ P (k + 1) u) : ∀ k ≤ n, P k (run k s)
  | 0, _ => start
  | k + 1, bound => by
    obtain ⟨u, next, holds⟩ := tick k _ bound (run_induction start tick k (Nat.le_of_succ_le bound))
    rw [run_succ k s next]
    exact holds

/-! ## What the ticks between slots leave -/

/-- What a transfer works with, and the registers it must not touch, are the same. -/
structure SameTransfer (s t : State) : Prop where
  axy : SameAXY s t
  dma : t.dma = s.dma
  oam : t.ppu.oam = s.ppu.oam
  oamAddr : t.ppu.oamAddr = s.ppu.oamAddr

theorem SameTransfer.refl (s : State) : SameTransfer s s := ⟨⟨rfl, rfl, rfl⟩, rfl, rfl, rfl⟩

theorem SameTransfer.trans {s t u : State} (h : SameTransfer s t) (h' : SameTransfer t u) : SameTransfer s u := by
  obtain ⟨⟨a, x, y⟩, dma, oam, oamAddr⟩ := h
  obtain ⟨⟨a', x', y'⟩, dma', oam', oamAddr'⟩ := h'
  exact ⟨⟨a'.trans a, x'.trans x, y'.trans y⟩, dma'.trans dma, oam'.trans oam, oamAddr'.trans oamAddr⟩

section
variable (s : State)

theorem afterDot_sameTransfer : SameTransfer s (afterDot s) :=
  ⟨⟨rfl, rfl, rfl⟩, rfl, s.ppu.clock_oam s.cart, (congrArg Ppu.oamAddr (s.ppu.clock_eq_setPipelines s.cart)).trans rfl⟩

/-- An entry's pushes reach RAM alone, and its read of the vector none of these. -/
theorem takeInterrupt_sameTransfer (vector : Word) (b : Bool) : SameTransfer s (takeInterrupt vector b s) := by
  constructor <;> simp [takeInterrupt, busRead16, pushWord, SameAXY]

theorem endTick_sameTransfer : SameTransfer s (endTick s) := by
  obtain ⟨-, quiet⟩ | ⟨-, nmi⟩ := endTick_cases s
  · rw [quiet]
    exact ⟨⟨rfl, rfl, rfl⟩, rfl, rfl, rfl⟩
  · obtain ⟨axy, dma, oam, oamAddr⟩ := takeInterrupt_sameTransfer (lowerLine s) nmiVector false
    rw [nmi]
    exact ⟨axy, dma, oam, oamAddr⟩

end

/-! ## The engine -/

/-- The slots of the alignment delay of a transfer whose first slot has tick `t`: the last of them has an odd tick. -/
def delaySlots (t : Nat) : Nat := if t % 2 = 1 then 1 else 2

theorem delaySlots_cases (t : Nat) : (t % 2 = 1 ∧ delaySlots t = 1) ∨ (t % 2 = 0 ∧ delaySlots t = 2) := by
  unfold delaySlots
  split_ifs <;> omega

theorem transferSlots_eq (t : Nat) : transferSlots t = delaySlots t + 512 := by
  unfold transferSlots delaySlots
  split_ifs <;> rfl

/-- The engine after `n` slots of a transfer with a delay of `delay` slots: first the delay, then two slots for each
offset, then idle (R462). -/
def engineAt (page : Byte) (delay n : Nat) (data : Byte) : Dma :=
  if n < delay then { page, addr := 0, data, active := true, dummy := true }
  else if n < delay + 512 then { page, addr := BitVec.ofNat 8 ((n - delay) / 2), data, active := true, dummy := false }
  else { page, addr := 0, data, active := false, dummy := true }

section
variable {page data : Byte} {delay n : Nat}

theorem engineAt_of_delay (h : n < delay) :
    engineAt page delay n data = { page, addr := 0, data, active := true, dummy := true } := if_pos h

theorem engineAt_of_copy (lo : delay ≤ n) (hi : n < delay + 512) : engineAt page delay n data =
    { page, addr := BitVec.ofNat 8 ((n - delay) / 2), data, active := true, dummy := false } := by
  rw [engineAt, if_neg (Nat.not_lt.mpr lo), if_pos hi]

theorem engineAt_of_done (h : delay + 512 ≤ n) :
    engineAt page delay n data = { page, addr := 0, data, active := false, dummy := true } := by
  rw [engineAt, if_neg (by omega), if_neg (by omega)]

theorem engineAt_active (h : n < delay + 512) : (engineAt page delay n data).active = true := by
  by_cases waiting : n < delay
  · rw [engineAt_of_delay waiting]
  · rw [engineAt_of_copy (Nat.not_lt.mp waiting) h]

/-! The engine between one slot and the next, for each kind of slot. -/

theorem engineAt_wait (more : n + 1 < delay) : engineAt page delay n data = engineAt page delay (n + 1) data := by
  rw [engineAt_of_delay (Nat.lt_of_succ_lt more), engineAt_of_delay more]

theorem engineAt_endDelay (last : n + 1 = delay) :
    { engineAt page delay n data with dummy := false } = engineAt page delay (n + 1) data := by
  have first : (n + 1 - delay) / 2 = 0 := by omega
  rw [engineAt_of_delay (Nat.lt_of_succ_le (Nat.le_of_eq last)), engineAt_of_copy (by omega) (by omega), first]
  rfl

theorem engineAt_afterRead (lo : delay ≤ n) (hi : n < delay + 512) (even : (n - delay) % 2 = 0) (v : Byte) :
    { engineAt page delay n data with data := v } = engineAt page delay (n + 1) v := by
  have same : (n + 1 - delay) / 2 = (n - delay) / 2 := by omega
  rw [engineAt_of_copy lo hi, engineAt_of_copy (by omega) (by omega), same]

theorem engineAt_afterWrite (lo : delay ≤ n) (hi : n < delay + 512) (odd : (n - delay) % 2 = 1) :
    (engineAt page delay n data).afterWrite = engineAt page delay (n + 1) data := by
  rw [engineAt_of_copy lo hi, Dma.afterWrite]
  by_cases last : n + 1 = delay + 512
  · have offset : (n - delay) / 2 = 255 := by omega
    have wraps : (BitVec.ofNat 8 255 + 1 : Byte) = 0 := rfl
    rw [engineAt_of_done (Nat.le_of_eq last.symm), offset, if_pos wraps, wraps]
  · have next : BitVec.ofNat 8 ((n + 1 - delay) / 2) = BitVec.ofNat 8 ((n - delay) / 2) + 1 := by
      rw [show (n + 1 - delay) / 2 = (n - delay) / 2 + 1 by omega]
      exact BitVec.ofNat_add ..
    have more : ¬BitVec.ofNat 8 ((n - delay) / 2) + 1 = 0 := by bv_omega
    rw [engineAt_of_copy (by omega) (by omega), next, if_neg more]

end

/-- Which kind of slot the `n`-th of a transfer is (R462), by the parity of its tick. -/
theorem dmaStep_engineAt {page data : Byte} {delay n : Nat} {s : State} (hd : delay = 1 ∨ delay = 2)
    (dma : s.dma = engineAt page delay n data) (parity : s.tick % 2 = (n + delay) % 2) (bound : n < delay + 512) :
    ∃ data', (dmaStep s).dma = engineAt page delay (n + 1) data' := by
  by_cases waiting : n < delay
  · have dummy : s.dma.dummy = true := by rw [dma, engineAt_of_delay waiting]
    by_cases odd : s.tick % 2 = 1
    · rw [dmaStep_of_delay_odd s dummy odd, State.setDma_dma, dma, engineAt_endDelay (by omega)]
      exact ⟨data, rfl⟩
    · rw [dmaStep_of_delay_even s dummy odd, dma, engineAt_wait (by omega)]
      exact ⟨data, rfl⟩
  · rw [Nat.not_lt] at waiting
    have served : ¬s.dma.dummy = true := by rw [dma, engineAt_of_copy waiting bound]; exact Bool.false_ne_true
    by_cases even : s.tick % 2 = 0
    · rw [dmaStep_of_even s served even, State.setDma_dma, dma, engineAt_afterRead waiting bound (by omega)]
      exact ⟨_, rfl⟩
    · rw [dmaStep_of_odd s served even, State.setDma_dma, dma, engineAt_afterWrite waiting bound (by omega)]
      exact ⟨data, rfl⟩

/-- A micro-step leaves the registers, RAM and `oam_addr`. -/
theorem dmaStep_frame (s : State) :
    SameAXY s (dmaStep s) ∧ (dmaStep s).ram = s.ram ∧ (dmaStep s).ppu.oamAddr = s.ppu.oamAddr := by
  by_cases delay : s.dma.dummy = true
  · by_cases odd : s.tick % 2 = 1
    · rw [dmaStep_of_delay_odd s delay odd]
      exact ⟨⟨rfl, rfl, rfl⟩, rfl, rfl⟩
    · rw [dmaStep_of_delay_even s delay odd]
      exact ⟨⟨rfl, rfl, rfl⟩, rfl, rfl⟩
  · by_cases even : s.tick % 2 = 0
    · rw [dmaStep_of_even s delay even]
      exact ⟨⟨busRead_a .., busRead_x .., busRead_y ..⟩, busRead_ram .., busRead_oamAddr ..⟩
    · rw [dmaStep_of_odd s delay even]
      exact ⟨⟨rfl, rfl, rfl⟩, rfl, rfl⟩

/-! ## A tick of a transfer -/

/-- What dot and slot of a tick leave while a transfer is active. -/
def afterTransferSlot (s : State) : State := if s.tick % 3 = 0 then dmaStep (afterDot s) else afterDot s

section
variable {s : State}

theorem afterTransferSlot_of_slot (slot : s.tick % 3 = 0) : afterTransferSlot s = dmaStep (afterDot s) := if_pos slot

theorem afterTransferSlot_of_no_slot (noSlot : ¬s.tick % 3 = 0) : afterTransferSlot s = afterDot s := if_neg noSlot

theorem step_of_transfer (active : s.dma.active = true) : step s = .next (endTick (afterTransferSlot s)) := by
  by_cases slot : s.tick % 3 = 0
  · rw [afterTransferSlot_of_slot slot, step_of_dma_active slot active]
  · rw [afterTransferSlot_of_no_slot slot, step_of_no_slot slot]

variable (s)

theorem afterTransferSlot_tick : (afterTransferSlot s).tick = s.tick := by
  by_cases slot : s.tick % 3 = 0
  · rw [afterTransferSlot_of_slot slot, (dmaStep_sameFixtures _).tick, afterDot_tick]
  · rw [afterTransferSlot_of_no_slot slot, afterDot_tick]

theorem afterTransferSlot_frame : SameAXY s (afterTransferSlot s) ∧ (afterTransferSlot s).ram = s.ram ∧
    (afterTransferSlot s).cart = s.cart ∧ (afterTransferSlot s).ppu.oamAddr = s.ppu.oamAddr := by
  have dot := afterDot_sameTransfer s
  by_cases slot : s.tick % 3 = 0
  · obtain ⟨axy, ram, oamAddr⟩ := dmaStep_frame (afterDot s)
    rw [afterTransferSlot_of_slot slot]
    exact ⟨axy, ram, (dmaStep_sameFixtures _).cart, oamAddr.trans dot.oamAddr⟩
  · rw [afterTransferSlot_of_no_slot slot]
    exact ⟨dot.axy, rfl, rfl, dot.oamAddr⟩

end

/-- The machine `k` ticks after the start `s` of a transfer: it has counted them, `A`, `X` and `Y` are as they were, and
the engine has had one slot for every three. -/
structure InTransfer (page : Byte) (s : State) (k : Nat) (t : State) : Prop where
  tick : t.tick = s.tick + k
  axy : SameAXY s t
  engine : ∃ data, t.dma = engineAt page (delaySlots s.tick) ((k + 2) / 3) data

section
variable {page : Byte} {s t : State} {k : Nat}

theorem InTransfer.start (starting : TransferStarting page s) : InTransfer page s 0 s := by
  obtain ⟨-, page, addr, active, dummy⟩ := starting
  have delay := delaySlots_cases s.tick
  refine ⟨rfl, ⟨rfl, rfl, rfl⟩, s.dma.data, ?_⟩
  rw [engineAt_of_delay (by omega)]
  cases h : s.dma
  simp_all

theorem InTransfer.active (h : InTransfer page s k t) (bound : k < 3 * (delaySlots s.tick + 511) + 1) :
    t.dma.active = true := by
  obtain ⟨data, dma⟩ := h.engine
  rw [dma, engineAt_active (by omega)]

/-- A slot moves the engine on, the dots between slots leave it. -/
theorem InTransfer.engine_next (slots : s.tick % 3 = 0) (h : InTransfer page s k t)
    (bound : k < 3 * (delaySlots s.tick + 511) + 1) :
    ∃ data, (afterTransferSlot t).dma = engineAt page (delaySlots s.tick) ((k + 1 + 2) / 3) data := by
  obtain ⟨data, dma⟩ := h.engine
  have tick := h.tick
  have delay := delaySlots_cases s.tick
  by_cases slot : t.tick % 3 = 0
  · have next : (k + 1 + 2) / 3 = (k + 2) / 3 + 1 := by omega
    rw [afterTransferSlot_of_slot slot, next]
    exact dmaStep_engineAt (by omega) dma (by rw [afterDot_tick]; omega) (by omega)
  · have same : (k + 1 + 2) / 3 = (k + 2) / 3 := by omega
    rw [afterTransferSlot_of_no_slot slot, same]
    exact ⟨data, dma⟩

theorem InTransfer.tick_next (slots : s.tick % 3 = 0) (h : InTransfer page s k t)
    (bound : k < 3 * (delaySlots s.tick + 511) + 1) : InTransfer page s (k + 1) (endTick (afterTransferSlot t)) := by
  obtain ⟨-, -, -, counted⟩ := endTick_keeps (afterTransferSlot t)
  obtain ⟨⟨a, x, y⟩, -⟩ := afterTransferSlot_frame t
  obtain ⟨⟨a', x', y'⟩, dma, -⟩ := endTick_sameTransfer (afterTransferSlot t)
  obtain ⟨a0, x0, y0⟩ := h.axy
  obtain ⟨data, engine⟩ := h.engine_next slots bound
  refine ⟨?_, ⟨a'.trans (a.trans a0), x'.trans (x.trans x0), y'.trans (y.trans y0)⟩, data, dma.trans engine⟩
  rw [counted, afterTransferSlot_tick, h.tick, Nat.add_assoc]

/-- Up to the tick after its last slot, the machine is in the transfer. -/
theorem run_inTransfer (starting : TransferStarting page s) :
    ∀ k ≤ 3 * (delaySlots s.tick + 511) + 1, InTransfer page s k (run k s) :=
  run_induction (.start starting) fun _ _ bound h =>
    ⟨_, step_of_transfer (h.active bound), h.tick_next starting.1 bound⟩

end

/-- Settles O59: the engine is active for its delay and 512 slots, and idle after them. -/
theorem transferTakes513Or514Slots : Obligations.TransferTakes513Or514Slots := by
  unfold Obligations.TransferTakes513Or514Slots
  intro page s starting
  have ticks : transferSlots s.tick - 1 = delaySlots s.tick + 511 := by rw [transferSlots_eq]; rfl
  unfold afterTransfer
  rw [ticks]
  refine ⟨fun k bound => ?_, ?_⟩
  · have h := run_inTransfer starting k (Nat.le_succ_of_le bound)
    exact ⟨h.active (Nat.lt_succ_of_le bound), h.axy, h.tick⟩
  · obtain ⟨data, dma⟩ := (run_inTransfer starting _ (Nat.le_refl _)).engine
    rw [dma, engineAt_of_done (by omega)]
    exact ⟨rfl, rfl, rfl⟩

end Sys2Proof.Machine
end

