-- ==== Sys2Proof/Proofs/TransferCopy.lean ====
section
/-! What a DMA transfer copies (R463): the byte its read slot latched and its write slot put into OAM, under ticks that
leave the page's memory as it was. -/

namespace Sys2Proof.Machine

open Sys2Proof.Claims

/-! ## The page's memory between slots -/

/-- No byte of the page is a stack slot or one of its mirrors. -/
def OffStackPage (page : Byte) : Prop := page.toNat < 0x20 → page.toNat % 8 ≠ 1

section
variable {page : Byte} {s t : State}

theorem not_sameCell_stackAddr_of_offStackPage (off : OffStackPage page) (j sp : Byte) :
    ¬SameCell (wordOf page j) (stackAddr sp) := by
  intro same
  have index := ramIndex_eq_of_sameCell same
  have low : wordOf page j ≤ 0x1FFF := by
    obtain eq | ⟨low, -⟩ := same
    · exact eq ▸ stackAddr_le sp
    · exact low
  rw [ramIndex_stackAddr, ramIndex_eq_mod, wordOf_toNat] at index
  have number : 256 * page.toNat + j.toNat ≤ 0x1FFF := wordOf_toNat page j ▸ BitVec.le_def.mp low
  have mirror := off (by omega)
  omega

/-- An entry's stores are its pushed frame: the read of the vector reaches no RAM. -/
theorem takeInterrupt_ram (vector : Word) (b : Bool) (s : State) :
    (takeInterrupt vector b s).ram = (pushFrame s.pc (pushedStatus b s.p) s).ram := by
  simp [takeInterrupt, pushFrame, busRead16]

/-- The end of a tick stores at most an NMI's frame, so it leaves a page off the stack. -/
theorem endTick_memByte_of_offStackPage (off : OffStackPage page) (mid : t.Mid) (j : Byte) :
    (endTick t).memByte (wordOf page j) = t.memByte (wordOf page j) := by
  obtain ⟨-, quiet⟩ | ⟨-, nmi⟩ := endTick_cases t
  · rw [quiet]
    exact memByte_congr rfl rfl _
  · have ram : (endTick t).ram = (pushFrame t.pc (pushedStatus false t.p) (lowerLine t)).ram := by
      rw [nmi]
      exact takeInterrupt_ram nmiVector false (lowerLine t)
    have cart : (endTick t).cart = (pushFrame t.pc (pushedStatus false t.p) (lowerLine t)).cart := by
      rw [(endTick_keeps t).1, pushFrame_cart]
      rfl
    have frame := pushFrame_sameMemoryOutside t.pc (pushedStatus false t.p) (lowerLine_mid mid) (wordOf page j)
    rw [memByte_congr ram cart, frame fun b pushed => ?_]
    · exact memByte_congr rfl rfl _
    · simp only [List.mem_cons, List.not_mem_nil, or_false] at pushed
      obtain rfl | rfl | rfl := pushed
      · exact not_sameCell_stackAddr_of_offStackPage off j _
      · exact not_sameCell_stackAddr_of_offStackPage off j _
      · exact not_sameCell_stackAddr_of_offStackPage off j _

theorem afterTransferSlot_mid (mid : t.Mid) (active : t.dma.active = true) : (afterTransferSlot t).Mid := by
  by_cases slot : t.tick % 3 = 0
  · rw [afterTransferSlot_of_slot slot]
    exact dmaStep_mid (afterDot_mid mid) active
  · rw [afterTransferSlot_of_no_slot slot]
    exact afterDot_mid mid

end

/-! ## What the slots so far have copied -/

/-- After `n` slots of a transfer whose delay is `delay` slots, the bytes already written stand in OAM, and between a
read slot and its write slot the byte read is latched; `s` is the machine whose memory is copied, `t` the one the slots
have led to. -/
structure Copied (page : Byte) (delay : Nat) (s : State) (n : Nat) (t : State) : Prop where
  stored : ∀ j v, j < (n - delay) / 2 → s.memByte (wordOf page (BitVec.ofNat 8 j)) = some v → t.ppu.oam.read j = v
  latched : ∀ v, (n - delay) % 2 = 1 → s.memByte (wordOf page (BitVec.ofNat 8 ((n - delay) / 2))) = some v →
    t.dma.data = v

section
variable {page data : Byte} {delay n : Nat} {s t u : State}

theorem Copied.of_sameTransfer (copied : Copied page delay s n t) (same : SameTransfer t u) :
    Copied page delay s n u := by
  obtain ⟨stored, latched⟩ := copied
  obtain ⟨-, dma, oam, -⟩ := same
  constructor
  · rwa [oam]
  · rwa [dma]

/-- Nothing is copied in the delay. -/
theorem Copied.of_delay (h : n ≤ delay) : Copied page delay s n t := by
  have none : n - delay = 0 := Nat.sub_eq_zero_of_le h
  constructor
  · intro j v before
    omega
  · intro v odd
    omega

/-- A read slot latches the byte the page holds. -/
theorem Copied.dmaStep_read (copied : Copied page delay s n t) (dma : t.dma = engineAt page delay n data)
    (memory : ∀ j, t.memByte (wordOf page j) = s.memByte (wordOf page j)) (lo : delay ≤ n) (hi : n < delay + 512)
    (slot : (n - delay) % 2 = 0) (even : t.tick % 2 = 0) : Copied page delay s (n + 1) (dmaStep t) := by
  have offset : (n + 1 - delay) / 2 = (n - delay) / 2 := by omega
  rw [engineAt_of_copy lo hi] at dma
  rw [dmaStep_of_even t (by simp [dma]) even, dma]
  constructor
  · intro j v before held
    rw [offset] at before
    exact (busRead_oam ..).symm ▸ copied.stored j v before held
  · intro v _ held
    rw [offset, ← memory] at held
    exact congrArg Prod.fst (busRead_of_memByte t held)

/-- A write slot puts the latched byte at its offset of OAM. -/
theorem Copied.dmaStep_write (copied : Copied page delay s n t) (dma : t.dma = engineAt page delay n data)
    (wf : t.ppu.oam.wf 0x100 = true) (lo : delay ≤ n) (hi : n < delay + 512) (slot : (n - delay) % 2 = 1)
    (odd : ¬t.tick % 2 = 0) : Copied page delay s (n + 1) (dmaStep t) := by
  have offset : t.dma.addr.toNat = (n - delay) / 2 := by
    rw [dma, engineAt_of_copy lo hi]
    exact Nat.mod_eq_of_lt (by omega)
  have served : ¬t.dma.dummy = true := by rw [dma, engineAt_of_copy lo hi]; exact Bool.false_ne_true
  have oam : (dmaStep t).ppu.oam = t.ppu.oam.write ((n - delay) / 2) t.dma.data := by
    rw [dmaStep_of_odd t served odd, ← offset]
    rfl
  constructor
  · intro j v before held
    rw [oam, Memory.read_write wf]
    by_cases last : (n - delay) / 2 = j
    · rw [if_pos last]
      exact copied.latched v slot (last ▸ held)
    · rw [if_neg last]
      exact copied.stored j v (by omega) held
  · intro v between
    omega

/-- Each slot of the transfer carries on what is copied (R462). -/
theorem Copied.dmaStep (copied : Copied page delay s n t) (mid : t.Mid) (dma : t.dma = engineAt page delay n data)
    (memory : ∀ j, t.memByte (wordOf page j) = s.memByte (wordOf page j)) (parity : t.tick % 2 = (n + delay) % 2)
    (bound : n < delay + 512) : Copied page delay s (n + 1) (dmaStep t) := by
  by_cases waiting : n < delay
  · exact .of_delay waiting
  · rw [Nat.not_lt] at waiting
    obtain ⟨-, -, -, wf, -⟩ := t.ppu.sound_iff.mp mid.ppu
    by_cases even : t.tick % 2 = 0
    · exact copied.dmaStep_read dma memory waiting bound (by omega) even
    · exact copied.dmaStep_write dma wf waiting bound (by omega) even

end

/-! ## The run of a transfer -/

/-- The machine `k` ticks after the start `s` of a transfer, with the page's memory as at the start and copied so
far. -/
structure Copying (page : Byte) (s : State) (k : Nat) (t : State) : Prop where
  transfer : InTransfer page s k t
  mid : t.Mid
  memory : ∀ j, t.memByte (wordOf page j) = s.memByte (wordOf page j)
  oamAddr : t.ppu.oamAddr = s.ppu.oamAddr
  copied : Copied page (delaySlots s.tick) s ((k + 2) / 3) t

section
variable {page : Byte} {s t : State} {k : Nat}

theorem Copying.start (mid : s.Mid) (starting : TransferStarting page s) : Copying page s 0 s :=
  ⟨.start starting, mid, fun _ => rfl, rfl, .of_delay (Nat.zero_le _)⟩

/-- A slot carries on what is copied, a tick between slots leaves it. -/
theorem Copying.copied_next (slots : s.tick % 3 = 0) (h : Copying page s k t)
    (bound : k < 3 * (delaySlots s.tick + 511) + 1) :
    Copied page (delaySlots s.tick) s ((k + 1 + 2) / 3) (afterTransferSlot t) := by
  obtain ⟨data, dma⟩ := h.transfer.engine
  have tick := h.transfer.tick
  have delay := delaySlots_cases s.tick
  have copied := h.copied.of_sameTransfer (afterDot_sameTransfer t)
  by_cases slot : t.tick % 3 = 0
  · have next : (k + 1 + 2) / 3 = (k + 2) / 3 + 1 := by omega
    rw [afterTransferSlot_of_slot slot, next]
    exact copied.dmaStep (afterDot_mid h.mid) dma h.memory (by rw [afterDot_tick]; omega) (by omega)
  · have same : (k + 1 + 2) / 3 = (k + 2) / 3 := by omega
    rw [afterTransferSlot_of_no_slot slot, same]
    exact copied

theorem Copying.tick_next (off : OffStackPage page) (slots : s.tick % 3 = 0) (h : Copying page s k t)
    (bound : k < 3 * (delaySlots s.tick + 511) + 1) : Copying page s (k + 1) (endTick (afterTransferSlot t)) := by
  have mid := afterTransferSlot_mid h.mid (h.transfer.active bound)
  have tickEnd := endTick_sameTransfer (afterTransferSlot t)
  obtain ⟨-, ram, cart, oamAddr⟩ := afterTransferSlot_frame t
  refine ⟨h.transfer.tick_next slots bound, ((State.sound_iff_mid _).mp (endTick_sound mid)).1, fun j => ?_,
    tickEnd.oamAddr.trans (oamAddr.trans h.oamAddr), (h.copied_next slots bound).of_sameTransfer tickEnd⟩
  calc (endTick (afterTransferSlot t)).memByte (wordOf page j)
      _ = (afterTransferSlot t).memByte (wordOf page j) := endTick_memByte_of_offStackPage off mid j
      _ = t.memByte (wordOf page j) := memByte_congr ram cart _
      _ = s.memByte (wordOf page j) := h.memory j

end

/-- Settles O60: at the end of a transfer all 256 offsets are copied. -/
theorem transferCopiesThePage : Obligations.TransferCopiesThePage := by
  unfold Obligations.TransferCopiesThePage
  intro page s sound starting off
  have ticks : transferSlots s.tick - 1 = delaySlots s.tick + 511 := by rw [transferSlots_eq]; rfl
  have start := Copying.start (s.sound_iff_mid.mp sound).1 starting
  have done := run_induction start (fun k t bound (h : Copying page s k t) =>
    ⟨_, step_of_transfer (h.transfer.active bound), h.tick_next off starting.1 bound⟩) _ (Nat.le_refl _)
  unfold afterTransfer
  rw [ticks]
  refine ⟨done.oamAddr, fun k v held => done.copied.stored k.toNat v (by omega) ?_⟩
  rwa [BitVec.ofNat_toNat, BitVec.setWidth_eq]

end Sys2Proof.Machine
end

