-- ==== Sys2Proof/Proofs/Reset.lean ====
section
/-! Reset and launch (R41, R356, R474, R475, R481, R510, R540), and the two maskings of an interrupt (R502, R504). -/

namespace Sys2Proof.Machine

open Sys2Proof.Claims

/-! ## The reset -/

/-- The word at the reset vector, which a machine with a cartridge reads with no side effect (R81, R510). -/
theorem busRead16_resetVector {s : State} (present : s.cart.present = true) :
    busRead16 resetVector s = (vectorWord s.cart resetVector, s) := by
  have lo : 0x8000 ≤ resetVector := by decide
  have hi : 0x8000 ≤ resetVector + 1 := by decide
  exact busRead16_of_rom present lo hi

/-- The machine after a reset: what stays of `s` are its memories, its buttons, its cartridge and the model's counter of
unanswered reads. -/
def atReset (s : State) : State :=
  { a := 0, x := 0, y := 0, sp := 0xFD, pc := vectorWord s.cart 0xFFFC, p := 0x24, cycles := 7, ram := s.ram
    dma := { page := 0, addr := 0, data := 0, active := false, dummy := true }
    pad0 := { buttons := s.pad0.buttons, shift := 0 }, pad1 := { buttons := s.pad1.buttons, shift := 0 }
    ppu := clearedUnit s.ppu.nt s.ppu.pt s.ppu.pal s.ppu.oam s.ppu.fb, cart := s.cart, tick := 0
    openReads := s.openReads }

theorem systemReset_eq_atReset {s : State} (present : s.cart.present = true) : systemReset s = atReset s := by
  simp only [systemReset, cpuReset, busRead16_resetVector present]
  rfl

theorem atReset_atReset (s : State) : atReset (atReset s) = atReset s := rfl

/-! ## A reset machine is sound -/

theorem clearedUnit_sound {nt pt pal oam : Memory 8} {fb : Memory 6} (hnt : nt.wf 0x800 = true)
    (hpt : pt.wf 0x2000 = true) (hpal : pal.wf 0x20 = true) (hoam : oam.wf 0x100 = true)
    (hfb : fb.wf (240 * 256) = true) : (clearedUnit nt pt pal oam fb).sound = true := by
  have line : -1 ≤ (0 : Int) ∧ (0 : Int) ≤ 260 := by decide
  have unused : (0 : Byte) &&& 0x1F = 0 := by decide
  exact (Ppu.sound_iff _).mpr ⟨hnt, hpt, hpal, hoam, hfb, line, Nat.zero_le _, unused, rfl, Nat.zero_le _⟩

theorem atReset_sound {s : State} (ram : s.ram.wf 0x800 = true) (cart : s.cart.sound = true)
    (unit : (atReset s).ppu.sound = true) : (atReset s).Sound = true := by
  have bits : flag .u (0x24 : Byte) = true ∧ flag .b (0x24 : Byte) = false := by decide
  exact (State.sound_iff _).mpr ⟨ram, bits.1, bits.2, rfl, unit, rfl, cart⟩

/-! ## The obligations -/

/-- Settles O11: `atReset` is its field-by-field form, and depends on nothing it changes. -/
theorem resetForgetsEverythingButMemories : Obligations.ResetForgetsEverythingButMemories := by
  unfold Obligations.ResetForgetsEverythingButMemories
  intro s present
  have once := systemReset_eq_atReset present
  have twice : systemReset (atReset s) = atReset (atReset s) := systemReset_eq_atReset present
  refine ⟨once, ?_⟩
  rw [once, twice, atReset_atReset]

/-- Settles O10: a launch is a reset of the given memories and cartridge. -/
theorem launchStateAfterReset : Obligations.LaunchStateAfterReset := by
  unfold Obligations.LaunchStateAfterReset
  intro c ram nt pt pal oam fb present cart hram hnt hpt hpal hoam hfb
  have launched := systemReset_eq_atReset
    (s := { State.reset with cart := c, ram := ram, ppu := .afterReset nt pt pal oam fb }) present
  unfold launch
  rw [launched]
  exact ⟨atReset_sound hram cart (clearedUnit_sound hnt hpt hpal hoam hfb), rfl⟩

/-- Settles O9: the reset state is an evaluation away, with all its memories empty. -/
theorem resetIsSound : Obligations.ResetIsSound := by
  unfold Obligations.ResetIsSound
  decide

/-- Settles O16: `cpuIrq` looks at `P.I` before its entry, `cpuNmi` does not. -/
theorem irqIsMaskedAndNmiIsNot : Obligations.IrqIsMaskedAndNmiIsNot := by
  unfold Obligations.IrqIsMaskedAndNmiIsNot
  refine fun s => ⟨fun masked => if_pos masked, fun enabled => ⟨_, rfl, ?_⟩, _, rfl, rfl⟩
  exact if_neg (Bool.eq_false_iff.mp enabled)

end Sys2Proof.Machine
end

