-- ==== Sys2Proof/Proofs/Returns.lean ====
section
/-! Returns right after the entries they undo (R291, R508): the pulled slots are the ones just pushed. -/

namespace Sys2Proof.Machine

open Sys2Proof.Claims

/-- A stack slot is a byte of plain memory (R34, R76). -/
theorem stackByte_of_memByte {s : State} {sp v : Byte} (held : s.memByte (stackAddr sp) = some v) :
    stackByte s sp = v := by
  rw [memByte_of_ram s (stackAddr_le sp), ramIndex_stackAddr] at held
  exact Option.some.inj held

section
variable {s : State} (ret : Word)

/-- The two slots above `S` after a pushed word hold it. -/
theorem stackByte_pushWord (mid : s.Mid) : stackByte (pushWord ret s) (s.sp - 2 + 2) = hiByte ret ∧
    stackByte (pushWord ret s) (s.sp - 2 + 1) = loByte ret := by
  have high : s.sp - 2 + 2 = s.sp := by bv_omega
  have low : s.sp - 2 + 1 = s.sp - 1 := by bv_omega
  rw [high, low]
  exact ⟨stackByte_of_memByte (pushWord_memByte_high ret mid), stackByte_of_memByte (pushWord_memByte_low ret mid)⟩

/-- The three slots above `S` after an entry's pushes hold the return address and the status. -/
theorem stackByte_pushFrame (status : Byte) (mid : s.Mid) :
    stackByte (pushFrame ret status s) (s.sp - 3 + 3) = hiByte ret ∧
    stackByte (pushFrame ret status s) (s.sp - 3 + 2) = loByte ret ∧
    stackByte (pushFrame ret status s) (s.sp - 3 + 1) = status := by
  have high : s.sp - 3 + 3 = s.sp := by bv_omega
  have low : s.sp - 3 + 2 = s.sp - 1 := by bv_omega
  have top : s.sp - 3 + 1 = s.sp - 2 := by bv_omega
  rw [high, low, top]
  exact ⟨stackByte_of_memByte (pushFrame_memByte_high ret status mid),
    stackByte_of_memByte (pushFrame_memByte_low ret status mid),
    stackByte_of_memByte (pushFrame_memByte_status ret status mid)⟩

end

/-- Settles O35: RTS pulls the word JSR pushed, one less than the address it returns to. -/
theorem rtsUndoesJsr : Obligations.RtsUndoesJsr := by
  unfold Obligations.RtsUndoesJsr
  intro w s sound
  have mid := (s.sound_iff_mid.mp sound).1
  obtain ⟨high, low⟩ := stackByte_pushWord (s.pc - 1) mid
  have sp := pushWord_sp (s.pc - 1) s
  have pc : wordOf (hiByte (s.pc - 1)) (loByte (s.pc - 1)) + 1 = s.pc := by
    rw [wordOf_hiByte_loByte, BitVec.sub_add_cancel]
  have devices := pushWord_sameDevices (s.pc - 1) s
  refine ⟨_, _, exec_jsr w s, exec_rts _, ?pc, ?sp, ?p, ?axy, ?devices⟩
  case pc =>
    change wordOf (stackByte (pushWord (s.pc - 1) s) ((pushWord (s.pc - 1) s).sp + 2))
      (stackByte (pushWord (s.pc - 1) s) ((pushWord (s.pc - 1) s).sp + 1)) + 1 = s.pc
    rw [sp, high, low, pc]
  case sp =>
    change (pushWord (s.pc - 1) s).sp + 2 = s.sp
    rw [sp, BitVec.sub_add_cancel]
  case p => simp
  case axy => simp [SameAXY]
  case devices => simpa [SameDevices] using devices

/-- What RTI gives back after an entry's pushes, whatever the entry did to `P` and `PC` (R508). -/
theorem returnFromInterrupt_pushFrame {s : State} (mid : s.Mid) (b : Bool) (p : Byte) (pc : Word) :
    returnFromInterrupt (((pushFrame s.pc (pushedStatus b s.p) s).setP p).setPc pc) =
      (((pushFrame s.pc (pushedStatus b s.p) s).setSp s.sp).setP s.p).setPc s.pc := by
  obtain ⟨high, low, status⟩ := stackByte_pushFrame s.pc (pushedStatus b s.p) mid
  have kept : ∀ sp, stackByte (((pushFrame s.pc (pushedStatus b s.p) s).setP p).setPc pc) sp =
      stackByte (pushFrame s.pc (pushedStatus b s.p) s) sp := fun _ => rfl
  have back : s.sp - 3 + 3 = s.sp := by bv_omega
  rw [returnFromInterrupt_eq, State.setPc_sp, State.setP_sp, pushFrame_sp, kept, kept, kept, high, low, status, back,
    pulledStatus_pushedStatus b mid.u mid.b, wordOf_hiByte_loByte]
  rfl

/-- Settles O19: the entry's frame is pulled back, and the entry's other changes are to what RTI replaces. -/
theorem rtiUndoesInterruptEntry : Obligations.RtiUndoesInterruptEntry := by
  unfold Obligations.RtiUndoesInterruptEntry
  intro vector b s trap sound present
  obtain ⟨lo, hi⟩ := trapVector_in_rom trap
  have returned := returnFromInterrupt_pushFrame (s.sound_iff_mid.mp sound).1 b
  have next : exec .rti (takeInterrupt vector b s) =
      .next ((returnFromInterrupt (takeInterrupt vector b s)).charge 6) := rfl
  rw [next, takeInterrupt_eq b present lo hi, returned]
  have axy := pushFrame_sameAXY s.pc (pushedStatus b s.p) (s := s)
  have devices := pushFrame_sameDevices s.pc (pushedStatus b s.p) (s := s)
  refine ⟨_, rfl, rfl, rfl, rfl, ?axy, ?devices⟩
  case axy => simpa [SameAXY] using axy
  case devices => simpa [SameDevices] using devices

end Sys2Proof.Machine
end

