-- ==== Sys2Proof/Proofs/OperandModes.lean ====
section
/-! Where an operand is (R161 to R173), how it is read and written back (R174, R178), and the instructions that do no
more than that (R140, R324, R325). -/

namespace Sys2Proof.Machine

open Sys2Proof.Claims

/-! ## Effective addresses as numbers -/

theorem eq_ofNat_of_toNat_eq {a : Word} {n : Nat} (h : a.toNat = n) : a = BitVec.ofNat 16 n := by
  rw [← h, BitVec.ofNat_toNat, BitVec.setWidth_eq]

section
variable (s : State)

/-- An address of page zero. -/
theorem zext16_eq_ofNat (b : Byte) : zext16 b = BitVec.ofNat 16 b.toNat := eq_ofNat_of_toNat_eq (zext16_toNat b)

/-- An index in page zero wraps there (R166, R167). -/
theorem zext16_add_eq_ofNat (zp index : Byte) :
    zext16 (zp + index) = BitVec.ofNat 16 ((zp.toNat + index.toNat) % 256) := by
  rw [zext16_eq_ofNat, BitVec.toNat_add]

/-- Two addresses differ in their high byte exactly if they lie in different pages of 256. -/
theorem hiByte_bne_eq_decide (a b : Word) : (hiByte a != hiByte b) = decide (a.toNat / 256 ≠ b.toNat / 256) := by
  rw [← hiByte_toNat, ← hiByte_toNat, Bool.eq_iff_iff, bne_iff_ne, decide_eq_true_iff]
  exact not_congr BitVec.toNat_inj.symm

/-- An indexed address wraps at 16 bits, and reports a change of page (R169, R170, R175). -/
theorem indexed_atAddress {base : Word} {b : Nat} (number : base.toNat = b) (index : Byte) :
    AtAddress (indexed base index s) (b + index.toNat) (decide ((b + index.toNat) % 0x10000 / 256 ≠ b / 256)) s := by
  have sum : (base + zext16 index).toNat = (b + index.toNat) % 0x10000 := by
    rw [BitVec.toNat_add, zext16_toNat, number]
  have address : base + zext16 index = BitVec.ofNat 16 (b + index.toNat) := by
    apply BitVec.eq_of_toNat_eq
    rw [sum, BitVec.toNat_ofNat]
  refine ⟨congrArg Location.memory address, ?_, rfl⟩
  exact (hiByte_bne_eq_decide ..).trans (by rw [sum, number])

theorem resolve_rel (d : Byte) : AtAddress (resolve (.rel d) s) (s.pc.toNat + signExtended d) false s := by
  refine ⟨congrArg Location.memory (BitVec.eq_of_toNat_eq ?_), rfl, rfl⟩
  rw [BitVec.toNat_add, sext16_toNat, BitVec.toNat_ofNat]

/-- The word of a pointer in page zero: its second byte wraps there (R172, R173). -/
theorem zeroPagePointer_toNat (zp : Byte) :
    (zeroPagePointer zp s).1.toNat = ramWord s zp.toNat ((zp.toNat + 1) % 256) := by
  rw [zeroPagePointer_eq, wordOf_toNat, BitVec.toNat_add]
  rfl

theorem zeroPagePointer_state (zp : Byte) : (zeroPagePointer zp s).2 = s := by
  rw [zeroPagePointer_eq]

theorem resolve_izx (zp : Byte) : AtAddress (resolve (.izx zp) s)
    (ramWord s ((zp.toNat + s.x.toNat) % 256) ((zp.toNat + s.x.toNat + 1) % 256)) false s := by
  have pointer := zeroPagePointer_toNat s (zp + s.x)
  rw [BitVec.toNat_add, Nat.mod_add_mod] at pointer
  exact ⟨congrArg Location.memory (eq_ofNat_of_toNat_eq pointer), rfl, zeroPagePointer_state s _⟩

theorem resolve_izy (zp : Byte) : AtAddress (resolve (.izy zp) s)
    (ramWord s zp.toNat ((zp.toNat + 1) % 256) + s.y.toNat)
    (decide ((ramWord s zp.toNat ((zp.toNat + 1) % 256) + s.y.toNat) % 0x10000 / 256 ≠
      ramWord s zp.toNat ((zp.toNat + 1) % 256) / 256)) s := by
  rw [resolve, zeroPagePointer_state]
  exact indexed_atAddress s (zeroPagePointer_toNat s zp) s.y

end

/-! ## The obligations -/

/-- Settles O40: each mode by its rule. -/
theorem effectiveAddressByMode : Obligations.EffectiveAddressByMode := by
  unfold Obligations.EffectiveAddressByMode
  intro zp v d w s
  refine ⟨⟨rfl, rfl⟩, ⟨rfl, rfl⟩, ⟨rfl, rfl⟩, ?zp0, ?zpx, ?zpy, resolve_rel s d, ?abs, indexed_atAddress s rfl s.x,
    indexed_atAddress s rfl s.y, resolve_izx s zp, _, rfl, resolve_izy s zp⟩
  case zp0 => exact ⟨congrArg Location.memory (zext16_eq_ofNat zp), rfl, rfl⟩
  case zpx => exact ⟨congrArg Location.memory (zext16_add_eq_ofNat zp s.x), rfl, rfl⟩
  case zpy => exact ⟨congrArg Location.memory (zext16_add_eq_ofNat zp s.y), rfl, rfl⟩
  case abs => exact ⟨congrArg Location.memory (eq_ofNat_of_toNat_eq rfl), rfl, rfl⟩

/-- Settles O41: each part is how `fetchOperand`, `writeOperand` and `readOperand` are defined. -/
theorem operandIsReadOnceAndWrittenBack : Obligations.OperandIsReadOnceAndWrittenBack := by
  unfold Obligations.OperandIsReadOnceAndWrittenBack
  intro o ea v r s
  exact ⟨rfl, rfl, rfl, rfl, rfl, rfl, rfl, rfl, rfl⟩

/-! ## The instructions with no effect -/

theorem operand_ne_ind {o : UndocOperand} (h : ∀ ptr, o ≠ .ind ptr) : ∀ ptr, o.operand ≠ .ind ptr := by
  intro ptr same
  cases o with
  | ind w => exact h w rfl
  | _ => exact Operand.noConfusion same

/-- Settles O39: XXX is its mode's operation, which leaves all that is listed, and a charge of cycles. -/
theorem nopAndPlaceholderDoNothing : Obligations.NopAndPlaceholderDoNothing := by
  unfold Obligations.NopAndPlaceholderDoNothing
  refine ⟨rfl, fun _ => rfl, fun op o s => ?_⟩
  have next : exec (.xxx op o) s = .next ((resolve o.operand s).state.charge
      (undocCycles s.cart.undoc op (resolve o.operand s).crossed)) := rfl
  have memory : SameMemory s (resolve o.operand s).state :=
    sameMemory_of_ram_cart (resolve_ram _ s) (resolve_cart _ s)
  refine ⟨_, next, ⟨resolve_a .., resolve_x .., resolve_y ..⟩, resolve_sp .., resolve_pc .., resolve_p .., memory,
    resolve_dma .., ⟨resolve_cart .., resolve_tick ..⟩, ⟨rfl, rfl, rfl, rfl, rfl⟩, fun noPointer => ?quiet, ?cycles⟩
  case quiet =>
    rw [resolve_state _ s (operand_ne_ind noPointer)]
    exact ⟨rfl, rfl, rfl, rfl, rfl⟩
  case cycles =>
    simp only [State.charge_cycles, resolve_cycles, undocCycles, Bool.and_eq_true, Nat.add_assoc]

end Sys2Proof.Machine
end

