-- ==== Sys2Proof/Proofs/FetchDecoded.lean ====
section
/-! The fetch reads what the decoder reads (R130, R133): from plain memory that holds an instruction's bytes, it answers
that instruction and steps over them. -/

namespace Sys2Proof.Machine

open Sys2Proof.Claims

section
variable {s t : State} {a : Word} {bytes used : List Byte} {i : Instr} {f : Format}

theorem codeAt_congr (memory : SameMemory s t) : ∀ {a : Word} {bytes : List Byte}, CodeAt s a bytes → CodeAt t a bytes
  | _, [], _ => trivial
  | a, _ :: _, ⟨held, more⟩ => ⟨(memory a).trans held, codeAt_congr memory more⟩

/-- The operand bytes of a format make its instruction, and `PC` steps over them. -/
theorem fetchOperands_of_makes (makes : f.Makes i used) (code : CodeAt s s.pc used) :
    fetchOperands f s = (i, s.setPc (s.pc + BitVec.ofNat 16 used.length)) := by
  cases makes with
  | alone => exact congrArg (fun pc => (i, s.setPc pc)) (BitVec.add_zero s.pc).symm
  | skipByte => rfl
  | oneByte f b => rw [fetchOperands, fetchByte_of_memByte code.1]; rfl
  | twoBytes f w =>
    obtain ⟨lo, hi, -⟩ := code
    have next : s.advancePc.memByte s.advancePc.pc = some (hiByte w) := hi
    have two : s.pc + 1 + 1 = s.pc + BitVec.ofNat 16 2 := BitVec.add_assoc ..
    rw [fetchOperands, fetchByte_of_memByte lo, fetchByte_of_memByte next, wordOf_hiByte_loByte]
    exact congrArg (fun pc => (_, s.setPc pc)) two

theorem fetchInstr_of_decode (code : CodeAt s s.pc bytes) (decoded : decode s.cart.undoc bytes = .ok (i, [])) :
    fetchInstr s = (i, fetched bytes.length s) := by
  obtain ⟨op, used, rfl, makes⟩ := makes_of_decode_eq_ok decoded
  rw [List.append_nil] at code ⊢
  obtain ⟨first, more⟩ := code
  have memory : SameMemory s (s.advancePc.setP (setFlag .u true s.p)) := sameMemory_of_ram_cart rfl rfl
  have operands := fetchOperands_of_makes makes (codeAt_congr memory more)
  have length : s.pc + 1 + BitVec.ofNat 16 used.length = s.pc + BitVec.ofNat 16 (op :: used).length := by
    rw [List.length_cons, Nat.add_comm, BitVec.ofNat_add, BitVec.add_assoc]
    rfl
  rw [fetchInstr, fetchByte_of_memByte first]
  exact operands.trans (congrArg (fun pc => (i, (s.setPc pc).setP (setFlag .u true s.p))) length)

end

/-- Settles O5: the dot of the tick changes neither memory nor `PC`, so the fetch reads the instruction's bytes. -/
theorem stepRunsDecodedInstruction : Obligations.StepRunsDecodedInstruction := by
  unfold Obligations.StepRunsDecodedInstruction
  intro s bytes i slot idle code decoded
  have memory : SameMemory s (afterDot s) := sameMemory_of_ram_cart rfl rfl
  have fetch : fetchInstr (afterDot s) = (i, fetched bytes.length (afterDot s)) :=
    fetchInstr_of_decode (codeAt_congr memory code) decoded
  rw [step_of_dma_idle slot idle, cpuClock, fetch]

end Sys2Proof.Machine
end

