-- ==== Sys2Proof/Proofs/PpuMemory.lean ====
section
/-! The picture unit's address space (R83 to R85, R370 to R378): what a read and a write reach in each region, with the
indices as numbers, and from that where a written byte is read back. -/

namespace Sys2Proof.Machine

open Sys2Proof.Claims

section
variable (c : Cartridge) (p : Ppu) {a b : PpuAddr} (d : Byte)

/-! ## Reads by region -/

/-- Where the cartridge does not answer, the unit's own memories do (R370). -/
theorem read_of_unanswered (unanswered : (if c.present then c.ppuRead a else none) = none) :
    p.read c a = if a ≤ 0x1FFF then p.pt.read (ptIndex a) else if a ≤ 0x3EFF then p.nt.read (ntIndex c.mirroring a)
      else p.pal.read (palIndex a) &&& (if p.grayscale then 0x30 else 0x3F) := by
  rw [Ppu.read, unanswered]

/-- The cartridge answers the pattern region alone (R83). -/
theorem unanswered_of_high (high : ¬a ≤ 0x1FFF) : (if c.present then c.ppuRead a else none) = none := by
  rw [Cartridge.ppuRead, if_neg high, ite_self]

theorem read_palette (high : 0x3F00 ≤ a.toNat) :
    p.read c a = p.pal.read (palIndex a) &&& (if p.grayscale then 0x30 else 0x3F) := by
  have notPattern : ¬a ≤ 0x1FFF := by bv_omega
  have notTable : ¬a ≤ 0x3EFF := by bv_omega
  rw [read_of_unanswered c p (unanswered_of_high c notPattern), if_neg notPattern, if_neg notTable]

theorem read_nametable (lo : 0x2000 ≤ a.toNat) (hi : a.toNat < 0x3F00) :
    p.read c a = p.nt.read (ntIndex c.mirroring a) := by
  have notPattern : ¬a ≤ 0x1FFF := by bv_omega
  have table : a ≤ 0x3EFF := by bv_omega
  rw [read_of_unanswered c p (unanswered_of_high c notPattern), if_neg notPattern, if_pos table]

theorem read_character (low : a.toNat < 0x2000) (present : c.present = true) :
    p.read c a = if c.chrBanks = 0 then 0 else c.chr.read a.toNat := by
  have pattern : a ≤ 0x1FFF := by bv_omega
  rw [Ppu.read, if_pos present, Cartridge.ppuRead, if_pos pattern]
  rfl

theorem ptIndex_eq_toNat (low : a.toNat < 0x2000) : ptIndex a = a.toNat := by
  rw [ptIndex, BitVec.toNat_and]
  exact (Nat.and_two_pow_sub_one_eq_mod a.toNat 13).trans (Nat.mod_eq_of_lt low)

theorem read_pattern (low : a.toNat < 0x2000) (absent : c.present = false) : p.read c a = p.pt.read a.toNat := by
  have pattern : a ≤ 0x1FFF := by bv_omega
  have unanswered : (if c.present then c.ppuRead a else none) = none := by rw [absent]; rfl
  rw [read_of_unanswered c p unanswered, if_pos pattern, ptIndex_eq_toNat low]

/-! ## Writes by region -/

/-- The cartridge takes no write, so each falls to the unit's own memories (R84, R371). -/
theorem write_eq_own : p.write c a d = if a ≤ 0x1FFF then { p with pt := p.pt.write (ptIndex a) d }
    else if a ≤ 0x3EFF then { p with nt := p.nt.write (ntIndex c.mirroring a) d }
    else { p with pal := p.pal.write (palIndex a) d } := by
  have rejected : ¬(c.present && c.ppuWrite a) = true := by simp [Cartridge.ppuWrite]
  rw [Ppu.write, if_neg rejected]

theorem write_palette (high : 0x3F00 ≤ a.toNat) :
    p.write c a d = { p with pal := p.pal.write (palIndex a) d } := by
  have notPattern : ¬a ≤ 0x1FFF := by bv_omega
  have notTable : ¬a ≤ 0x3EFF := by bv_omega
  rw [write_eq_own, if_neg notPattern, if_neg notTable]

theorem write_nametable (lo : 0x2000 ≤ a.toNat) (hi : a.toNat < 0x3F00) :
    p.write c a d = { p with nt := p.nt.write (ntIndex c.mirroring a) d } := by
  have notPattern : ¬a ≤ 0x1FFF := by bv_omega
  have table : a ≤ 0x3EFF := by bv_omega
  rw [write_eq_own, if_neg notPattern, if_pos table]

theorem write_pattern (low : a.toNat < 0x2000) : p.write c a d = { p with pt := p.pt.write a.toNat d } := by
  have pattern : a ≤ 0x1FFF := by bv_omega
  rw [write_eq_own, if_pos pattern, ptIndex_eq_toNat low]

/-! ## What a read does not look at -/

/-- Outside the nametables no read looks at nametable memory. -/
theorem read_setNt (nt : Memory 8) (outside : a.toNat < 0x2000 ∨ 0x3F00 ≤ a.toNat) :
    Ppu.read c { p with nt } a = p.read c a := by
  obtain low | high := outside
  · cases cart : c.present
    · rw [read_pattern c _ low cart, read_pattern c _ low cart]
    · rw [read_character c _ low cart, read_character c _ low cart]
  · rw [read_palette c _ high, read_palette c _ high]
    rfl

/-- Above the pattern region, and with a cartridge everywhere, no read looks at the unit's pattern memory. -/
theorem read_setPt (pt : Memory 8) (shadowed : 0x2000 ≤ a.toNat ∨ c.present = true) :
    Ppu.read c { p with pt } a = p.read c a := by
  by_cases low : a.toNat < 0x2000
  · have present : c.present = true := shadowed.resolve_left (Nat.not_le.mpr low)
    rw [read_character c _ low present, read_character c _ low present]
  · rw [Nat.not_lt] at low
    by_cases table : a.toNat < 0x3F00
    · rw [read_nametable c _ low table, read_nametable c _ low table]
    · rw [Nat.not_lt] at table
      rw [read_palette c _ table, read_palette c _ table]
      rfl

end

/-! ## The indices as numbers -/

section
variable (a b : PpuAddr)

/-- The backdrop entries of the sprite palettes are those of the background palettes (R377). -/
theorem palIndex_eq_ite : palIndex a = if a.toNat % 4 = 0 then a.toNat % 16 else a.toNat % 32 := by
  have low : (a &&& 0x1F).toNat = a.toNat % 32 := by
    rw [BitVec.toNat_and]
    exact Nat.and_two_pow_sub_one_eq_mod a.toNat 5
  simp only [palIndex, low]
  split_ifs <;> omega

theorem palIndex_eq_iff : palIndex a = palIndex b ↔ a.toNat % 32 = b.toNat % 32 ∨
    (a.toNat % 4 = 0 ∧ b.toNat % 4 = 0 ∧ a.toNat % 16 = b.toNat % 16) := by
  rw [palIndex_eq_ite, palIndex_eq_ite]
  split_ifs <;> omega

/-- A nametable address is an offset in one of the two physical tables (R374). -/
theorem ntIndex_eq_physicalTable (m : Mirroring) : ntIndex m a = 0x400 * physicalTable m a + a.toNat % 0x400 := by
  have offset : (a &&& 0x03FF).toNat = a.toNat % 0x400 := by
    rw [BitVec.toNat_and]
    exact Nat.and_two_pow_sub_one_eq_mod a.toNat 10
  cases m with
  | vertical => exact congrArg₂ (0x400 * · + ·) (Nat.toNat_testBit a.toNat 10) offset
  | horizontal => exact congrArg₂ (0x400 * · + ·) (Nat.toNat_testBit a.toNat 11) offset

theorem ntIndex_eq_iff (m : Mirroring) : ntIndex m a = ntIndex m b ↔
    a.toNat % 0x400 = b.toNat % 0x400 ∧ physicalTable m a = physicalTable m b := by
  rw [ntIndex_eq_physicalTable, ntIndex_eq_physicalTable]
  omega

end

/-! ## The obligations -/

/-- Settles O51: one cell of the palette for each index, and the addresses of an index. -/
theorem paletteAliasesAreOneCell : Obligations.PaletteAliasesAreOneCell := by
  unfold Obligations.PaletteAliasesAreOneCell
  intro c p a b d sound ha hb
  obtain ⟨-, -, pal, -⟩ := p.sound_iff.mp sound
  rw [write_palette c p d ha, read_palette c _ hb, read_palette c _ hb, Memory.read_write pal]
  by_cases same : palIndex a = palIndex b
  · rw [if_pos same, if_pos ((palIndex_eq_iff a b).mp same)]
    rfl
  · rw [if_neg same, if_neg (mt (palIndex_eq_iff a b).mpr same)]
    rfl

section
variable (c : Cartridge) {p : Ppu} {a : PpuAddr} (d : Byte)

theorem nametable_read_write (sound : p.sound = true) (lo : 0x2000 ≤ a.toNat) (hi : a.toNat < 0x3F00) (b : PpuAddr)
    (lo' : 0x2000 ≤ b.toNat) (hi' : b.toNat < 0x3F00) : (p.write c a d).read c b =
      if a.toNat % 0x400 = b.toNat % 0x400 ∧ physicalTable c.mirroring a = physicalTable c.mirroring b then d
      else p.read c b := by
  obtain ⟨nt, -⟩ := p.sound_iff.mp sound
  rw [write_nametable c p d lo hi, read_nametable c _ lo' hi', read_nametable c _ lo' hi', Memory.read_write nt]
  exact if_congr (ntIndex_eq_iff a b c.mirroring) rfl rfl

theorem pattern_read_write_of_absent (sound : p.sound = true) (low : a.toNat < 0x2000) (absent : c.present = false)
    (b : PpuAddr) : (p.write c a d).read c b = if b = a then d else p.read c b := by
  obtain ⟨-, pt, -⟩ := p.sound_iff.mp sound
  rw [write_pattern c p d low]
  by_cases low' : b.toNat < 0x2000
  · rw [read_pattern c _ low' absent, read_pattern c _ low' absent, Memory.read_write pt]
    exact if_congr (eq_comm.trans BitVec.toNat_inj) rfl rfl
  · have other : b ≠ a := fun same => low' (same ▸ low)
    rw [if_neg other, read_setPt c p _ (.inl (Nat.not_lt.mp low'))]

end

/-- Settles O52: by region of the write, then of the read. -/
theorem patternAndNametableMemory : Obligations.PatternAndNametableMemory := by
  unfold Obligations.PatternAndNametableMemory
  intro c p a d sound
  refine ⟨fun lo hi => ⟨nametable_read_write c d sound lo hi, fun b outside => ?table⟩, fun low =>
    ⟨write_pattern c p d low, fun present => ⟨read_character c p low present, fun b => ?pattern⟩,
      fun absent => ⟨read_pattern c p low absent, pattern_read_write_of_absent c d sound low absent⟩⟩⟩
  case table =>
    rw [write_nametable c p d lo hi]
    exact read_setNt c p _ outside
  case pattern =>
    rw [write_pattern c p d low]
    exact read_setPt c p _ (.inr present)

end Sys2Proof.Machine
end
